-- ==== Sys2Proof/Word.lean ====
section
/-! DEFINITION. The word and byte types (00_scope.md R11): every value of this hardware is an unsigned
32-bit word or a byte of one; there is no signed arithmetic. -/

namespace Sys2Proof

/-- A 32-bit word, bits 31 (most significant) to 0 (R11). -/
abbrev Word := BitVec 32

/-- A byte; byte j of a word is its bits 8j+7..8j (R11). -/
abbrev Byte := BitVec 8

end Sys2Proof
end

