-- ==== Sys2Proof/Syntax.lean ====
section
/-! DEFINITION. The commands of the engine (30_encoding.md R60): one constructor per row of the opcode map.
A command is this hardware's instruction (00_scope.md R16). -/

namespace Sys2Proof

/-- The 18 commands (R60). `A` is the 4-bit argument w[11:8] and `C` the chunk count w[23:16] (R58, R59);
a constructor carries the field its form has, at every value the field can hold. Whether the value is legal
is `Instr.wellFormed` (R59). -/
inductive Instr where
  /-- do nothing (R102) -/
  | nop
  /-- abandon the operation and clear the error state (R103) -/
  | abort
  /-- zero the cipher state (R76) -/
  | zero
  /-- run the permutation for C chunks of 128 rounds (R77) -/
  | perm (C : BitVec 8)
  /-- xor a frame constant into S[1] (R78) -/
  | frame (A : BitVec 4)
  /-- xor a trailing length into S[1] (R79) -/
  | xlen (A : BitVec 4)
  /-- xor DIN into S[3] (R80) -/
  | xw
  /-- xor the low A bytes of DIN into S[3] (R81) -/
  | xb (A : BitVec 4)
  /-- copy state word A to DOUT (R82) -/
  | rds (A : BitVec 4)
  /-- start an operation: key loading and nonce introduction (R85) -/
  | init
  /-- absorb a full block of associated data (R88) -/
  | adw
  /-- absorb the trailing A bytes of associated data (R89) -/
  | adp (A : BitVec 4)
  /-- encrypt a full block (R94) -/
  | encw
  /-- encrypt the trailing A bytes (R95) -/
  | encp (A : BitVec 4)
  /-- decrypt a full block (R96) -/
  | decw
  /-- decrypt the trailing A bytes (R97) -/
  | decp (A : BitVec 4)
  /-- finalize: compute the tag (R100) -/
  | fin
  /-- compare the computed tag with the received tag (R101) -/
  | verify
  deriving DecidableEq, Repr

end Sys2Proof
end

