-- ==== Sys2Proof/Config.lean ====
section
/-! DEFINITION. What the spec leaves to the implementation (00_scope.md R10) and the free values. Each is a constant
without a body, so nothing can be proved of its value beyond the constraint the spec states. -/

namespace Sys2Proof.Config

/-- The 256-byte page of the bus on which the register window stands (log 5). -/
opaque tjPage : Nat

/-- `TJ_BASE`, the bus address of register offset 0x00: "aligned to 256 bytes" (R10). -/
def tjBase : Nat := 256 * tjPage

/-- What `LAT(cmd)` exceeds 1 by, for every command but VERIFY (log 4). -/
opaque latencyBeyondOne : Instr → Nat

/-- What `LAT_VERIFY` exceeds 1 by: one constant, so "independent of the tag values" (R10; log 4). -/
opaque verifyLatencyBeyondOne : Nat

/-- `LAT(cmd)`, the cycles from issuing a command that goes busy until BUSY falls: "finite and at least 1"
(R10, 70_reset_and_hazards.md R135). -/
def latency : Instr → Nat
  | .verify => verifyLatencyBeyondOne + 1
  | i => latencyBeyondOne i + 1

/-- The value a read held at a reset returns: any 32-bit value (70_reset_and_hazards.md R132, U15; log 7).
The argument counts the values given so far, so no two of them are tied together. -/
opaque freeRead : Nat → Word

end Sys2Proof.Config
end

