-- ==== Sys2Proof/WellFormed.lean ====
section
/-! DEFINITION. The legal operand values of a command (30_encoding.md R59, the column "legal values"). -/

namespace Sys2Proof

/-- A frame selector or a state word index: "0..3" (R59). -/
def selectorLegal (A : BitVec 4) : Bool := decide (A.toNat ≤ 3)

/-- A trailing length or byte count: "1..3" (R59). -/
def lengthLegal (A : BitVec 4) : Bool := decide (1 ≤ A.toNat ∧ A.toNat ≤ 3)

/-- Every operand of the command is in its legal range (R59); a chunk count has no illegal value (R62). -/
def Instr.wellFormed : Instr → Bool
  | .nop => true
  | .abort => true
  | .zero => true
  | .perm _ => true
  | .frame A => selectorLegal A
  | .xlen A => lengthLegal A
  | .xw => true
  | .xb A => lengthLegal A
  | .rds A => selectorLegal A
  | .init => true
  | .adw => true
  | .adp A => lengthLegal A
  | .encw => true
  | .encp A => lengthLegal A
  | .decw => true
  | .decp A => lengthLegal A
  | .fin => true
  | .verify => true

end Sys2Proof
end

