-- ==== Sys2Proof/Decode.lean ====
section
/-! DEFINITION. Decode of a command word (30_encoding.md R58 to R62) and the encoder (R60, R68). -/

namespace Sys2Proof

/-- The 4-bit argument: the unsigned number w[11:8] (R59). -/
def argA (w : Word) : BitVec 4 := w.extractLsb' 8 4

/-- The chunk count: the unsigned number w[23:16] (R59). -/
def argC (w : Word) : BitVec 8 := w.extractLsb' 16 8

/-- A row of the opcode map: a word w is of the row when `w & mask = pattern` (R62). -/
structure Row where
  mask : Word
  pattern : Word
  read : Word → Instr

/-- No-operand form: every bit is fixed (R60). -/
def maskNone : Word := 0xFFFFFFFF
/-- A form: all bits but 11:8 are fixed (R60). -/
def maskA : Word := 0xFFFFF0FF
/-- C form: all bits but 23:16 are fixed (R60). -/
def maskC : Word := 0xFF00FFFF

/-- The opcode map (R60), row by row as spec/opcode_table.json has it. -/
def rows : List Row :=
  [ ⟨maskNone, 0x00000000, fun _ => .nop⟩,
    ⟨maskNone, 0x00000001, fun _ => .abort⟩,
    ⟨maskNone, 0x00000010, fun _ => .zero⟩,
    ⟨maskC,    0x00000011, fun w => .perm (argC w)⟩,
    ⟨maskA,    0x00000012, fun w => .frame (argA w)⟩,
    ⟨maskA,    0x00000013, fun w => .xlen (argA w)⟩,
    ⟨maskNone, 0x00000014, fun _ => .xw⟩,
    ⟨maskA,    0x00000015, fun w => .xb (argA w)⟩,
    ⟨maskA,    0x00000016, fun w => .rds (argA w)⟩,
    ⟨maskNone, 0x00000020, fun _ => .init⟩,
    ⟨maskNone, 0x00000021, fun _ => .adw⟩,
    ⟨maskA,    0x00000022, fun w => .adp (argA w)⟩,
    ⟨maskNone, 0x00000023, fun _ => .encw⟩,
    ⟨maskA,    0x00000024, fun w => .encp (argA w)⟩,
    ⟨maskNone, 0x00000025, fun _ => .decw⟩,
    ⟨maskA,    0x00000026, fun w => .decp (argA w)⟩,
    ⟨maskNone, 0x00000027, fun _ => .fin⟩,
    ⟨maskNone, 0x00000028, fun _ => .verify⟩ ]

/-- `w` is a word of the row `r` (R62). -/
def Row.covers (r : Row) (w : Word) : Bool := w &&& r.mask == r.pattern

/-- The command of the unique row that covers the word, its operand at whatever value the word gives it;
none when no row does (R61, R62). -/
def rowInstr (w : Word) : Option Instr :=
  (rows.find? (·.covers w)).map (·.read w)

/-- The operand check of R62: `A <= 3` for FRAME and RDS, `1 <= A <= 3` for XLEN, XB, ADP, ENCP and DECP. -/
def Instr.argInRange : Instr → Bool
  | .frame A | .rds A => decide (A ≤ 3)
  | .xlen A | .xb A | .adp A | .encp A | .decp A => decide (1 ≤ A ∧ A ≤ 3)
  | .nop | .abort | .zero | .perm _ | .xw | .init | .adw | .encw | .decw | .fin | .verify => true

/-- What decoding a command word gives (R62). -/
inductive Decoded where
  /-- no row covers the word -/
  | illegal
  /-- the word is of the row, its operand out of range; the command read is kept (log 9) -/
  | badArg (i : Instr)
  /-- a command with a legal operand -/
  | cmd (i : Instr)
  deriving DecidableEq, Repr

/-- Decode of a command word (R62). -/
def decode (w : Word) : Decoded :=
  match rowInstr w with
  | none => .illegal
  | some i => if i.argInRange then .cmd i else .badArg i

/-- A command word from its fields: `OP | (A << 8) | (C << 16)` (R60). -/
def commandWord (op : BitVec 8) (A : BitVec 4) (C : BitVec 8) : Word :=
  op.setWidth 32 ||| (A.setWidth 32 <<< 8) ||| (C.setWidth 32 <<< 16)

/-- The word of a command (R60, R68). -/
def encode : Instr → Word
  | .nop => commandWord 0x00 0 0
  | .abort => commandWord 0x01 0 0
  | .zero => commandWord 0x10 0 0
  | .perm C => commandWord 0x11 0 C
  | .frame A => commandWord 0x12 A 0
  | .xlen A => commandWord 0x13 A 0
  | .xw => commandWord 0x14 0 0
  | .xb A => commandWord 0x15 A 0
  | .rds A => commandWord 0x16 A 0
  | .init => commandWord 0x20 0 0
  | .adw => commandWord 0x21 0 0
  | .adp A => commandWord 0x22 A 0
  | .encw => commandWord 0x23 0 0
  | .encp A => commandWord 0x24 A 0
  | .decw => commandWord 0x25 0 0
  | .decp A => commandWord 0x26 A 0
  | .fin => commandWord 0x27 0 0
  | .verify => commandWord 0x28 0 0

/-- The word whose `nbits` low bits are those of `w`, the bits above them zero. A command is one 32-bit word (R58). -/
def tableWord (nbits w : Nat) : Word := BitVec.ofNat 32 (w % 2 ^ nbits)

/-- The command the decoder reads from a table word. An operand out of range is still its row's command: that it is
rejected with BAD_ARG is the command's own outcome at issue (R65; log 9). -/
def decodeTableWord (nbits w : Nat) : Option Instr :=
  match decode (tableWord nbits w) with
  | .illegal => none
  | .badArg i => some i
  | .cmd i => some i

end Sys2Proof
end

