-- ==== Sys2Proof/Machine/State.lean ====
section
/-! DEFINITION. The state of the engine (10_state.md), the host port, the reasons a step can stop, and the state after reset. -/

namespace Sys2Proof.Machine

/-- The cipher state S: "exactly 4 words of 32 bits each" (R17). -/
structure Block where
  s0 : Word
  s1 : Word
  s2 : Word
  s3 : Word
  deriving DecidableEq, Repr

/-- The key register file K[0..5] (R22). -/
structure KeyWords where
  k0 : Word
  k1 : Word
  k2 : Word
  k3 : Word
  k4 : Word
  k5 : Word
  deriving DecidableEq, Repr

/-- The nonce register file N[0..2] (R24). -/
structure NonceWords where
  n0 : Word
  n1 : Word
  n2 : Word
  deriving DecidableEq, Repr

/-- A tag of two words: TAG[0..1] (R25) or RT[0..1] (R26). -/
structure TagWords where
  t0 : Word
  t1 : Word
  deriving DecidableEq, Repr

/-- The values PHASE holds; 5, 6 and 7 are never held (R29). -/
inductive Phase where
  | idle
  | ad
  | msg
  | msgEnd
  | done
  deriving DecidableEq, Repr

/-- The values CAUSE holds; 4 to 15 are never raised (60_exceptions.md R116). -/
inductive Cause where
  | none
  | illegalCommand
  | badArg
  | sequence
  deriving DecidableEq, Repr

/-- What a host access does: `rd` or `wr` (30_encoding.md R67). -/
inductive AccessOp where
  | read
  | write (v : Word)
  deriving DecidableEq, Repr

/-- A host access to bus address `TJ_BASE + off` that selects `size` bytes (20_memory.md R39, R41; logs 5 and 15). -/
structure Access where
  off : BitVec 8
  size : Nat
  op : AccessOp
  deriving DecidableEq, Repr

/-- What happens at the engine's inputs in one cycle (log 1). -/
inductive PortEvent where
  /-- the host presents an access -/
  | access (a : Access)
  /-- the host presents nothing -/
  | cycle
  /-- the reset input is asserted (70_reset_and_hazards.md R131) -/
  | reset
  deriving DecidableEq, Repr

/-- What the port answers to an access. A BusError is no answer but a fault (60_exceptions.md R130). -/
inductive Answer where
  /-- a read returns this value -/
  | data (v : Word)
  /-- a write was accepted -/
  | done
  /-- a write held at a reset was released, its outcome unspecified (70_reset_and_hazards.md R132; log 7) -/
  | released
  deriving DecidableEq, Repr

/-- The command in flight: what the engine holds while BUSY = 1 (R37), and the cycles left until it completes
(70_reset_and_hazards.md R135; logs 3 and 4). -/
structure InFlight where
  cmd : Instr
  din : Word
  remaining : Nat
  deriving DecidableEq, Repr

/-- The state of the engine (10_state.md), under the spec's own names, and of its host port. -/
structure State where
  /-- the cipher state (R17 to R21) -/
  S : Block
  /-- the key (R22, R23) -/
  K : KeyWords
  /-- the nonce (R24) -/
  N : NonceWords
  /-- the tag FIN computes (R25) -/
  TAG : TagWords
  /-- the received tag (R26) -/
  RT : TagWords
  /-- the data-input register (R27) -/
  DIN : Word
  /-- the data-output register (R28) -/
  DOUT : Word
  /-- where the operation stands (R29) -/
  PHASE : Phase
  /-- the sticky error flag (R31) -/
  ERR : Bool
  /-- the cause of the error (R31) -/
  CAUSE : Cause
  /-- VERIFY has run (R32) -/
  AUTH_VALID : Bool
  /-- the tags were equal (R32) -/
  AUTH_OK : Bool
  /-- the command in flight; BUSY (R30) is 1 exactly when there is one (log 3) -/
  inFlight : Option InFlight
  /-- the host access held because it was presented while BUSY = 1 (70_reset_and_hazards.md R136) -/
  held : Option Access
  /-- the model's own field: the port events still to come, next first (log 1) -/
  port : List PortEvent
  /-- the model's own field: the port's answers so far, oldest first (log 1) -/
  answers : List Answer
  /-- the model's own field: how many free read values have been given (log 7) -/
  freeReads : Nat
  deriving DecidableEq, Repr

/-- Why a step stops. -/
inductive Fault where
  /-- A host access of a wrong size, misaligned or to an unmapped offset (20_memory.md R41, R42, R43), raised by the
  port when the access is presented. Safe: 60_exceptions.md R130 has a model treat it as a fault of the host access,
  "toward unprovable"; the engine itself goes on unchanged (R119; log 6). -/
  | busError (addr : Nat)
  deriving DecidableEq, Repr

/-- Why there is no meaning to run. -/
inductive Refusal where
  /-- An instruction whose meaning is not written yet, raised by its arm of `exec`. Safe. No arm raises it: every
  command has its meaning. -/
  | notModelled (mnemonic : String)
  deriving DecidableEq, Repr

/-- Every register "is 0 after reset, PHASE is IDLE", and nothing is in flight (70_reset_and_hazards.md R131).
The last four fields are the port's (log 13). -/
def State.reset : State where
  S := ⟨0, 0, 0, 0⟩
  K := ⟨0, 0, 0, 0, 0, 0⟩
  N := ⟨0, 0, 0⟩
  TAG := ⟨0, 0⟩
  RT := ⟨0, 0⟩
  DIN := 0
  DOUT := 0
  PHASE := .idle
  ERR := false
  CAUSE := .none
  AUTH_VALID := false
  AUTH_OK := false
  inFlight := none
  held := none
  port := []
  answers := []
  freeReads := 0

end Sys2Proof.Machine
end

