-- ==== Sys2Proof/Machine/Flags.lean ====
section
/-! DEFINITION. PHASE, CAUSE and STATUS as the host reads them (10_state.md R29, R31, R33), and the tables of the issue
procedure: admission and next PHASE (30_encoding.md R63), the go-busy set (R64). The engine has no arithmetic flags (10_state.md R35). -/

namespace Sys2Proof.Machine

/-- The 3-bit value of PHASE (R29). -/
def Phase.code : Phase → BitVec 3
  | .idle => 0
  | .ad => 1
  | .msg => 2
  | .msgEnd => 3
  | .done => 4

/-- The 4-bit value of CAUSE (60_exceptions.md R116). -/
def Cause.code : Cause → BitVec 4
  | .none => 0
  | .illegalCommand => 1
  | .badArg => 2
  | .sequence => 3

/-- BUSY: 1 from the issue of a command that goes busy until it completes (R30; log 3). -/
def State.BUSY (s : State) : Bool := s.inFlight.isSome

/-- The STATUS word: bits 31:12 zero, CAUSE in 11:8, bit 7 zero, PHASE in 6:4, then AUTH_OK, AUTH_VALID, ERR and BUSY
in 3 to 0 (R33). -/
def State.status (s : State) : Word :=
  (0 : BitVec 20) ++ s.CAUSE.code ++ (0 : BitVec 1) ++ s.PHASE.code
    ++ BitVec.ofBool s.AUTH_OK ++ BitVec.ofBool s.AUTH_VALID ++ BitVec.ofBool s.ERR ++ BitVec.ofBool s.BUSY

/-- A command is admitted only in these phases (30_encoding.md R63, column "admitted in"). -/
def admitted : Instr → Phase → Bool
  | .nop, _ | .abort, _ | .zero, _ | .perm _, _ | .frame _, _ | .xlen _, _ | .xw, _ | .xb _, _ | .rds _, _ => true
  | .init, _ => true
  | .adw, p | .adp _, p => p == .ad
  | .encw, p | .encp _, p | .decw, p | .decp _, p => p == .ad || p == .msg
  | .fin, p => p == .ad || p == .msg || p == .msgEnd
  | .verify, p => p == .done

/-- The PHASE an admitted command leaves (30_encoding.md R63, column "next PHASE"). -/
def nextPhase : Instr → Phase → Phase
  | .nop, p | .zero, p | .perm _, p | .frame _, p | .xlen _, p | .xw, p | .xb _, p | .rds _, p => p
  | .abort, _ => .idle
  | .init, _ => .ad
  | .adw, _ => .ad
  | .adp _, _ => .msg
  | .encw, _ | .decw, _ => .msg
  | .encp _, _ | .decp _, _ => .msgEnd
  | .fin, _ => .done
  | .verify, _ => .done

/-- The commands that go busy: those that run StateUpdate, PERM with C >= 1 among them, and VERIFY (30_encoding.md R64). -/
def goesBusy : Instr → Bool
  | .perm C => C != 0
  | .init | .adw | .adp _ | .encw | .encp _ | .decw | .decp _ | .fin | .verify => true
  | .nop | .abort | .zero | .frame _ | .xlen _ | .xw | .xb _ | .rds _ => false

end Sys2Proof.Machine
end

