-- ==== Sys2Proof/Machine/Operands.lean ====
section
/-! DEFINITION. Operand forms: words of the register files by index, byte lanes, little-endian assembly, the frame
constants and round counts (00_scope.md R9, R11 to R14; 20_memory.md R50 to R52; 30_encoding.md R59). -/

namespace Sys2Proof.Machine

/-- `S[i]`, the index taken mod 4 (R13, 40_permutation.md R70). -/
def Block.get (S : Block) : Fin 4 → Word
  | 0 => S.s0
  | 1 => S.s1
  | 2 => S.s2
  | 3 => S.s3

/-- `S[i] <- v` (R13). -/
def Block.set (S : Block) (i : Fin 4) (v : Word) : Block :=
  match i with
  | 0 => { S with s0 := v }
  | 1 => { S with s1 := v }
  | 2 => { S with s2 := v }
  | 3 => { S with s3 := v }

/-- All four words zero (R76). -/
def Block.zero : Block := ⟨0, 0, 0, 0⟩

/-- `S[1] <- S[1] ^ v`: where frame bits and trailing lengths go (R78, R79). -/
def Block.xorWord1 (S : Block) (v : Word) : Block := { S with s1 := S.s1 ^^^ v }

/-- `S[3] <- S[3] ^ v`: where data are absorbed (R80, R81). -/
def Block.xorWord3 (S : Block) (v : Word) : Block := { S with s3 := S.s3 ^^^ v }

/-- `S[3] <- S[3] ^ P` and `S[1] <- S[1] ^ n`: how a trailing partial block of n bytes ends (R89, R95, R97). -/
def Block.xorTail (S : Block) (P n : Word) : Block := { S with s1 := S.s1 ^^^ n, s3 := S.s3 ^^^ P }

/-- `K[j]` (R22). -/
def KeyWords.get (K : KeyWords) : Fin 6 → Word
  | 0 => K.k0
  | 1 => K.k1
  | 2 => K.k2
  | 3 => K.k3
  | 4 => K.k4
  | 5 => K.k5

/-- `K[i] <- v` (R22). -/
def KeyWords.set (K : KeyWords) (i : Fin 6) (v : Word) : KeyWords :=
  match i with
  | 0 => { K with k0 := v }
  | 1 => { K with k1 := v }
  | 2 => { K with k2 := v }
  | 3 => { K with k3 := v }
  | 4 => { K with k4 := v }
  | 5 => { K with k5 := v }

/-- `N[i]` (R24). -/
def NonceWords.get (N : NonceWords) : Fin 3 → Word
  | 0 => N.n0
  | 1 => N.n1
  | 2 => N.n2

/-- `N[i] <- v` (R24). -/
def NonceWords.set (N : NonceWords) (i : Fin 3) (v : Word) : NonceWords :=
  match i with
  | 0 => { N with n0 := v }
  | 1 => { N with n1 := v }
  | 2 => { N with n2 := v }

/-- `TAG[i]` or `RT[i]` (R25, R26). -/
def TagWords.get (T : TagWords) : Fin 2 → Word
  | 0 => T.t0
  | 1 => T.t1

/-- `TAG[i] <- v` or `RT[i] <- v` (R25, R26). -/
def TagWords.set (T : TagWords) (i : Fin 2) (v : Word) : TagWords :=
  match i with
  | 0 => { T with t0 := v }
  | 1 => { T with t1 := v }

/-- Both words zero (R85, R103). -/
def TagWords.zero : TagWords := ⟨0, 0⟩

/-- `byte(w, j) = w[8j+7:8j]` (R11). -/
def byteOf (w : Word) (j : Nat) : Byte := w.extractLsb' (8 * j) 8

/-- `zext_32(v)` of a byte (R11). -/
def zextByte (b : Byte) : Word := b.setWidth 32

/-- `zext_32(A)` of a 4-bit argument (R11). -/
def zextArg (A : BitVec 4) : Word := A.setWidth 32

/-- `LE32(b0, b1, b2, b3) = b0 | (b1 << 8) | (b2 << 16) | (b3 << 24)` (R14, R50). -/
def le32 (b0 b1 b2 b3 : Byte) : Word :=
  zextByte b0 ||| (zextByte b1 <<< 8) ||| (zextByte b2 <<< 16) ||| (zextByte b3 <<< 24)

/-- `UNLE32(w) = [byte(w,0), byte(w,1), byte(w,2), byte(w,3)]` (R14). -/
def unle32 (w : Word) : List Byte := [byteOf w 0, byteOf w 1, byteOf w 2, byteOf w 3]

/-- `mask(n) = 2^(8n) - 1`: the low n bytes are all ones (R12). -/
def laneMask (n : Nat) : Word := BitVec.ofNat 32 (2 ^ (8 * n) - 1)

/-- The frame constant of a selector: `(2A + 1) << 4` (R59). -/
def frameConst (A : BitVec 4) : Word := (2 * zextArg A + 1) <<< 4

/-- FB_IV (R9). -/
def fbIV : Word := 0x10
/-- FB_AD (R9). -/
def fbAD : Word := 0x30
/-- FB_PC, the frame bits of message blocks (R9). -/
def fbPC : Word := 0x50
/-- FB_FIN (R9). -/
def fbFIN : Word := 0x70

/-- NROUND_LONG: 1152 rounds, 9 chunks (R9, 40_permutation.md R74). -/
def chunksLong : Nat := 9
/-- NROUND_SHORT: 640 rounds, 5 chunks (R9, 40_permutation.md R74). -/
def chunksShort : Nat := 5

/-- The state word index of an RDS argument in 0..3 (R59). -/
def wordIndex (A : BitVec 4) : Fin 4 := Fin.ofNat 4 A.toNat

end Sys2Proof.Machine
end

