-- ==== Sys2Proof/Machine/Permutation.lean ====
section
/-! DEFINITION. The keyed permutation StateUpdate (40_permutation.md R69 to R74). The word pairs that feed t1 to t4 are
the spec's decision D5, from general knowledge (R70; log 10). -/

namespace Sys2Proof.Machine

/-- The new value of the target word x of one 32-round step, from the three other words a, b, d in order and the
key word k: `x ^ t1 ^ ~(t2 & t3) ^ t4 ^ k` (R70). -/
def feedback (x a b d k : Word) : Word :=
  let t1 := (a >>> 15) ||| (b <<< 17)
  let t2 := (b >>> 6) ||| (d <<< 26)
  let t3 := (b >>> 21) ||| (d <<< 11)
  let t4 := (b >>> 27) ||| (d <<< 5)
  x ^^^ t1 ^^^ ~~~(t2 &&& t3) ^^^ t4 ^^^ k

/-- One step, targeting word w with key word K[j]; j then advances mod 6 (R70). -/
def wordStep (K : KeyWords) (w : Fin 4) (p : Block × Fin 6) : Block × Fin 6 :=
  (p.1.set w (feedback (p.1.get w) (p.1.get (w + 1)) (p.1.get (w + 2)) (p.1.get (w + 3)) (K.get p.2)), p.2 + 1)

/-- One 128-round chunk: the steps of words 0, 1, 2, 3, each reading what the earlier ones wrote (R70, R71, R139). -/
def chunk (K : KeyWords) (p : Block × Fin 6) : Block × Fin 6 :=
  wordStep K 3 (wordStep K 2 (wordStep K 1 (wordStep K 0 p)))

/-- `n` chunks, the key-word index carried from one to the next (R70). -/
def chunks (K : KeyWords) : Nat → Block × Fin 6 → Block × Fin 6
  | 0, p => p
  | n + 1, p => chunks K n (chunk K p)

/-- `StateUpdate(S, K, c)`: c chunks, the key-word index at 0 at the start of every call (R70, R73). -/
def stateUpdate (S : Block) (K : KeyWords) (c : Nat) : Block := (chunks K c (S, 0)).1

/-- Frame bits into S[1], then the permutation: how every block and pass of the sequencer begins (R84, R86, R92, R99). -/
def framedUpdate (frame : Word) (c : Nat) (K : KeyWords) (S : Block) : Block :=
  stateUpdate (S.xorWord1 frame) K c

end Sys2Proof.Machine
end

