-- ==== Sys2Proof/Machine/Ops.lean ====
section
/-! DEFINITION. The named operations over the registers that the commands and the port share: raising a command error
and clearing it, the issue checks, the register window. The hardware has no memory (20_memory.md R39; log 14). -/

namespace Sys2Proof.Machine

/-- The outcome of a command or of a step. -/
abbrev Result := Host.Outcome State Fault Refusal

/-- Go on with a next state, pass a fault or a refusal through. -/
def andThen (r : Result) (f : State → Result) : Result :=
  match r with
  | .next s => f s
  | .fault e => .fault e
  | .refused e => .refused e

/-! ### Command errors (60_exceptions.md R115 to R118) -/

/-- `raise CmdError(cause)`: ERR and CAUSE, "nothing else" (R115). It is raised only while ERR = 0. -/
def State.raiseCmdError (s : State) (c : Cause) : State := { s with ERR := true, CAUSE := c }

/-- What leaves the error state and the operation: S, TAG, DOUT, the authentication flags, ERR and CAUSE are cleared
(45_facade.md R103); PHASE follows by admission. K, N, RT and DIN are kept. -/
def State.abandon (s : State) : State :=
  { s with
    S := .zero
    TAG := .zero
    DOUT := 0
    AUTH_VALID := false
    AUTH_OK := false
    ERR := false
    CAUSE := .none }

/-- The command runs while ERR = 1: only ABORT does (R117). -/
def runsInError (i : Instr) : Bool := i == .abort

/-- The issue checks of a decoded command have all passed: ERR, operand range, phase (30_encoding.md R65). -/
def State.accepts (s : State) (i : Instr) : Bool :=
  (!s.ERR || runsInError i) && i.argInRange && admitted i s.PHASE

/-- A decoded command as one transition: the checks of R65 in their order (R118), then its effect, then its next PHASE
(R63). A command ignored while ERR = 1 changes nothing (R117). -/
def issueChecked (i : Instr) (effect : State → State) (s : State) : Result :=
  if s.ERR && !runsInError i then .next s
  else if !i.argInRange then .next (s.raiseCmdError .badArg)
  else if !admitted i s.PHASE then .next (s.raiseCmdError .sequence)
  else .next { effect s with PHASE := nextPhase i s.PHASE }

/-! ### Data -/

/-- DIN as a command reads it: the value latched at issue while the command is in flight (10_state.md R37), the
register otherwise. -/
def State.dinRead (s : State) : Word :=
  match s.inFlight with
  | some f => f.din
  | none => s.DIN

/-- A command that goes busy is issued: the engine holds the command and DIN, and BUSY is 1 (10_state.md R37,
30_encoding.md R65). Nothing else changes. -/
def State.start (s : State) (i : Instr) : State :=
  { s with inFlight := some ⟨i, s.DIN, Config.latency i⟩ }

/-! ### The register window (20_memory.md R39 to R45) -/

/-- The registers of the window (R40). -/
inductive Reg where
  | cmd
  | status
  | din
  | dout
  | key (i : Fin 6)
  | nonce (i : Fin 3)
  | rtag (i : Fin 2)
  | tag (i : Fin 2)
  deriving DecidableEq, Repr

/-- The offset of a register (R40). -/
def Reg.offset : Reg → BitVec 8
  | .cmd => 0x00
  | .status => 0x04
  | .din => 0x08
  | .dout => 0x0C
  | .key i => 0x10 + BitVec.ofNat 8 (4 * i.val)
  | .nonce i => 0x28 + BitVec.ofNat 8 (4 * i.val)
  | .rtag i => 0x34 + BitVec.ofNat 8 (4 * i.val)
  | .tag i => 0x3C + BitVec.ofNat 8 (4 * i.val)

/-- The register at an offset: none at a misaligned offset (R42) or at 0x44 to 0xFC (R43). -/
def regAt (off : BitVec 8) : Option Reg :=
  match off.toNat with
  | 0x00 => some .cmd
  | 0x04 => some .status
  | 0x08 => some .din
  | 0x0C => some .dout
  | 0x10 => some (.key 0)
  | 0x14 => some (.key 1)
  | 0x18 => some (.key 2)
  | 0x1C => some (.key 3)
  | 0x20 => some (.key 4)
  | 0x24 => some (.key 5)
  | 0x28 => some (.nonce 0)
  | 0x2C => some (.nonce 1)
  | 0x30 => some (.nonce 2)
  | 0x34 => some (.rtag 0)
  | 0x38 => some (.rtag 1)
  | 0x3C => some (.tag 0)
  | 0x40 => some (.tag 1)
  | _ => none

/-- The register an access reaches: it must move exactly 32 bits (R41), aligned and mapped (R42, R43). -/
def Access.reg (a : Access) : Option Reg := if a.size = 4 then regAt a.off else none

/-- The bus address of an access: `TJ_BASE + off` (R39). -/
def Access.addr (a : Access) : Nat := Config.tjBase + a.off.toNat

/-- What a read of a register returns. A W register reads 0 (R40, R44), so the key cannot be read back. -/
def State.readReg (s : State) : Reg → Word
  | .cmd => 0
  | .status => s.status
  | .din => s.DIN
  | .dout => s.DOUT
  | .key _ => 0
  | .nonce i => s.N.get i
  | .rtag i => s.RT.get i
  | .tag i => s.TAG.get i

/-- What a write does to its own register, whatever ERR holds (R45). A write to an R register is ignored (R44); CMD has
no storage (R40), and what its write issues is the port's. -/
def State.writeReg (s : State) (r : Reg) (v : Word) : State :=
  match r with
  | .cmd => s
  | .status => s
  | .din => { s with DIN := v }
  | .dout => s
  | .key i => { s with K := s.K.set i v }
  | .nonce i => { s with N := s.N.set i v }
  | .rtag i => { s with RT := s.RT.set i v }
  | .tag _ => s

/-- The port answers an access. -/
def State.answer (s : State) (a : Answer) : State := { s with answers := s.answers ++ [a] }

/-! ### Reset (70_reset_and_hazards.md R131, R132) -/

/-- What the host gets for the access that is held when reset arrives: for a read any value, for a write nothing that
says whether it was performed (R132; log 7). -/
def State.releaseHeld (s : State) : State :=
  match s.held with
  | none => s
  | some a =>
    match a.op with
    | .read => { s with answers := s.answers ++ [.data (Config.freeRead s.freeReads)], freeReads := s.freeReads + 1 }
    | .write _ => s.answer .released

/-- Reset: every piece of the engine's state takes its reset value, the command in flight is abandoned and the held
access released (R131, R132). `rest` are the port events after it. -/
def State.applyReset (s : State) (rest : List PortEvent) : State :=
  { State.reset with
    port := rest
    answers := s.releaseHeld.answers
    freeReads := s.releaseHeld.freeReads }

end Sys2Proof.Machine
end

