-- ==== Sys2Proof/Machine/AdAbsorber.lean ====
section
/-! DEFINITION. Absorption of associated data (42_ad_absorber.md R86 to R90). -/

namespace Sys2Proof.Machine

/-- `for j in 0..r-1: w <- w ^ (zext_32(b[j]) << (8*j))`, the bytes counted from lane `j` (R86, R92). -/
def xorLanes : Nat → List Byte → Word → Word
  | _, [], w => w
  | j, b :: bs, w => xorLanes (j + 1) bs (w ^^^ (zextByte b <<< (8 * j)))

/-- `AbsorbAd(S, K, ad)` (R86): every full block, then the trailing 1 to 3 bytes; nothing for empty AD. -/
def absorbAd (K : KeyWords) (S : Block) : List Byte → Block
  | b0 :: b1 :: b2 :: b3 :: rest =>
    absorbAd K ((framedUpdate fbAD chunksShort K S).xorWord3 (le32 b0 b1 b2 b3)) rest
  | [] => S
  | tail =>
    let S := framedUpdate fbAD chunksShort K S
    { S with s1 := S.s1 ^^^ BitVec.ofNat 32 tail.length, s3 := xorLanes 0 tail S.s3 }

/-- ADW: frame bits AD, the short permutation, DIN into S[3]; PHASE stays AD (R88). -/
def execAdw (s : State) : Result :=
  issueChecked .adw (fun s => { s with S := (framedUpdate fbAD chunksShort s.K s.S).xorWord3 s.dinRead }) s

/-- ADP n: frame bits AD, the short permutation, the low n bytes of DIN into S[3], n into S[1]; PHASE to MSG (R89). -/
def execAdp (A : BitVec 4) (s : State) : Result :=
  issueChecked (.adp A)
    (fun s => { s with
      S := (framedUpdate fbAD chunksShort s.K s.S).xorTail (s.dinRead &&& laneMask A.toNat) (zextArg A) }) s

end Sys2Proof.Machine
end

