-- ==== Sys2Proof/Machine/Control.lean ====
section
/-! DEFINITION. The control commands NOP and ABORT (45_facade.md R102, R103). -/

namespace Sys2Proof.Machine

/-- NOP: no state changes (R102). -/
def execNop (s : State) : Result := issueChecked .nop id s

/-- ABORT: abandon the operation and clear the error state; PHASE to IDLE (R103). It also runs while ERR = 1 (R117). -/
def execAbort (s : State) : Result := issueChecked .abort State.abandon s

end Sys2Proof.Machine
end

