-- ==== Sys2Proof/Machine/Finalizer.lean ====
section
/-! DEFINITION. The tag and its verification (44_finalizer.md R99 to R101). -/

namespace Sys2Proof.Machine

/-- `Finalize(S, K)`: the tag words are S[2] after each pass (R99). -/
def finalize (K : KeyWords) (S : Block) : Block × TagWords :=
  let S1 := framedUpdate fbFIN chunksLong K S
  let S2 := framedUpdate fbFIN chunksShort K S1
  (S2, ⟨S1.s2, S2.s2⟩)

/-- FIN: S and TAG from `Finalize(S, K)`; PHASE to DONE (R100). -/
def execFin (s : State) : Result :=
  issueChecked .fin (fun s => { s with S := (finalize s.K s.S).1, TAG := (finalize s.K s.S).2 }) s

/-- `diff <- (TAG[0] ^ RT[0]) | (TAG[1] ^ RT[1])` (R101). -/
def tagDiff (a b : TagWords) : Word := (a.t0 ^^^ b.t0) ||| (a.t1 ^^^ b.t1)

/-- VERIFY: AUTH_OK says whether diff is zero, AUTH_VALID is set; PHASE stays DONE (R101). -/
def execVerify (s : State) : Result :=
  issueChecked .verify (fun s => { s with AUTH_OK := tagDiff s.TAG s.RT == 0, AUTH_VALID := true }) s

end Sys2Proof.Machine
end

