-- ==== Sys2Proof/Machine/Initializer.lean ====
section
/-! DEFINITION. Key loading and nonce introduction (41_initializer.md R84, R85). -/

namespace Sys2Proof.Machine

/-- One nonce word: frame bits IV, the short permutation, the word into S[3] (R84 step 3). -/
def introduceNonceWord (K : KeyWords) (S : Block) (n : Word) : Block :=
  (framedUpdate fbIV chunksShort K S).xorWord3 n

/-- `Initialize(K, N)` (R84). -/
def initializeState (K : KeyWords) (N : NonceWords) : Block :=
  introduceNonceWord K
    (introduceNonceWord K (introduceNonceWord K (stateUpdate .zero K chunksLong) N.n0) N.n1) N.n2

/-- INIT: S from K and N; TAG, DOUT and the authentication flags cleared; PHASE to AD (R85). -/
def execInit (s : State) : Result :=
  issueChecked .init
    (fun s => { s with
      S := initializeState s.K s.N
      TAG := .zero
      DOUT := 0
      AUTH_VALID := false
      AUTH_OK := false }) s

end Sys2Proof.Machine
end

