-- ==== Sys2Proof/Machine/Message.lean ====
section
/-! DEFINITION. Encryption and decryption of the message (43_message.md R91 to R98). The keystream byte of trailing byte
j is byte j of S[2] (R91, the spec's decision D6; log 11). -/

namespace Sys2Proof.Machine

/-- Byte j of each side xored, lane by lane: the trailing bytes against the low bytes of the keystream word (R91). -/
def xorKeystream : Nat → Word → List Byte → List Byte
  | _, _, [] => []
  | j, ks, b :: bs => (byteOf ks j ^^^ b) :: xorKeystream (j + 1) ks bs

/-- `EncryptBlocks(S, K, m)` (R92). -/
def encryptBlocks (K : KeyWords) (S : Block) : List Byte → Block × List Byte
  | b0 :: b1 :: b2 :: b3 :: rest =>
    let S := framedUpdate fbPC chunksLong K S
    let p := le32 b0 b1 b2 b3
    let r := encryptBlocks K (S.xorWord3 p) rest
    (r.1, unle32 (S.s2 ^^^ p) ++ r.2)
  | [] => (S, [])
  | tail =>
    let S := framedUpdate fbPC chunksLong K S
    let c := xorKeystream 0 S.s2 tail
    ({ S with s1 := S.s1 ^^^ BitVec.ofNat 32 tail.length, s3 := xorLanes 0 tail S.s3 }, c)

/-- `DecryptBlocks(S, K, c)` (R93): what is folded into S[3] is the recovered plaintext. -/
def decryptBlocks (K : KeyWords) (S : Block) : List Byte → Block × List Byte
  | b0 :: b1 :: b2 :: b3 :: rest =>
    let S := framedUpdate fbPC chunksLong K S
    let p := S.s2 ^^^ le32 b0 b1 b2 b3
    let r := decryptBlocks K (S.xorWord3 p) rest
    (r.1, unle32 p ++ r.2)
  | [] => (S, [])
  | tail =>
    let S := framedUpdate fbPC chunksLong K S
    let m := xorKeystream 0 S.s2 tail
    ({ S with s1 := S.s1 ^^^ BitVec.ofNat 32 tail.length, s3 := xorLanes 0 m S.s3 }, m)

/-- ENCW: `S[3] <- S[3] ^ DIN`, `DOUT <- S[2] ^ DIN` after the update; PHASE to MSG (R94). -/
def execEncw (s : State) : Result :=
  issueChecked .encw
    (fun s =>
      let S := framedUpdate fbPC chunksLong s.K s.S
      { s with S := S.xorWord3 s.dinRead, DOUT := S.s2 ^^^ s.dinRead }) s

/-- ENCP n: the low n lanes of DIN, the other lanes of DOUT zero, n into S[1]; PHASE to MSGEND (R95). -/
def execEncp (A : BitVec 4) (s : State) : Result :=
  issueChecked (.encp A)
    (fun s =>
      let S := framedUpdate fbPC chunksLong s.K s.S
      let P := s.dinRead &&& laneMask A.toNat
      { s with
        S := S.xorTail P (zextArg A)
        DOUT := (S.s2 ^^^ P) &&& laneMask A.toNat }) s

/-- DECW: `P <- S[2] ^ DIN` after the update, P into S[3] and DOUT; PHASE to MSG (R96). -/
def execDecw (s : State) : Result :=
  issueChecked .decw
    (fun s =>
      let S := framedUpdate fbPC chunksLong s.K s.S
      let P := S.s2 ^^^ s.dinRead
      { s with S := S.xorWord3 P, DOUT := P }) s

/-- DECP n: `P <- (S[2] ^ DIN) & mask(A)`, P into S[3] and DOUT, n into S[1]; PHASE to MSGEND (R97). -/
def execDecp (A : BitVec 4) (s : State) : Result :=
  issueChecked (.decp A)
    (fun s =>
      let S := framedUpdate fbPC chunksLong s.K s.S
      let P := (S.s2 ^^^ s.dinRead) &&& laneMask A.toNat
      { s with S := S.xorTail P (zextArg A), DOUT := P }) s

end Sys2Proof.Machine
end

