-- ==== Sys2Proof/Machine/Primitives.lean ====
section
/-! DEFINITION. The engine primitives (40_permutation.md R76 to R82). Each is admitted in every phase and leaves PHASE
unchanged. -/

namespace Sys2Proof.Machine

/-- ZERO: `S[i] <- 0` for i in 0..3 (R76). -/
def execZero (s : State) : Result := issueChecked .zero (fun s => { s with S := .zero }) s

/-- PERM C: `S <- StateUpdate(S, K, C)` (R77). -/
def execPerm (C : BitVec 8) (s : State) : Result :=
  issueChecked (.perm C) (fun s => { s with S := stateUpdate s.S s.K C.toNat }) s

/-- FRAME f: `S[1] <- S[1] ^ ((2*A + 1) << 4)` (R78). -/
def execFrame (A : BitVec 4) (s : State) : Result :=
  issueChecked (.frame A) (fun s => { s with S := s.S.xorWord1 (frameConst A) }) s

/-- XLEN n: `S[1] <- S[1] ^ zext_32(A)` (R79). -/
def execXlen (A : BitVec 4) (s : State) : Result :=
  issueChecked (.xlen A) (fun s => { s with S := s.S.xorWord1 (zextArg A) }) s

/-- XW: `S[3] <- S[3] ^ DIN` (R80). -/
def execXw (s : State) : Result := issueChecked .xw (fun s => { s with S := s.S.xorWord3 s.dinRead }) s

/-- XB n: `S[3] <- S[3] ^ (DIN & mask(A))` (R81). -/
def execXb (A : BitVec 4) (s : State) : Result :=
  issueChecked (.xb A) (fun s => { s with S := s.S.xorWord3 (s.dinRead &&& laneMask A.toNat) }) s

/-- RDS i: `DOUT <- S[A]` (R82). -/
def execRds (A : BitVec 4) (s : State) : Result :=
  issueChecked (.rds A) (fun s => { s with DOUT := s.S.get (wordIndex A) }) s

end Sys2Proof.Machine
end

