-- ==== Sys2Proof/Machine/Dispatch.lean ====
section
/-! DEFINITION. One arm per command: a decoded command as one atomic transition, from the issue checks to the next PHASE
(30_encoding.md R65, 70_reset_and_hazards.md R138; log 8). -/

namespace Sys2Proof.Machine

/-- The meaning of a decoded command. -/
def exec (i : Instr) (s : State) : Host.Outcome State Fault Refusal :=
  match i with
  -- control (45_facade.md)
  | .nop => Sys2Proof.Machine.execNop s
  | .abort => Sys2Proof.Machine.execAbort s
  -- primitives (40_permutation.md)
  | .zero => Sys2Proof.Machine.execZero s
  | .perm C => Sys2Proof.Machine.execPerm C s
  | .frame A => Sys2Proof.Machine.execFrame A s
  | .xlen A => Sys2Proof.Machine.execXlen A s
  | .xw => Sys2Proof.Machine.execXw s
  | .xb A => Sys2Proof.Machine.execXb A s
  | .rds A => Sys2Proof.Machine.execRds A s
  -- sequencer (41_initializer.md to 44_finalizer.md)
  | .init => Sys2Proof.Machine.execInit s
  | .adw => Sys2Proof.Machine.execAdw s
  | .adp A => Sys2Proof.Machine.execAdp A s
  | .encw => Sys2Proof.Machine.execEncw s
  | .encp A => Sys2Proof.Machine.execEncp A s
  | .decw => Sys2Proof.Machine.execDecw s
  | .decp A => Sys2Proof.Machine.execDecp A s
  | .fin => Sys2Proof.Machine.execFin s
  | .verify => Sys2Proof.Machine.execVerify s

end Sys2Proof.Machine
end

