-- ==== Sys2Proof/Machine/Port.lean ====
section
/-! DEFINITION. The host port and the engine's cycle: issue of a command word (30_encoding.md R65), performing an access
(20_memory.md R41 to R47), holds and completion (70_reset_and_hazards.md R135 to R137), reset (R131, R132).
One cycle is one step (log 1). -/

namespace Sys2Proof.Machine

/-- Issue of a word written to CMD while BUSY = 0 (R65). An accepted command that goes busy is only started: its effect
comes at completion. Every other decoded command is done, or rejected, at once. -/
def issue (w : Word) (s : State) : Result :=
  match decode w with
  | .illegal => .next (if s.ERR then s else s.raiseCmdError .illegalCommand)
  | .badArg i => exec i s
  | .cmd i => if s.accepts i && goesBusy i then .next (s.start i) else exec i s

/-- Completion: the command's whole effect and its PHASE update land, and BUSY falls, in one step (R65, R135). -/
def complete (f : InFlight) (s : State) : Result :=
  andThen (exec f.cmd s) (fun t => .next { t with inFlight := none })

/-- One cycle of the command in flight (R135). -/
def runInFlight (f : InFlight) (s : State) : Result :=
  if f.remaining ≤ 1 then complete f s
  else .next { s with inFlight := some { f with remaining := f.remaining - 1 } }

/-- An access to a register is performed and answered (R40, R44, R45): a read returns the register's value, a write
changes its own register, and a write to CMD issues the word. -/
def performOn (r : Reg) (op : AccessOp) (s : State) : Result :=
  match op with
  | .read => .next (s.answer (.data (s.readReg r)))
  | .write v =>
    match r with
    | .cmd => andThen (issue v s) (fun t => .next (t.answer .done))
    | _ => .next ((s.writeReg r v).answer .done)

/-- An access is performed while BUSY = 0; one of a wrong size, misaligned or unmapped is a BusError (R119, R130). -/
def perform (a : Access) (s : State) : Result :=
  match a.reg with
  | none => .fault (.busError a.addr)
  | some r => performOn r a.op s

/-- A read of STATUS: "the only access answered at once" while BUSY = 1 (20_memory.md R47). -/
def isStatusRead (r : Reg) (op : AccessOp) : Bool := r == .status && op == .read

/-- An access is presented while BUSY = 1: a BusError and a STATUS read are answered at once, anything else is held
(R47, R136, R137). -/
def presentBusy (a : Access) (s : State) : Result :=
  match a.reg with
  | none => .fault (.busError a.addr)
  | some r => if isStatusRead r a.op then performOn r a.op s else .next { s with held := some a }

/-- The host's side of a cycle while BUSY = 1: one access at a time, so while one is held no other is presented
(20_memory.md R54). -/
def hostWhileBusy (s : State) : Result :=
  match s.port with
  | .cycle :: rest => .next { s with port := rest }
  | .access a :: rest => if s.held.isSome then .next s else presentBusy a { s with port := rest }
  | _ => .next s

/-- The host's side of a cycle while BUSY = 0: the held access first, then what comes next at the port. With nothing to
do the engine waits (R133). -/
def hostWhileIdle (s : State) : Result :=
  match s.held with
  | some a => perform a { s with held := none }
  | none =>
    match s.port with
    | .access a :: rest => perform a { s with port := rest }
    | .cycle :: rest => .next { s with port := rest }
    | _ => .next s

/-- One cycle of the machine. The reset input acts whatever is in flight or held (R131, R132). While BUSY = 1 the host's
side comes before the engine's, so a STATUS read in the last cycle of a command still sees BUSY = 1 (log 1). -/
def engineCycle (s : State) : Result :=
  match s.port with
  | .reset :: rest => .next (s.applyReset rest)
  | _ =>
    match s.inFlight with
    | some f => andThen (hostWhileBusy s) (runInFlight f)
    | none => hostWhileIdle s

/-- The access by which the host writes a word to CMD. -/
def cmdWrite (w : Word) : Access := ⟨Reg.cmd.offset, 4, .write w⟩

/-- The host is about to write `w` to CMD: nothing is in flight or held, and that write is the next port event (log 2). -/
def State.withCommand (s : State) (w : Word) : State :=
  { s with inFlight := none, held := none, port := .access (cmdWrite w) :: s.port }

end Sys2Proof.Machine
end

