-- ==== Sys2Proof/Machine/Step.lean ====
section
/-! DEFINITION. The step of the machine: one cycle of the engine and its host port (log 1). -/

namespace Sys2Proof.Machine

/-- One step is one cycle. -/
def step (s : State) : Host.Outcome State Fault Refusal := engineCycle s

/-- The state in which the very next step issues the command word `w`: this hardware fetches nothing, it executes the
words the host writes to CMD (10_state.md R34; log 2). -/
def State.withFetchWord (s : State) (nbits w : Nat) : State := s.withCommand (tableWord nbits w)

end Sys2Proof.Machine
end

