-- ==== Sys2Proof/Machine/Assembler.lean ====
section
/-! DEFINITION. The command syntax (30_encoding.md R66): a mnemonic with its operand, as a command word. The machine does
not use it: a host writes words. -/

namespace Sys2Proof

/-- The mnemonic of a command (R60). -/
def Instr.mnemonic : Instr → String
  | .nop => "NOP"
  | .abort => "ABORT"
  | .zero => "ZERO"
  | .perm _ => "PERM"
  | .frame _ => "FRAME"
  | .xlen _ => "XLEN"
  | .xw => "XW"
  | .xb _ => "XB"
  | .rds _ => "RDS"
  | .init => "INIT"
  | .adw => "ADW"
  | .adp _ => "ADP"
  | .encw => "ENCW"
  | .encp _ => "ENCP"
  | .decw => "DECW"
  | .decp _ => "DECP"
  | .fin => "FIN"
  | .verify => "VERIFY"

/-- An operand as it is written: a decimal number, or the name of a frame selector (R66). -/
inductive OperandText where
  | number (n : Nat)
  | iv
  | ad
  | pc
  | fin
  deriving DecidableEq, Repr

/-- A 4-bit operand; a number that does not fit is an error, "never silently wrapped" (R66). -/
def numberA (n : Nat) : Option (BitVec 4) := if n ≤ 15 then some (BitVec.ofNat 4 n) else none

/-- A chunk count (R66). -/
def numberC (n : Nat) : Option (BitVec 8) := if n ≤ 255 then some (BitVec.ofNat 8 n) else none

/-- The command that a mnemonic and its operand spell, before the range check. -/
def readLine (mnemonic : String) (operand : Option OperandText) : Option Instr :=
  match mnemonic, operand with
  | "NOP", none => some .nop
  | "ABORT", none => some .abort
  | "ZERO", none => some .zero
  | "PERM", some (.number n) => (numberC n).map .perm
  | "FRAME", some (.number n) => (numberA n).map .frame
  | "FRAME", some .iv => some (.frame 0)
  | "FRAME", some .ad => some (.frame 1)
  | "FRAME", some .pc => some (.frame 2)
  | "FRAME", some .fin => some (.frame 3)
  | "XLEN", some (.number n) => (numberA n).map .xlen
  | "XW", none => some .xw
  | "XB", some (.number n) => (numberA n).map .xb
  | "RDS", some (.number n) => (numberA n).map .rds
  | "INIT", none => some .init
  | "ADW", none => some .adw
  | "ADP", some (.number n) => (numberA n).map .adp
  | "ENCW", none => some .encw
  | "ENCP", some (.number n) => (numberA n).map .encp
  | "DECW", none => some .decw
  | "DECP", some (.number n) => (numberA n).map .decp
  | "FIN", none => some .fin
  | "VERIFY", none => some .verify
  | _, _ => none

/-- The word of a command; none is an assembly error, "an operand outside its legal range" among them (R66). -/
def assemble (mnemonic : String) (operand : Option OperandText) : Option Word :=
  match readLine mnemonic operand with
  | some i => if i.wellFormed then some (encode i) else none
  | none => none

/-- A line: a command, or a word as it stands, which need not be one that a command spells (R66). -/
inductive SourceLine where
  | command (mnemonic : String) (operand : Option OperandText)
  | word (w : Word)
  deriving DecidableEq, Repr

/-- The word of a line (R66). -/
def assembleLine : SourceLine → Option Word
  | .command mnemonic operand => assemble mnemonic operand
  | .word w => some w

end Sys2Proof
end

