-- ==== Sys2Proof/Machine/Nlfsr.lean ====
section
/-! DEFINITION. The bit-level reading of the permutation (40_permutation.md R72) and of the state (10_state.md R18).
No command uses it: R72 is the cross-check of R70. -/

namespace Sys2Proof.Machine

/-- S as a 128-bit register: bit b is bit (b mod 32) of word S[b div 32] (R18). -/
def Block.register (S : Block) : BitVec 128 := S.s3 ++ S.s2 ++ S.s1 ++ S.s0

/-- S as a 16-byte buffer: byte 4i + j is byte(S[i], j) (R18). -/
def Block.bytes (S : Block) : List Byte := unle32 S.s0 ++ unle32 S.s1 ++ unle32 S.s2 ++ unle32 S.s3

/-- K as a 192-bit register, K[0] lowest: "key bit" of R72. -/
def KeyWords.register (K : KeyWords) : BitVec 192 := K.k5 ++ K.k4 ++ K.k3 ++ K.k2 ++ K.k1 ++ K.k0

/-- The bit a round shifts in: `s0 ^ s47 ^ ~(s70 & s85) ^ s91 ^ k` (R72). -/
def nlfsrFeedback (r : BitVec 128) (k : Bool) : Bool :=
  r.getLsbD 0 ^^ r.getLsbD 47 ^^ !(r.getLsbD 70 && r.getLsbD 85) ^^ r.getLsbD 91 ^^ k

/-- One round: the register moves down by one bit and the feedback comes in at the top (R72). -/
def nlfsrRound (r : BitVec 128) (k : Bool) : BitVec 128 :=
  BitVec.ofBool (nlfsrFeedback r k) ++ r.extractLsb' 1 127

/-- Rounds `i` to `i + n - 1` of a call: round i uses key bit (i mod 192) (R72). -/
def nlfsrRounds (K : KeyWords) : Nat → Nat → BitVec 128 → BitVec 128
  | _, 0, r => r
  | i, n + 1, r => nlfsrRounds K (i + 1) n (nlfsrRound r (K.register.getLsbD (i % 192)))

end Sys2Proof.Machine
end

