-- ==== Sys2Proof/Machine/Facade.lean ====
section
/-! DEFINITION. The AEAD reference functions the hardware is held to (45_facade.md R104 to R107), and the byte order of key
and nonce (20_memory.md R51). -/

namespace Sys2Proof.Machine

/-- A key of exactly 24 bytes (R109). -/
abbrev Key := Vector Byte 24
/-- A nonce of exactly 12 bytes (R109). -/
abbrev Nonce := Vector Byte 12

/-- `K[i] = LE32(key[4i..4i+4))` (R51). -/
def keyWords (key : Key) : KeyWords :=
  ⟨le32 key[0] key[1] key[2] key[3], le32 key[4] key[5] key[6] key[7],
   le32 key[8] key[9] key[10] key[11], le32 key[12] key[13] key[14] key[15],
   le32 key[16] key[17] key[18] key[19], le32 key[20] key[21] key[22] key[23]⟩

/-- `N[i] = LE32(nonce[4i..4i+4))` (R51). -/
def nonceWords (nonce : Nonce) : NonceWords :=
  ⟨le32 nonce[0] nonce[1] nonce[2] nonce[3], le32 nonce[4] nonce[5] nonce[6] nonce[7],
   le32 nonce[8] nonce[9] nonce[10] nonce[11]⟩

/-- The 8 bytes of a tag: `UNLE32(T0) ++ UNLE32(T1)` (R99, 10_state.md R25). -/
def tagBytes (T : TagWords) : List Byte := unle32 T.t0 ++ unle32 T.t1

/-- The two words of 8 tag bytes, as the host writes them to RTAG0 and RTAG1 (10_state.md R26). -/
def tagWords : List Byte → TagWords
  | [b0, b1, b2, b3, b4, b5, b6, b7] => ⟨le32 b0 b1 b2 b3, le32 b4 b5 b6 b7⟩
  | _ => .zero

/-- `AeadEncrypt(key, nonce, ad, m)`: ciphertext, then tag (R104). -/
def aeadEncrypt (key : Key) (nonce : Nonce) (ad m : List Byte) : List Byte :=
  let K := keyWords key
  let S := absorbAd K (initializeState K (nonceWords nonce)) ad
  let r := encryptBlocks K S m
  r.2 ++ tagBytes (finalize K r.1).2

/-- `TagEqual(x, y)`: equal byte by byte (R106). -/
def tagEqual (x y : List Byte) : Bool := x == y

/-- `AeadDecrypt(key, nonce, ad, c)`: none is AuthError, also for an input of fewer than 8 bytes (R105). -/
def aeadDecrypt (key : Key) (nonce : Nonce) (ad c : List Byte) : Option (List Byte) :=
  if c.length < 8 then none
  else
    let body := c.take (c.length - 8)
    let rtag := c.drop (c.length - 8)
    let K := keyWords key
    let S := absorbAd K (initializeState K (nonceWords nonce)) ad
    let r := decryptBlocks K S body
    if tagEqual (tagBytes (finalize K r.1).2) rtag then some r.2 else none

/-- A known-answer tuple (R107 (7)); the spec gives none (log 17). -/
structure Kat where
  key : Key
  nonce : Nonce
  ad : List Byte
  pt : List Byte
  output : List Byte

/-- The tuple agrees with the reference function (R107 (7)). -/
def Kat.conforms (k : Kat) : Bool := aeadEncrypt k.key k.nonce k.ad k.pt == k.output

end Sys2Proof.Machine
end

