-- ==== Sys2Proof/Machine/Procedure.lean ====
section
/-! DEFINITION. What the host does: accesses and pseudo-instructions (30_encoding.md R67), key preparation (45_facade.md
R109), the procedures for encryption and decryption (R110, R111), and a run whose commands are atomic (70_reset_and_hazards.md
R138). A procedure is the list of its accesses, and its result a function of what the port answered (log 18). -/

namespace Sys2Proof.Machine

/-- `wr REG, v` (R67). -/
def wr (r : Reg) (v : Word) : Access := ⟨r.offset, 4, .write v⟩
/-- `rd REG` (R67). -/
def rd (r : Reg) : Access := ⟨r.offset, 4, .read⟩
/-- `cmd M`: a write of M's word to CMD (R67). -/
def cmd (i : Instr) : Access := wr .cmd (encode i)

/-- `wait` whose loop reads STATUS n times (R67). -/
def waitPolls (n : Nat) : List Access := List.replicate n (rd .status)

/-- `ldkey key` (R67). -/
def ldkey (key : Key) : List Access :=
  [wr (.key 0) (keyWords key).k0, wr (.key 1) (keyWords key).k1, wr (.key 2) (keyWords key).k2,
   wr (.key 3) (keyWords key).k3, wr (.key 4) (keyWords key).k4, wr (.key 5) (keyWords key).k5]
/-- `ldnonce n` (R67). -/
def ldnonce (nonce : Nonce) : List Access :=
  [wr (.nonce 0) (nonceWords nonce).n0, wr (.nonce 1) (nonceWords nonce).n1, wr (.nonce 2) (nonceWords nonce).n2]
/-- `ldtag t` (R67). -/
def ldtag (t : List Byte) : List Access :=
  [wr (.rtag 0) (tagWords t).t0, wr (.rtag 1) (tagWords t).t1]

/-- A key string shorter than 24 bytes is zero-padded on the right, a longer one rejected (R109). -/
def padKey (k : List Byte) : Option Key :=
  if k.length ≤ 24 then some (Vector.ofFn fun i => k.getD i.val 0) else none

/-- The word whose low lanes hold the trailing bytes, the other lanes zero: `tail(x, r)` (R110, 20_memory.md R52). -/
def tailWord (tail : List Byte) : Word := le32 (tail.getD 0 0) (tail.getD 1 0) (tail.getD 2 0) (tail.getD 3 0)

/-- The length operand of a trailing partial block (R59). -/
def tailArg (tail : List Byte) : BitVec 4 := BitVec.ofNat 4 tail.length

/-- The accesses that absorb the associated data (42_ad_absorber.md R90, R110). -/
def adAccesses : List Byte → List Access
  | b0 :: b1 :: b2 :: b3 :: rest => wr .din (le32 b0 b1 b2 b3) :: cmd .adw :: adAccesses rest
  | [] => []
  | tail => [wr .din (tailWord tail), cmd (.adp (tailArg tail))]

/-- The accesses of a message phase: a full-block command for every word, a partial-block command for the tail, DOUT read
after each (43_message.md R98, R110, R111). -/
def blockAccesses (full : Instr) (part : BitVec 4 → Instr) : List Byte → List Access
  | b0 :: b1 :: b2 :: b3 :: rest =>
    wr .din (le32 b0 b1 b2 b3) :: cmd full :: rd .dout :: blockAccesses full part rest
  | [] => []
  | tail => [wr .din (tailWord tail), cmd (part (tailArg tail)), rd .dout]

/-- The accesses that encrypt a message (R110). -/
def encryptAccesses (m : List Byte) : List Access := blockAccesses .encw .encp m
/-- The accesses that decrypt a body (R111). -/
def decryptAccesses (c : List Byte) : List Access := blockAccesses .decw .decp c

/-- The host procedure for AeadEncrypt (R110). -/
def encryptProcedure (key : Key) (nonce : Nonce) (ad m : List Byte) : List Access :=
  ldkey key ++ ldnonce nonce ++ [cmd .init] ++ adAccesses ad ++ encryptAccesses m
    ++ [cmd .fin, rd (.tag 0), rd (.tag 1), rd .status]

/-- The ciphertext body of an input: all but its last 8 bytes (R105, R111). -/
def bodyOf (c : List Byte) : List Byte := c.take (c.length - 8)

/-- The received tag of an input: its last 8 bytes (R105, R111). -/
def receivedTag (c : List Byte) : List Byte := c.drop (c.length - 8)

/-- The host procedure for AeadDecrypt (R111). It fails at once, with no access, for an input of fewer than 8 bytes. -/
def decryptProcedure (key : Key) (nonce : Nonce) (ad c : List Byte) : List Access :=
  if c.length < 8 then []
  else
    ldkey key ++ ldnonce nonce ++ ldtag (receivedTag c) ++ [cmd .init] ++ adAccesses ad
      ++ decryptAccesses (bodyOf c) ++ [cmd .fin, cmd .verify, rd .status]

/-- The values the reads returned, in order. -/
def readValues : List Answer → List Word
  | [] => []
  | .data v :: rest => v :: readValues rest
  | _ :: rest => readValues rest

/-- The bytes the host keeps of the DOUT words it read, one word per block of `m`, the trailing bytes from lanes 0..r-1
of the last; and the words that are left (R98, R110). -/
def takeBlocks : List Byte → List Word → List Byte × List Word
  | _ :: _ :: _ :: _ :: rest, w :: ws => let r := takeBlocks rest ws; (unle32 w ++ r.1, r.2)
  | [], ws => ([], ws)
  | tail, w :: ws => ((unle32 w).take tail.length, ws)
  | _, [] => ([], [])

/-- `check`, and the `fail` of the procedures: STATUS bit 1 is ERR (R67, R110). -/
def errSeen (st : Word) : Bool := st.getLsbD 1

/-- What the encryption procedure returns: none is its `fail` (R110). -/
def encryptResult (m : List Byte) (answers : List Answer) : Option (List Byte) :=
  let r := takeBlocks m (readValues answers)
  match r.2 with
  | [t0, t1, st] => if errSeen st then none else some (r.1 ++ unle32 t0 ++ unle32 t1)
  | _ => none

/-- What the decryption procedure returns: none is its `fail`, for an input of fewer than 8 bytes, on an error and as
AuthenticationFailure (R111). -/
def decryptResult (c : List Byte) (answers : List Answer) : Option (List Byte) :=
  if c.length < 8 then none
  else
    let r := takeBlocks (bodyOf c) (readValues answers)
    match r.2 with
    | [st] => if errSeen st || !st.getLsbD 2 || !st.getLsbD 3 then none else some r.1
    | _ => none

/-! ### Atomic commands (R138) -/

/-- If a command is in flight it completes now. -/
def settle (s : State) : Result :=
  match s.inFlight with
  | some f => complete f s
  | none => .next s

/-- An access performed with its command, if it issues one, as one atomic transition (R138). -/
def transact (a : Access) (s : State) : Result := andThen (perform a s) settle

/-- The accesses of a host one after the other, each atomic (20_memory.md R54, R138). -/
def transactAll : List Access → State → Result
  | [], s => .next s
  | a :: rest, s => andThen (transact a s) (transactAll rest)

/-- Decoded commands one after the other, each atomic (20_memory.md R54, R138). -/
def execAll : List Instr → State → Result
  | [], s => .next s
  | i :: rest, s => andThen (exec i s) (execAll rest)

/-! ### Accesses at the port -/

/-- The access an event presents. -/
def PortEvent.access? : PortEvent → Option Access
  | .access a => some a
  | .cycle => none
  | .reset => none

/-- The events present exactly these accesses in this order, with cycles in between as the host likes, and no reset. -/
def Presents (es : List PortEvent) (as : List Access) : Prop :=
  PortEvent.reset ∉ es ∧ es.filterMap PortEvent.access? = as

/-- The access is a read of STATUS. -/
def Access.readsStatus (a : Access) : Bool := a.reg == some .status && a.op == .read

/-- An answer `x` of the cycle-by-cycle machine stands for the answer `y` of the machine with atomic commands: they are
equal, or `x` is a STATUS word read while BUSY = 1 (R137, R138; log 12). -/
def AnswerMatches (a : Access) (x y : Answer) : Prop :=
  x = y ∨ (a.readsStatus = true ∧ ∃ v, x = .data v ∧ v.getLsbD 0 = true)

/-- `AnswerMatches`, access by access. -/
def AnswersMatch : List Access → List Answer → List Answer → Prop
  | [], [], [] => True
  | a :: as, x :: xs, y :: ys => AnswerMatches a x y ∧ AnswersMatch as xs ys
  | _, _, _ => False

end Sys2Proof.Machine
end

