-- ==== Sys2Proof/Safety.lean ====
section
/-! DEFINITION. What counts as a safe run (45_facade.md R113, R114), and the invariant of the machine. -/

namespace Sys2Proof.Machine

/-- The host's run is over: its last access has been performed and BUSY = 0 (R114). -/
def State.atRest (s : State) : Bool := s.port.isEmpty && s.held.isNone && !s.BUSY

/-- What a run gives: what the procedure returned, read off the answers of the port, together with the engine's state; none
while the run has not ended (R114). A run starts with no answer given. -/
def runResult (returned : List Answer → Option (List Byte)) : Result → Option (Option (List Byte) × State)
  | .next t => if t.atRest then some (returned t.answers, t) else none
  | .fault _ => none
  | .refused _ => none

/-- The run is faulty: an access got BusError, or ERR = 1 at its end, or the procedure took its `fail` branch, which is what
`returned` answering none is (R114). -/
def faultyRun (returned : List Answer → Option (List Byte)) : Result → Bool
  | .next t => t.ERR || (returned t.answers).isNone
  | .fault (.busError _) => true
  | .refused _ => true

/-- A run that has ended and is not faulty (R114). -/
def soundRun (returned : List Answer → Option (List Byte)) (r : Result) : Bool :=
  (runResult returned r).isSome && !faultyRun returned r

/-- The host may release decryption output: AUTH_VALID = 1, AUTH_OK = 1 and ERR = 0 (R113). -/
def State.releaseAllowed (s : State) : Bool := s.AUTH_VALID && s.AUTH_OK && !s.ERR

/-- What holds of the machine from reset on.
* CAUSE is NONE exactly while ERR = 0 (60_exceptions.md R116).
* AUTH_OK = 0 while AUTH_VALID = 0 (93_implementation_defined.md U8).
* Outside DONE there is no tag and no verdict: only FIN writes a tag and only VERIFY a verdict, both in DONE, and what
  leaves DONE clears them (10_state.md R25, R32; 30_encoding.md R63).
* The command in flight was accepted, goes busy, has a legal operand and is admitted in the PHASE of its issue, and its
  latched DIN is still the register's (10_state.md R37); its countdown is within LAT (70_reset_and_hazards.md R135).
* A held access is one that is not answered at once (70_reset_and_hazards.md R136). -/
structure State.Invariant (s : State) : Prop where
  errCause : s.ERR = (s.CAUSE != .none)
  authOk : s.AUTH_OK = true → s.AUTH_VALID = true
  beforeDone : s.PHASE ≠ .done → s.TAG = .zero ∧ s.AUTH_VALID = false
  flight : ∀ f, s.inFlight = some f →
    s.ERR = false ∧ goesBusy f.cmd = true ∧ f.cmd.wellFormed = true ∧ admitted f.cmd s.PHASE = true
      ∧ f.din = s.DIN ∧ 1 ≤ f.remaining ∧ f.remaining ≤ Config.latency f.cmd
  heldAccess : ∀ a, s.held = some a → ∃ r, a.reg = some r ∧ isStatusRead r a.op = false

end Sys2Proof.Machine
end

