-- ==== Sys2Proof/Certificates/Slice0/Obligations.lean ====
section
/-! DEFINITION. The statements for the provers. Each docstring names the rule of spec/ it formalises. -/

open Sys2Proof Sys2Proof.Machine

/-! ### How a rule says which words are a command's -/

/-- No-operand form: the word is the command's, and every other word with its OP is illegal (R60, R61). -/
def Sys2Proof.Spec.NoOperandForm (w : Word) (i : Instr) : Prop :=
  decode w = .cmd i ∧ ∀ v : Word, v.extractLsb' 0 8 = w.extractLsb' 0 8 → v ≠ w → decode v = .illegal

/-- A form: of the words with the OP of `w`, those with a bit outside 11:0 set are illegal, the others are the command
with A = v[11:8], a BAD_ARG where A is out of range (R60, R61, R62). -/
def Sys2Proof.Spec.AForm (w : Word) (i : BitVec 4 → Instr) (legal : BitVec 4 → Prop) : Prop :=
  ∀ v : Word, v.extractLsb' 0 8 = w.extractLsb' 0 8 →
    (v.extractLsb' 12 20 ≠ 0 → decode v = .illegal) ∧
    (v.extractLsb' 12 20 = 0 → legal (v.extractLsb' 8 4) → decode v = .cmd (i (v.extractLsb' 8 4))) ∧
    (v.extractLsb' 12 20 = 0 → ¬ legal (v.extractLsb' 8 4) → decode v = .badArg (i (v.extractLsb' 8 4)))

/-- The range 0..3 of R59. -/
def Sys2Proof.Spec.upTo3 (A : BitVec 4) : Prop := A = 0 ∨ A = 1 ∨ A = 2 ∨ A = 3
/-- The range 1..3 of R59. -/
def Sys2Proof.Spec.oneTo3 (A : BitVec 4) : Prop := A = 1 ∨ A = 2 ∨ A = 3

/-- While ERR = 1 the command is ignored (R117). -/
def Sys2Proof.Spec.IgnoredInError (i : Instr) : Prop := ∀ s : State, s.ERR = true → exec i s = .next s

/-- With ERR = 0 the command is rejected with the cause: ERR and CAUSE change, nothing else (R115). -/
def Sys2Proof.Spec.Rejected (i : Instr) (c : Cause) (s : State) : Prop :=
  s.ERR = false → exec i s = .next { s with ERR := true, CAUSE := c }

/-- A mnemonic without an operand: it assembles to that word, and with any operand it is an error (R66). -/
def Sys2Proof.Spec.SpellsAlone (m : String) (w : Word) : Prop :=
  assemble m none = some w ∧ ∀ o, assemble m (some o) = none

/-- A mnemonic with a number: numbers in the range of R59 stand in the operand field that begins at bit `place`, every other
number and a missing operand are errors (R66). -/
def Sys2Proof.Spec.SpellsNumber (m : String) (op : Word) (low high place : Nat) : Prop :=
  assemble m none = none ∧ ∀ n, assemble m (some (.number n)) =
    if low ≤ n ∧ n ≤ high then some (op ||| (BitVec.ofNat 32 n <<< place)) else none

open Sys2Proof.Spec

/-! ### Reset and the invariant -/

/-- R131, R132: the reset input sets every register to its reset value from any state, whatever is in flight or held;
STATUS then reads 0; a held access is released, a held read with some value, a held write without one. -/
def Obligations.ResetInputResetsEveryState : Prop :=
  (∀ s : State, ∀ rest, s.port = .reset :: rest → ∃ t, step s = .next t ∧
    t.S = ⟨0, 0, 0, 0⟩ ∧ t.K = ⟨0, 0, 0, 0, 0, 0⟩ ∧ t.N = ⟨0, 0, 0⟩ ∧ t.RT = ⟨0, 0⟩ ∧ t.TAG = ⟨0, 0⟩ ∧
    t.DIN = 0 ∧ t.DOUT = 0 ∧ t.PHASE = .idle ∧ t.BUSY = false ∧ t.ERR = false ∧ t.CAUSE = .none ∧
    t.AUTH_VALID = false ∧ t.AUTH_OK = false ∧ t.inFlight = none ∧ t.held = none ∧ t.port = rest ∧ t.status = 0 ∧
    (s.held = none → t.answers = s.answers) ∧
    (∀ a, s.held = some a → a.op = .read → ∃ v, t.answers = s.answers ++ [.data v]) ∧
    (∀ a v, s.held = some a → a.op = .write v → t.answers = s.answers ++ [.released])) ∧
  (State.reset.S = ⟨0, 0, 0, 0⟩ ∧ State.reset.K = ⟨0, 0, 0, 0, 0, 0⟩ ∧ State.reset.N = ⟨0, 0, 0⟩ ∧
    State.reset.RT = ⟨0, 0⟩ ∧ State.reset.TAG = ⟨0, 0⟩ ∧ State.reset.DIN = 0 ∧ State.reset.DOUT = 0 ∧
    State.reset.PHASE = .idle ∧ State.reset.BUSY = false ∧ State.reset.ERR = false ∧ State.reset.CAUSE = .none ∧
    State.reset.AUTH_VALID = false ∧ State.reset.AUTH_OK = false ∧ State.reset.inFlight = none ∧
    State.reset.status = 0)

/-- The state after reset meets the invariant (`State.Invariant`). -/
def Obligations.ResetMeetsInvariant : Prop := State.reset.Invariant

/-- Every step from a state that meets the invariant leads to one that does. -/
def Obligations.EveryStepKeepsInvariant : Prop :=
  ∀ s t : State, s.Invariant → step s = .next t → t.Invariant

/-! ### Encoding -/

/-- The decoder reads back every command's own word, at every operand value: a legal operand as the command, an illegal
one as its BAD_ARG. -/
def Obligations.DecodeReadsEveryEncodedCommand : Prop :=
  ∀ i : Instr, (i.wellFormed = true → decode (encode i) = .cmd i) ∧ (i.wellFormed = false → decode (encode i) = .badArg i)

/-- A word has one meaning: the command decoded from it encodes to that very word, and its operand is legal exactly when
the decoder does not object. -/
def Obligations.EncodeGivesBackTheDecodedWord : Prop :=
  ∀ (w : Word) (i : Instr), (decode w = .cmd i → encode i = w ∧ i.wellFormed = true) ∧
    (decode w = .badArg i → encode i = w ∧ i.wellFormed = false)

/-- R61: the illegal words are exactly those with an unassigned OP or with a nonzero bit outside the fields of the OP's
form, and with ERR = 0 an illegal word is rejected with ILLEGAL_COMMAND: none executes as a no-op. -/
def Obligations.IllegalWordsExactly : Prop :=
  ∀ w : Word,
    let op := (w.extractLsb' 0 8).toNat
    let unassigned := (0x02 ≤ op ∧ op ≤ 0x0F) ∨ (0x17 ≤ op ∧ op ≤ 0x1F) ∨ (0x29 ≤ op ∧ op ≤ 0xFF)
    let aForm := op ∈ [0x12, 0x13, 0x15, 0x16, 0x22, 0x24, 0x26]
    let cForm := op = 0x11
    let reservedSet := w.extractLsb' 24 8 ≠ 0 ∨ w.extractLsb' 12 4 ≠ 0 ∨ (¬ cForm ∧ w.extractLsb' 16 8 ≠ 0) ∨
      (¬ aForm ∧ w.extractLsb' 8 4 ≠ 0)
    (decode w = .illegal ↔ unassigned ∨ reservedSet) ∧
    (unassigned ∨ reservedSet → ∀ s : State, s.ERR = false →
      issue w s = .next { s with ERR := true, CAUSE := .illegalCommand })

/-- R68: the words of every mnemonic, and that the decoder reads them. A check of a few words written out. -/
def Obligations.CommandWordsAsListed : Prop :=
  (encode .nop = 0x00000000 ∧ encode .abort = 0x00000001 ∧ encode .zero = 0x00000010 ∧
    (∀ C, encode (.perm C) = 0x00000011 ||| (C.setWidth 32 <<< 16)) ∧
    encode (.perm 5) = 0x00050011 ∧ encode (.perm 9) = 0x00090011 ∧ encode (.perm 1) = 0x00010011 ∧
    encode (.frame 0) = 0x00000012 ∧ encode (.frame 1) = 0x00000112 ∧ encode (.frame 2) = 0x00000212 ∧
    encode (.frame 3) = 0x00000312 ∧ (∀ n, encode (.xlen n) = 0x00000013 ||| (n.setWidth 32 <<< 8)) ∧
    encode .xw = 0x00000014 ∧ (∀ n, encode (.xb n) = 0x00000015 ||| (n.setWidth 32 <<< 8)) ∧
    (∀ i, encode (.rds i) = 0x00000016 ||| (i.setWidth 32 <<< 8)) ∧ encode .init = 0x00000020 ∧
    encode .adw = 0x00000021 ∧ (∀ n, encode (.adp n) = 0x00000022 ||| (n.setWidth 32 <<< 8)) ∧
    encode .encw = 0x00000023 ∧ (∀ n, encode (.encp n) = 0x00000024 ||| (n.setWidth 32 <<< 8)) ∧
    encode .decw = 0x00000025 ∧ (∀ n, encode (.decp n) = 0x00000026 ||| (n.setWidth 32 <<< 8)) ∧
    encode .fin = 0x00000027 ∧ encode .verify = 0x00000028) ∧
  (decode 0x00090011 = .cmd (.perm 9) ∧ decode 0x00000312 = .cmd (.frame 3) ∧ decode 0x00000216 = .cmd (.rds 2) ∧
    decode 0x00000122 = .cmd (.adp 1) ∧ decode 0x00000024 = .badArg (.encp 0) ∧ decode 0x00000522 = .badArg (.adp 5) ∧
    decode 0x00001021 = .illegal ∧ decode 0x00000111 = .illegal ∧ decode 0x00000029 = .illegal)

/-- R66 with the ranges of R59, mnemonic by mnemonic: which operand each takes, the word it gives, and that every other
operand (a number out of range, 0 among them where the range begins at 1; any operand where none is taken; a missing one; a
frame name on another mnemonic than FRAME) is an error, as every other mnemonic is. So a written number is the operand
field of the word; a word assembled is a command with a legal operand, every such command can be written, and a word can
be written as it is. -/
def Obligations.AssemblerSpellsTheLegalCommands : Prop :=
  (SpellsAlone "NOP" 0x00 ∧ SpellsAlone "ABORT" 0x01 ∧ SpellsAlone "ZERO" 0x10 ∧ SpellsAlone "XW" 0x14 ∧
    SpellsAlone "INIT" 0x20 ∧ SpellsAlone "ADW" 0x21 ∧ SpellsAlone "ENCW" 0x23 ∧ SpellsAlone "DECW" 0x25 ∧
    SpellsAlone "FIN" 0x27 ∧ SpellsAlone "VERIFY" 0x28) ∧
  (SpellsNumber "PERM" 0x11 0 255 16 ∧ SpellsNumber "FRAME" 0x12 0 3 8 ∧ SpellsNumber "XLEN" 0x13 1 3 8 ∧
    SpellsNumber "XB" 0x15 1 3 8 ∧ SpellsNumber "RDS" 0x16 0 3 8 ∧ SpellsNumber "ADP" 0x22 1 3 8 ∧
    SpellsNumber "ENCP" 0x24 1 3 8 ∧ SpellsNumber "DECP" 0x26 1 3 8) ∧
  (assemble "FRAME" (some .iv) = some 0x012 ∧ assemble "FRAME" (some .ad) = some 0x112 ∧
    assemble "FRAME" (some .pc) = some 0x212 ∧ assemble "FRAME" (some .fin) = some 0x312) ∧
  (∀ m, m ≠ "FRAME" → assemble m (some .iv) = none ∧ assemble m (some .ad) = none ∧ assemble m (some .pc) = none ∧
    assemble m (some .fin) = none) ∧
  (∀ m o, m ∉ ["NOP", "ABORT", "ZERO", "PERM", "FRAME", "XLEN", "XW", "XB", "RDS", "INIT", "ADW", "ADP", "ENCW", "ENCP",
    "DECW", "DECP", "FIN", "VERIFY"] → assemble m o = none) ∧
  (∀ m n w, assemble m (some (.number n)) = some w →
    if m = "PERM" then (w.extractLsb' 16 8).toNat = n else (w.extractLsb' 8 4).toNat = n) ∧
  (∀ m o w, assemble m o = some w → ∃ i : Instr, decode w = .cmd i ∧ i.mnemonic = m ∧ i.wellFormed = true) ∧
  (∀ i : Instr, i.wellFormed = true → ∃ o, assemble i.mnemonic o = some (encode i)) ∧
  (∀ m o, assembleLine (.command m o) = assemble m o) ∧ (∀ w, assembleLine (.word w) = some w)

/-! ### Issue and command errors -/

/-- R65, R118: the issue procedure, its checks in their order. -/
def Obligations.IssueProcedure : Prop :=
  ∀ (w : Word) (s : State),
    (s.ERR = true → decode w = .cmd .abort → issue w s = exec .abort s) ∧
    (s.ERR = true → decode w ≠ .cmd .abort → issue w s = .next s) ∧
    (s.ERR = false → decode w = .illegal → issue w s = .next { s with ERR := true, CAUSE := .illegalCommand }) ∧
    (∀ i, s.ERR = false → decode w = .badArg i → issue w s = .next { s with ERR := true, CAUSE := .badArg }) ∧
    (∀ i, s.ERR = false → decode w = .cmd i → admitted i s.PHASE = false →
      issue w s = .next { s with ERR := true, CAUSE := .sequence }) ∧
    (∀ i, s.ERR = false → decode w = .cmd i → admitted i s.PHASE = true → goesBusy i = true →
      issue w s = .next { s with inFlight := some ⟨i, s.DIN, Config.latency i⟩ }) ∧
    (∀ i, s.ERR = false → decode w = .cmd i → admitted i s.PHASE = true → goesBusy i = false →
      issue w s = exec i s ∧ ∃ t, exec i s = .next t ∧ t.ERR = false ∧ t.PHASE = nextPhase i s.PHASE)

/-- R115, R116: whatever word is issued, when it raises an error only ERR and CAUSE change and the cause is 1, 2 or 3. -/
def Obligations.CommandErrorChangesOnlyErrAndCause : Prop :=
  ∀ (w : Word) (s t : State), s.ERR = false → issue w s = .next t → t.ERR = true →
    (t.CAUSE.code = 1 ∨ t.CAUSE.code = 2 ∨ t.CAUSE.code = 3) ∧ t = { s with ERR := true, CAUSE := t.CAUSE }

/-- R117: ERR is sticky. Every CMD write but the word 0x00000001 is ignored; that word clears it; the other register
writes and every read are performed as usual; and no step clears ERR but a performed CMD write of 0x00000001 or reset. -/
def Obligations.ErrorIsSticky : Prop :=
  (∀ (w : Word) (s : State), s.ERR = true → w ≠ 0x00000001 → issue w s = .next s) ∧
  (∀ s : State, s.ERR = true → ∃ t, issue 0x00000001 s = .next t ∧ t.ERR = false ∧ t.CAUSE = .none) ∧
  (∀ (r : Reg) (v : Word) (s : State), s.ERR = true → r ≠ .cmd →
    performOn r (.write v) s = .next ((s.writeReg r v).answer .done)) ∧
  (∀ (r : Reg) (s : State), s.ERR = true → performOn r .read s = .next (s.answer (.data (s.readReg r)))) ∧
  (∀ s t : State, s.Invariant → s.ERR = true → step s = .next t → t.ERR = false →
    (∃ rest, s.port = .reset :: rest) ∨
    (∃ a, (s.held = some a ∨ (s.held = none ∧ ∃ rest, s.port = .access a :: rest)) ∧
      a.reg = some .cmd ∧ a.op = .write 0x00000001))

/-- R63: the admission table and the next PHASE, written out. With ERR = 0 and a legal operand a command outside its
phases is rejected with SEQUENCE, and in them it runs and leaves the PHASE of the table. -/
def Obligations.AdmissionTable : Prop :=
  ∀ (i : Instr) (s : State), s.ERR = false → i.wellFormed = true →
    let inPhases : Prop := match i with
      | .adw | .adp _ => s.PHASE = .ad
      | .encw | .decw | .encp _ | .decp _ => s.PHASE = .ad ∨ s.PHASE = .msg
      | .fin => s.PHASE = .ad ∨ s.PHASE = .msg ∨ s.PHASE = .msgEnd
      | .verify => s.PHASE = .done
      | _ => True
    let next : Phase := match i with
      | .abort => .idle
      | .init | .adw => .ad
      | .adp _ | .encw | .decw => .msg
      | .encp _ | .decp _ => .msgEnd
      | .fin | .verify => .done
      | _ => s.PHASE
    (¬ inPhases → exec i s = .next { s with ERR := true, CAUSE := .sequence }) ∧
    (inPhases → ∃ t, exec i s = .next t ∧ t.PHASE = next ∧ t.ERR = false)

/-- R64: of the accepted commands exactly those listed go busy at issue; every other one is done within its CMD write and
leaves BUSY = 0. -/
def Obligations.GoBusySet : Prop :=
  ∀ (i : Instr) (s : State), s.ERR = false → s.inFlight = none → i.wellFormed = true → admitted i s.PHASE = true →
    let listed : Prop := (∃ C, i = .perm C ∧ 1 ≤ C.toNat) ∨ i = .init ∨ i = .adw ∨ (∃ A, i = .adp A) ∨ i = .encw ∨
      (∃ A, i = .encp A) ∨ i = .decw ∨ (∃ A, i = .decp A) ∨ i = .fin ∨ i = .verify
    ∃ t, issue (encode i) s = .next t ∧ (t.BUSY = true ↔ listed) ∧ (¬ listed → exec i s = .next t)

/-! ### The commands (their encoding, checks, effect and frame) -/

/-- R102: NOP changes nothing, in any state. -/
def Obligations.NopChangesNothing : Prop :=
  NoOperandForm 0x00000000 .nop ∧ goesBusy .nop = false ∧ ∀ s : State, exec .nop s = .next s

/-- R103: ABORT, in any state, also while ERR = 1. K, N, RT and DIN are kept. -/
def Obligations.AbortAbandonsAndClearsError : Prop :=
  NoOperandForm 0x00000001 .abort ∧ goesBusy .abort = false ∧
  ∀ s : State, exec .abort s = .next { s with
    S := ⟨0, 0, 0, 0⟩, TAG := ⟨0, 0⟩, DOUT := 0, AUTH_VALID := false, AUTH_OK := false, ERR := false, CAUSE := .none,
    PHASE := .idle }

/-- R76: ZERO. -/
def Obligations.ZeroClearsTheCipherState : Prop :=
  NoOperandForm 0x00000010 .zero ∧ goesBusy .zero = false ∧ IgnoredInError .zero ∧
  ∀ s : State, s.ERR = false → exec .zero s = .next { s with S := ⟨0, 0, 0, 0⟩ }

/-- R77: PERM C, for every C; C = 0 leaves S unchanged and does not go busy; bits 31:24 and 15:8 must be zero. -/
def Obligations.PermRunsChunks : Prop :=
  (∀ v : Word, v.extractLsb' 0 8 = 0x11 →
    ((v.extractLsb' 24 8 ≠ 0 ∨ v.extractLsb' 8 8 ≠ 0) → decode v = .illegal) ∧
    (v.extractLsb' 24 8 = 0 → v.extractLsb' 8 8 = 0 → decode v = .cmd (.perm (v.extractLsb' 16 8)))) ∧
  (∀ C, goesBusy (.perm C) = true ↔ 1 ≤ C.toNat) ∧ (∀ C, IgnoredInError (.perm C)) ∧
  (∀ (C : BitVec 8) (s : State), s.ERR = false → exec (.perm C) s = .next { s with S := stateUpdate s.S s.K C.toNat }) ∧
  (∀ s : State, s.ERR = false → exec (.perm 0) s = .next s)

/-- R78: FRAME f xors 0x10, 0x30, 0x50 or 0x70 into S[1]; two with the same f cancel. -/
def Obligations.FrameInjectsConstant : Prop :=
  AForm 0x00000012 .frame upTo3 ∧ (∀ A, goesBusy (.frame A) = false) ∧ (∀ A, IgnoredInError (.frame A)) ∧
  (∀ (A : BitVec 4) (s : State), ¬ upTo3 A → Rejected (.frame A) .badArg s) ∧
  (∀ s : State, s.ERR = false →
    exec (.frame 0) s = .next { s with S := { s.S with s1 := s.S.s1 ^^^ 0x10 } } ∧
    exec (.frame 1) s = .next { s with S := { s.S with s1 := s.S.s1 ^^^ 0x30 } } ∧
    exec (.frame 2) s = .next { s with S := { s.S with s1 := s.S.s1 ^^^ 0x50 } } ∧
    exec (.frame 3) s = .next { s with S := { s.S with s1 := s.S.s1 ^^^ 0x70 } }) ∧
  (∀ (A : BitVec 4) (s : State), s.ERR = false → upTo3 A → execAll [.frame A, .frame A] s = .next s)

/-- R79: XLEN n xors n into S[1]. -/
def Obligations.XlenInjectsLength : Prop :=
  AForm 0x00000013 .xlen oneTo3 ∧ (∀ A, goesBusy (.xlen A) = false) ∧ (∀ A, IgnoredInError (.xlen A)) ∧
  (∀ (A : BitVec 4) (s : State), ¬ oneTo3 A → Rejected (.xlen A) .badArg s) ∧
  (∀ s : State, s.ERR = false →
    exec (.xlen 1) s = .next { s with S := { s.S with s1 := s.S.s1 ^^^ 1 } } ∧
    exec (.xlen 2) s = .next { s with S := { s.S with s1 := s.S.s1 ^^^ 2 } } ∧
    exec (.xlen 3) s = .next { s with S := { s.S with s1 := s.S.s1 ^^^ 3 } })

/-- R80, R81: XW xors DIN into S[3]; XB n xors the low n bytes of DIN into the low n bytes of S[3]. `dinRead` is DIN as the
command reads it: the register, or the value latched at issue while the command is in flight (R37). -/
def Obligations.AbsorbIntoWord3 : Prop :=
  NoOperandForm 0x00000014 .xw ∧ AForm 0x00000015 .xb oneTo3 ∧ goesBusy .xw = false ∧ (∀ A, goesBusy (.xb A) = false) ∧
  IgnoredInError .xw ∧ (∀ A, IgnoredInError (.xb A)) ∧
  (∀ (A : BitVec 4) (s : State), ¬ oneTo3 A → Rejected (.xb A) .badArg s) ∧
  (∀ s : State, s.ERR = false →
    exec .xw s = .next { s with S := { s.S with s3 := s.S.s3 ^^^ s.dinRead } } ∧
    exec (.xb 1) s = .next { s with S := { s.S with s3 := s.S.s3 ^^^ (s.dinRead &&& 0x000000FF) } } ∧
    exec (.xb 2) s = .next { s with S := { s.S with s3 := s.S.s3 ^^^ (s.dinRead &&& 0x0000FFFF) } } ∧
    exec (.xb 3) s = .next { s with S := { s.S with s3 := s.S.s3 ^^^ (s.dinRead &&& 0x00FFFFFF) } }) ∧
  (∀ s : State, s.inFlight = none → s.dinRead = s.DIN)

/-- R82: RDS i copies S[i] to DOUT; S is unchanged. -/
def Obligations.RdsCopiesStateWord : Prop :=
  AForm 0x00000016 .rds upTo3 ∧ (∀ A, goesBusy (.rds A) = false) ∧ (∀ A, IgnoredInError (.rds A)) ∧
  (∀ (A : BitVec 4) (s : State), ¬ upTo3 A → Rejected (.rds A) .badArg s) ∧
  (∀ s : State, s.ERR = false →
    exec (.rds 0) s = .next { s with DOUT := s.S.s0 } ∧ exec (.rds 1) s = .next { s with DOUT := s.S.s1 } ∧
    exec (.rds 2) s = .next { s with DOUT := s.S.s2 } ∧ exec (.rds 3) s = .next { s with DOUT := s.S.s3 })

/-- R84, R85: INIT, in every phase: S by the steps of Initialize, TAG, DOUT and the authentication flags cleared, PHASE
to AD. -/
def Obligations.InitStartsAnOperation : Prop :=
  NoOperandForm 0x00000020 .init ∧ goesBusy .init = true ∧ IgnoredInError .init ∧
  ∀ s : State, s.ERR = false →
    let S0 := stateUpdate ⟨0, 0, 0, 0⟩ s.K 9
    let S1 := stateUpdate { S0 with s1 := S0.s1 ^^^ 0x10 } s.K 5
    let S1' : Block := { S1 with s3 := S1.s3 ^^^ s.N.n0 }
    let S2 := stateUpdate { S1' with s1 := S1'.s1 ^^^ 0x10 } s.K 5
    let S2' : Block := { S2 with s3 := S2.s3 ^^^ s.N.n1 }
    let S3 := stateUpdate { S2' with s1 := S2'.s1 ^^^ 0x10 } s.K 5
    exec .init s = .next { s with
      S := { S3 with s3 := S3.s3 ^^^ s.N.n2 }, TAG := ⟨0, 0⟩, DOUT := 0, AUTH_VALID := false, AUTH_OK := false,
      PHASE := .ad }

/-- R85 ("Nothing of the old operation's S survives"), R20: what INIT leaves of the operation's state is the same from
any two states that hold the same key and nonce. -/
def Obligations.InitForgetsTheOldOperation : Prop :=
  ∀ s s' : State, s.ERR = false → s'.ERR = false → s.K = s'.K → s.N = s'.N →
    ∃ t t', exec .init s = .next t ∧ exec .init s' = .next t' ∧ t.S = t'.S ∧ t.TAG = t'.TAG ∧ t.DOUT = t'.DOUT ∧
      t.PHASE = t'.PHASE ∧ t.AUTH_VALID = t'.AUTH_VALID ∧ t.AUTH_OK = t'.AUTH_OK

/-- R88: ADW. -/
def Obligations.AdwAbsorbsFullBlock : Prop :=
  NoOperandForm 0x00000021 .adw ∧ goesBusy .adw = true ∧ IgnoredInError .adw ∧
  (∀ s : State, s.PHASE ≠ .ad → Rejected .adw .sequence s) ∧
  ∀ s : State, s.ERR = false → s.PHASE = .ad →
    let S := stateUpdate { s.S with s1 := s.S.s1 ^^^ 0x30 } s.K 5
    exec .adw s = .next { s with S := { S with s3 := S.s3 ^^^ s.dinRead } }

/-- R89: ADP n. -/
def Obligations.AdpAbsorbsPartialBlock : Prop :=
  AForm 0x00000022 .adp oneTo3 ∧ (∀ A, goesBusy (.adp A) = true) ∧ (∀ A, IgnoredInError (.adp A)) ∧
  (∀ (A : BitVec 4) (s : State), ¬ oneTo3 A → Rejected (.adp A) .badArg s) ∧
  (∀ (A : BitVec 4) (s : State), oneTo3 A → s.PHASE ≠ .ad → Rejected (.adp A) .sequence s) ∧
  ∀ (A : BitVec 4) (s : State), s.ERR = false → oneTo3 A → s.PHASE = .ad →
    let S := stateUpdate { s.S with s1 := s.S.s1 ^^^ 0x30 } s.K 5
    exec (.adp A) s = .next { s with
      S := { S with s1 := S.s1 ^^^ A.setWidth 32, s3 := S.s3 ^^^ (s.dinRead &&& BitVec.ofNat 32 (2 ^ (8 * A.toNat) - 1)) }
      PHASE := .msg }

/-- R94: ENCW. -/
def Obligations.EncwEncryptsFullBlock : Prop :=
  NoOperandForm 0x00000023 .encw ∧ goesBusy .encw = true ∧ IgnoredInError .encw ∧
  (∀ s : State, s.PHASE ≠ .ad → s.PHASE ≠ .msg → Rejected .encw .sequence s) ∧
  ∀ s : State, s.ERR = false → s.PHASE = .ad ∨ s.PHASE = .msg →
    let S := stateUpdate { s.S with s1 := s.S.s1 ^^^ 0x50 } s.K 9
    exec .encw s = .next { s with
      S := { S with s3 := S.s3 ^^^ s.dinRead }, DOUT := S.s2 ^^^ s.dinRead, PHASE := .msg }

/-- R95: ENCP n. -/
def Obligations.EncpEncryptsPartialBlock : Prop :=
  AForm 0x00000024 .encp oneTo3 ∧ (∀ A, goesBusy (.encp A) = true) ∧ (∀ A, IgnoredInError (.encp A)) ∧
  (∀ (A : BitVec 4) (s : State), ¬ oneTo3 A → Rejected (.encp A) .badArg s) ∧
  (∀ (A : BitVec 4) (s : State), oneTo3 A → s.PHASE ≠ .ad → s.PHASE ≠ .msg → Rejected (.encp A) .sequence s) ∧
  ∀ (A : BitVec 4) (s : State), s.ERR = false → oneTo3 A → s.PHASE = .ad ∨ s.PHASE = .msg →
    let S := stateUpdate { s.S with s1 := s.S.s1 ^^^ 0x50 } s.K 9
    let mask := BitVec.ofNat 32 (2 ^ (8 * A.toNat) - 1)
    let P := s.dinRead &&& mask
    exec (.encp A) s = .next { s with
      S := { S with s1 := S.s1 ^^^ A.setWidth 32, s3 := S.s3 ^^^ P }, DOUT := (S.s2 ^^^ P) &&& mask, PHASE := .msgEnd }

/-- R96: DECW. -/
def Obligations.DecwDecryptsFullBlock : Prop :=
  NoOperandForm 0x00000025 .decw ∧ goesBusy .decw = true ∧ IgnoredInError .decw ∧
  (∀ s : State, s.PHASE ≠ .ad → s.PHASE ≠ .msg → Rejected .decw .sequence s) ∧
  ∀ s : State, s.ERR = false → s.PHASE = .ad ∨ s.PHASE = .msg →
    let S := stateUpdate { s.S with s1 := s.S.s1 ^^^ 0x50 } s.K 9
    let P := S.s2 ^^^ s.dinRead
    exec .decw s = .next { s with S := { S with s3 := S.s3 ^^^ P }, DOUT := P, PHASE := .msg }

/-- R97: DECP n. -/
def Obligations.DecpDecryptsPartialBlock : Prop :=
  AForm 0x00000026 .decp oneTo3 ∧ (∀ A, goesBusy (.decp A) = true) ∧ (∀ A, IgnoredInError (.decp A)) ∧
  (∀ (A : BitVec 4) (s : State), ¬ oneTo3 A → Rejected (.decp A) .badArg s) ∧
  (∀ (A : BitVec 4) (s : State), oneTo3 A → s.PHASE ≠ .ad → s.PHASE ≠ .msg → Rejected (.decp A) .sequence s) ∧
  ∀ (A : BitVec 4) (s : State), s.ERR = false → oneTo3 A → s.PHASE = .ad ∨ s.PHASE = .msg →
    let S := stateUpdate { s.S with s1 := s.S.s1 ^^^ 0x50 } s.K 9
    let P := (S.s2 ^^^ s.dinRead) &&& BitVec.ofNat 32 (2 ^ (8 * A.toNat) - 1)
    exec (.decp A) s = .next { s with
      S := { S with s1 := S.s1 ^^^ A.setWidth 32, s3 := S.s3 ^^^ P }, DOUT := P, PHASE := .msgEnd }

/-- R99, R100: FIN. The tag words are S[2] after each pass; DOUT is not written. -/
def Obligations.FinComputesTheTag : Prop :=
  NoOperandForm 0x00000027 .fin ∧ goesBusy .fin = true ∧ IgnoredInError .fin ∧
  (∀ s : State, s.PHASE = .idle ∨ s.PHASE = .done → Rejected .fin .sequence s) ∧
  ∀ s : State, s.ERR = false → s.PHASE = .ad ∨ s.PHASE = .msg ∨ s.PHASE = .msgEnd →
    let S1 := stateUpdate { s.S with s1 := s.S.s1 ^^^ 0x70 } s.K 9
    let S2 := stateUpdate { S1 with s1 := S1.s1 ^^^ 0x70 } s.K 5
    exec .fin s = .next { s with S := S2, TAG := ⟨S1.s2, S2.s2⟩, PHASE := .done }

/-- R101, R106, R120: VERIFY says whether all eight tag bytes are equal; a mismatch is a value, not an error. -/
def Obligations.VerifyComparesTheTags : Prop :=
  NoOperandForm 0x00000028 .verify ∧ goesBusy .verify = true ∧ IgnoredInError .verify ∧
  (∀ s : State, s.PHASE ≠ .done → Rejected .verify .sequence s) ∧
  (∀ s : State, s.ERR = false → s.PHASE = .done →
    exec .verify s = .next { s with AUTH_OK := decide (s.TAG = s.RT), AUTH_VALID := true }) ∧
  ∀ T R : TagWords, tagEqual (tagBytes T) (tagBytes R) = decide (T = R)

/-! ### The permutation -/

/-- R71: the four steps of a chunk, each reading what the earlier ones wrote, with key words K[j] to K[j+3 mod 6]. -/
def Obligations.ChunkIsFourSteps : Prop :=
  ∀ (K : KeyWords) (S0 S1 S2 S3 : Word) (j : Fin 6),
    let x0 := S0 ^^^ ((S1 >>> 15) ||| (S2 <<< 17)) ^^^
      ~~~(((S2 >>> 6) ||| (S3 <<< 26)) &&& ((S2 >>> 21) ||| (S3 <<< 11))) ^^^ ((S2 >>> 27) ||| (S3 <<< 5)) ^^^ K.get j
    let x1 := S1 ^^^ ((S2 >>> 15) ||| (S3 <<< 17)) ^^^
      ~~~(((S3 >>> 6) ||| (x0 <<< 26)) &&& ((S3 >>> 21) ||| (x0 <<< 11))) ^^^ ((S3 >>> 27) ||| (x0 <<< 5)) ^^^
        K.get (j + 1)
    let x2 := S2 ^^^ ((S3 >>> 15) ||| (x0 <<< 17)) ^^^
      ~~~(((x0 >>> 6) ||| (x1 <<< 26)) &&& ((x0 >>> 21) ||| (x1 <<< 11))) ^^^ ((x0 >>> 27) ||| (x1 <<< 5)) ^^^
        K.get (j + 2)
    let x3 := S3 ^^^ ((x0 >>> 15) ||| (x1 <<< 17)) ^^^
      ~~~(((x1 >>> 6) ||| (x2 <<< 26)) &&& ((x1 >>> 21) ||| (x2 <<< 11))) ^^^ ((x1 >>> 27) ||| (x2 <<< 5)) ^^^
        K.get (j + 3)
    chunk K (⟨S0, S1, S2, S3⟩, j) = (⟨x0, x1, x2, x3⟩, j + 4)

/-- R73, R75 (b) and (c): the key-word index after n chunks is 4n mod 6 from where it stood; no chunk is the identity;
a call splits after a multiple of three chunks. -/
def Obligations.StateUpdateSplitsAtMultiplesOfThree : Prop :=
  (∀ (K : KeyWords) (n : Nat) (S : Block), (chunks K n (S, 0)).2.val = 4 * n % 6) ∧
  (∀ (S : Block) (K : KeyWords), stateUpdate S K 0 = S) ∧
  ∀ (S : Block) (K : KeyWords) (m c : Nat), stateUpdate S K (3 * m + c) = stateUpdate (stateUpdate S K (3 * m)) K c

/-- R75 (d): for a fixed key and chunk count StateUpdate is a bijection on the 128-bit state. -/
def Obligations.StateUpdateIsABijection : Prop :=
  ∀ (K : KeyWords) (c : Nat), Function.Bijective fun S : Block => stateUpdate S K c

/-- R72: c chunks are 128 c rounds of the bit-level shift register, key bit (i mod 192) in round i. -/
def Obligations.ChunksAreRoundsOfTheShiftRegister : Prop :=
  ∀ (S : Block) (K : KeyWords) (c : Nat), (stateUpdate S K c).register = nlfsrRounds K 0 (128 * c) S.register

/-- R83: the state effect of every sequencer command, from the primitives: INIT, ADW, ADP, ENCW, ENCP, DECW, DECP and FIN.
(VERIFY leaves S alone.) The primitives leave PHASE alone. For INIT the host writes each nonce word to DIN; for DECW and
DECP it writes the plaintext to DIN, which is the keystream word it reads with RDS 2, xored with the ciphertext. -/
def Obligations.SequencerCommandsFromPrimitives : Prop :=
  ∀ s : State, s.ERR = false → s.inFlight = none →
    (∃ t u, transactAll [cmd .zero, cmd (.perm 9),
        cmd (.frame 0), cmd (.perm 5), wr .din s.N.n0, cmd .xw,
        cmd (.frame 0), cmd (.perm 5), wr .din s.N.n1, cmd .xw,
        cmd (.frame 0), cmd (.perm 5), wr .din s.N.n2, cmd .xw] s = .next t ∧ t.PHASE = s.PHASE ∧
      exec .init s = .next u ∧ u.S = t.S) ∧
    (∃ t, execAll [.frame 1, .perm 5, .xw] s = .next t ∧ t.PHASE = s.PHASE ∧
      exec .adw { s with PHASE := .ad } = .next { s with PHASE := .ad, S := t.S }) ∧
    (∀ A, oneTo3 A → ∃ t, execAll [.frame 1, .perm 5, .xb A, .xlen A] s = .next t ∧ t.PHASE = s.PHASE ∧
      exec (.adp A) { s with PHASE := .ad } = .next { s with PHASE := .msg, S := t.S }) ∧
    (∀ p, p = .ad ∨ p = .msg →
      (∃ t, execAll [.frame 2, .perm 9, .xw] s = .next t ∧ t.PHASE = s.PHASE ∧
        exec .encw { s with PHASE := p } = .next { s with PHASE := .msg, S := t.S, DOUT := t.S.s2 ^^^ s.DIN }) ∧
      (∀ A, oneTo3 A → let mask := BitVec.ofNat 32 (2 ^ (8 * A.toNat) - 1)
        ∃ t, execAll [.frame 2, .perm 9, .xb A, .xlen A] s = .next t ∧ t.PHASE = s.PHASE ∧
        exec (.encp A) { s with PHASE := p } = .next { s with
          PHASE := .msgEnd, S := t.S, DOUT := (t.S.s2 ^^^ s.DIN) &&& mask }) ∧
      (∃ u t ks, transactAll [cmd (.frame 2), cmd (.perm 9), cmd (.rds 2), rd .dout] s = .next u ∧
        u.answers = s.answers ++ [.done, .done, .done, .data ks] ∧
        transactAll [wr .din (ks ^^^ s.DIN), cmd .xw] u = .next t ∧ t.PHASE = s.PHASE ∧
        exec .decw { s with PHASE := p } = .next { s with PHASE := .msg, S := t.S, DOUT := ks ^^^ s.DIN }) ∧
      (∀ A, oneTo3 A → let mask := BitVec.ofNat 32 (2 ^ (8 * A.toNat) - 1)
        ∃ u t ks, transactAll [cmd (.frame 2), cmd (.perm 9), cmd (.rds 2), rd .dout] s = .next u ∧
        u.answers = s.answers ++ [.done, .done, .done, .data ks] ∧
        transactAll [wr .din (ks ^^^ s.DIN), cmd (.xb A), cmd (.xlen A)] u = .next t ∧ t.PHASE = s.PHASE ∧
        exec (.decp A) { s with PHASE := p } = .next { s with
          PHASE := .msgEnd, S := t.S, DOUT := (ks ^^^ s.DIN) &&& mask })) ∧
    (∀ p, p = .ad ∨ p = .msg ∨ p = .msgEnd →
      ∃ t u, execAll [.frame 3, .perm 9] s = .next t ∧ execAll [.frame 3, .perm 5] t = .next u ∧ u.PHASE = s.PHASE ∧
        exec .fin { s with PHASE := p } = .next { s with PHASE := .done, S := u.S, TAG := ⟨t.S.s2, u.S.s2⟩ }) ∧
    (∃ u, exec .verify { s with PHASE := .done } = .next u ∧ u.S = s.S)

/-! ### The reference functions -/

/-- R90: the AD commands of the host leave S = AbsorbAd(S, K, ad). -/
def Obligations.AdCommandsAbsorbTheAd : Prop :=
  ∀ (ad : List Byte) (s : State), s.ERR = false → s.inFlight = none → s.PHASE = .ad →
    ∃ t, transactAll (adAccesses ad) s = .next t ∧ t.S = absorbAd s.K s.S ad ∧ t.K = s.K ∧ t.ERR = false ∧
      t.PHASE = if ad.length % 4 = 0 then .ad else .msg

/-- R98: the message commands of the host leave S as EncryptBlocks or DecryptBlocks does, and the words read from DOUT
give its bytes. -/
def Obligations.MessageCommandsTransduceTheMessage : Prop :=
  ∀ (m : List Byte) (s : State), s.ERR = false → s.inFlight = none → s.PHASE = .ad ∨ s.PHASE = .msg →
    (∃ t new, transactAll (encryptAccesses m) s = .next t ∧ t.answers = s.answers ++ new ∧
      t.S = (encryptBlocks s.K s.S m).1 ∧ takeBlocks m (readValues new) = ((encryptBlocks s.K s.S m).2, []) ∧
      t.ERR = false) ∧
    (∃ t new, transactAll (decryptAccesses m) s = .next t ∧ t.answers = s.answers ++ new ∧
      t.S = (decryptBlocks s.K s.S m).1 ∧ takeBlocks m (readValues new) = ((decryptBlocks s.K s.S m).2, []) ∧
      t.ERR = false)

/-- R93 ("Both directions leave the state on one trajectory"), R92: decryption recovers the message and the state; the
ciphertext is as long as the message. -/
def Obligations.DecryptionFollowsTheTrajectory : Prop :=
  ∀ (K : KeyWords) (S : Block) (m : List Byte),
    decryptBlocks K S (encryptBlocks K S m).2 = ((encryptBlocks K S m).1, m) ∧ (encryptBlocks K S m).2.length = m.length

/-- R91 (the spec's decision D6, log 11): the ciphertext of a partial block is a prefix of what a full block with the same
first bytes gives. -/
def Obligations.PartialBlockIsPrefixOfFullBlock : Prop :=
  ∀ (K : KeyWords) (S : Block) (b0 b1 b2 b3 : Byte) (n : Nat), 1 ≤ n → n ≤ 3 →
    (encryptBlocks K S ([b0, b1, b2, b3].take n)).2 = (encryptBlocks K S [b0, b1, b2, b3]).2.take n

/-- R107 (1) and (4): round trip and length. -/
def Obligations.AeadRoundTrip : Prop :=
  ∀ (key : Key) (nonce : Nonce) (ad m : List Byte),
    aeadDecrypt key nonce ad (aeadEncrypt key nonce ad m) = some m ∧
    (aeadEncrypt key nonce ad m).length = m.length + 8

/-- R112, each command taken as one transition (R138): from any state with ERR = 0 and nothing in flight, in every PHASE,
the procedure of R110 returns AeadEncrypt and that of R111 returns AeadDecrypt, for every c; for fewer than 8 bytes it
fails before its first access. Both load the key and the nonce byte i of word i div 4 in lane i mod 4 (R50, R51), and
R111 the received tag likewise (R26). -/
def Obligations.HostProceduresAgreeWithReference : Prop :=
  (∀ (key : Key) (i : Fin 6) (j : Fin 4), byteOf ((keyWords key).get i) j = key[4 * i.val + j.val]'(by omega)) ∧
  (∀ (nonce : Nonce) (i : Fin 3) (j : Fin 4), byteOf ((nonceWords nonce).get i) j = nonce[4 * i.val + j.val]'(by omega)) ∧
  ∀ (key : Key) (nonce : Nonce) (ad : List Byte) (s : State), s.ERR = false → s.inFlight = none →
    (∀ m, ∃ t new, transactAll (encryptProcedure key nonce ad m) s = .next t ∧ t.answers = s.answers ++ new ∧
      t.ERR = false ∧ t.K = keyWords key ∧ t.N = nonceWords nonce ∧
      encryptResult m new = some (aeadEncrypt key nonce ad m)) ∧
    (∀ c, ∃ t new, transactAll (decryptProcedure key nonce ad c) s = .next t ∧ t.answers = s.answers ++ new ∧
      t.ERR = false ∧ decryptResult c new = aeadDecrypt key nonce ad c ∧
      (8 ≤ c.length → t.K = keyWords key ∧ t.N = nonceWords nonce ∧ tagBytes t.RT = receivedTag c) ∧
      (c.length < 8 → decryptProcedure key nonce ad c = [] ∧ decryptResult c new = none))

/-- R112 and R114 on the cycle-by-cycle machine, for every LAT and every timing of the host: the accesses of R110 presented
with any cycles in between end in a run that is not faulty and whose result is AeadEncrypt with the engine's state. -/
def Obligations.EncryptionRunAgreesWithReference : Prop :=
  ∀ (key : Key) (nonce : Nonce) (ad m : List Byte) (es : List PortEvent) (s : State),
    s.ERR = false → s.inFlight = none → s.held = none → Presents es (encryptProcedure key nonce ad m) →
    ∃ n t, core.run n { s with port := es, answers := [] } = .next t ∧
      soundRun (encryptResult m) (.next t) = true ∧
      runResult (encryptResult m) (.next t) = some (some (aeadEncrypt key nonce ad m), t)

/-- R112 and R114 on the cycle-by-cycle machine for R111, for every c. The run ends with ERR = 0, and is faulty exactly when
the host takes its `fail` branch. For fewer than 8 bytes it does so at once, and the engine is as before. Otherwise the
procedure reads STATUS right after VERIFY, and a STATUS read is not held (R136): while VERIFY is in flight it returns
BUSY = 1 and the flags from before (R137), so the host fails, and nothing is released (log 12). In every other case the
result is AeadDecrypt. -/
def Obligations.DecryptionRunAgreesWithReference : Prop :=
  ∀ (key : Key) (nonce : Nonce) (ad c : List Byte) (es : List PortEvent) (s : State),
    s.ERR = false → s.inFlight = none → s.held = none → Presents es (decryptProcedure key nonce ad c) →
    ∃ n t, core.run n { s with port := es, answers := [] } = .next t ∧ t.ERR = false ∧
      runResult (decryptResult c) (.next t) = some (decryptResult c t.answers, t) ∧
      (faultyRun (decryptResult c) (.next t) = true ↔ decryptResult c t.answers = none) ∧
      (c.length < 8 → t = { s with port := [], answers := [] } ∧ decryptResult c t.answers = none ∧
        aeadDecrypt key nonce ad c = none) ∧
      (8 ≤ c.length → ∃ st, t.answers.getLast? = some (.data st) ∧
        (st.getLsbD 0 = false → decryptResult c t.answers = aeadDecrypt key nonce ad c) ∧
        (st.getLsbD 0 = true → decryptResult c t.answers = none))

/-! ### The register window -/

/-- R41, R42, R43, R119: an access presented to the window is a BusError exactly when it does not move 32 bits, is
misaligned or reaches 0x44..0xFC; it is one at once, whether BUSY is 0 or 1. -/
def Obligations.BusErrorExactly : Prop :=
  ∀ (s : State) (a : Access) (rest : List PortEvent), s.held = none → s.port = .access a :: rest →
    (step s = .fault (.busError (Config.tjBase + a.off.toNat)) ↔
      a.size ≠ 4 ∨ a.off.toNat % 4 ≠ 0 ∨ 0x44 ≤ a.off.toNat)

/-- R44: a write to STATUS, DOUT, TAG0 or TAG1 is accepted and changes nothing; a read of CMD or KEY0..KEY5 returns 0 and
changes nothing. The offsets are those of R40. -/
def Obligations.WritesToReadOnlyAndReadsOfWriteOnly : Prop :=
  ∀ s : State,
    (∀ (off : BitVec 8) (v : Word), off ∈ [0x04, 0x0C, 0x3C, 0x40] →
      perform ⟨off, 4, .write v⟩ s = .next { s with answers := s.answers ++ [.done] }) ∧
    (∀ off : BitVec 8, off ∈ [0x00, 0x10, 0x14, 0x18, 0x1C, 0x20, 0x24] →
      perform ⟨off, 4, .read⟩ s = .next { s with answers := s.answers ++ [.data 0] })

/-- R40, R45: a read of STATUS, DIN, DOUT, NONCEi, RTAGi or TAGi at its offset returns the register and changes nothing,
whatever ERR holds. -/
def Obligations.ReadsReturnTheRegister : Prop :=
  ∀ s : State,
    perform ⟨0x04, 4, .read⟩ s = .next { s with answers := s.answers ++ [.data s.status] } ∧
    perform ⟨0x08, 4, .read⟩ s = .next { s with answers := s.answers ++ [.data s.DIN] } ∧
    perform ⟨0x0C, 4, .read⟩ s = .next { s with answers := s.answers ++ [.data s.DOUT] } ∧
    perform ⟨0x28, 4, .read⟩ s = .next { s with answers := s.answers ++ [.data s.N.n0] } ∧
    perform ⟨0x2C, 4, .read⟩ s = .next { s with answers := s.answers ++ [.data s.N.n1] } ∧
    perform ⟨0x30, 4, .read⟩ s = .next { s with answers := s.answers ++ [.data s.N.n2] } ∧
    perform ⟨0x34, 4, .read⟩ s = .next { s with answers := s.answers ++ [.data s.RT.t0] } ∧
    perform ⟨0x38, 4, .read⟩ s = .next { s with answers := s.answers ++ [.data s.RT.t1] } ∧
    perform ⟨0x3C, 4, .read⟩ s = .next { s with answers := s.answers ++ [.data s.TAG.t0] } ∧
    perform ⟨0x40, 4, .read⟩ s = .next { s with answers := s.answers ++ [.data s.TAG.t1] }

/-- R45, R117: a write to DIN, KEYi, NONCEi or RTAGi writes that register and nothing else, whatever ERR holds. -/
def Obligations.WritesChangeTheirOwnRegister : Prop :=
  ∀ (s : State) (v : Word),
    perform ⟨0x08, 4, .write v⟩ s = .next { s with DIN := v, answers := s.answers ++ [.done] } ∧
    perform ⟨0x10, 4, .write v⟩ s = .next { s with K := { s.K with k0 := v }, answers := s.answers ++ [.done] } ∧
    perform ⟨0x14, 4, .write v⟩ s = .next { s with K := { s.K with k1 := v }, answers := s.answers ++ [.done] } ∧
    perform ⟨0x18, 4, .write v⟩ s = .next { s with K := { s.K with k2 := v }, answers := s.answers ++ [.done] } ∧
    perform ⟨0x1C, 4, .write v⟩ s = .next { s with K := { s.K with k3 := v }, answers := s.answers ++ [.done] } ∧
    perform ⟨0x20, 4, .write v⟩ s = .next { s with K := { s.K with k4 := v }, answers := s.answers ++ [.done] } ∧
    perform ⟨0x24, 4, .write v⟩ s = .next { s with K := { s.K with k5 := v }, answers := s.answers ++ [.done] } ∧
    perform ⟨0x28, 4, .write v⟩ s = .next { s with N := { s.N with n0 := v }, answers := s.answers ++ [.done] } ∧
    perform ⟨0x2C, 4, .write v⟩ s = .next { s with N := { s.N with n1 := v }, answers := s.answers ++ [.done] } ∧
    perform ⟨0x30, 4, .write v⟩ s = .next { s with N := { s.N with n2 := v }, answers := s.answers ++ [.done] } ∧
    perform ⟨0x34, 4, .write v⟩ s = .next { s with RT := { s.RT with t0 := v }, answers := s.answers ++ [.done] } ∧
    perform ⟨0x38, 4, .write v⟩ s = .next { s with RT := { s.RT with t1 := v }, answers := s.answers ++ [.done] }

/-- R22, R44 ("So a host can never read the key back"): two machines that differ only in the key answer any sequence of
reads alike. -/
def Obligations.ReadsNeverRevealTheKey : Prop :=
  ∀ (as : List Access) (s : State) (K' : KeyWords), (∀ a ∈ as, a.op = .read ∧ a.reg.isSome = true) → s.inFlight = none →
    ∃ t t', transactAll as s = .next t ∧ transactAll as { s with K := K' } = .next t' ∧ t.answers = t'.answers

/-- R23: K changes only by a performed host write to KEYi, which never happens while a command is in flight, or by
reset (R131). -/
def Obligations.KeyChangesOnlyByKeyWrites : Prop :=
  ∀ s t : State, step s = .next t → t.K ≠ s.K →
    (∃ rest, s.port = .reset :: rest) ∨
    (s.inFlight = none ∧ ∃ a i v, (s.held = some a ∨ (s.held = none ∧ ∃ rest, s.port = .access a :: rest)) ∧
      a.reg = some (.key i) ∧ a.op = .write v ∧ t.K = s.K.set i v)

/-- R24, R26, R27 ("No command writes DIN"): N, RT and DIN change only by a performed host write to that very register,
which never happens while a command is in flight, or by reset. -/
def Obligations.InputsChangeOnlyByHostWrites : Prop :=
  ∀ s t : State, step s = .next t → (∀ rest, s.port ≠ .reset :: rest) →
    let performed (a : Access) : Prop :=
      s.inFlight = none ∧ (s.held = some a ∨ (s.held = none ∧ ∃ rest, s.port = .access a :: rest))
    (t.N ≠ s.N → ∃ a i v, performed a ∧ a.reg = some (.nonce i) ∧ a.op = .write v ∧ t.N = s.N.set i v) ∧
    (t.RT ≠ s.RT → ∃ a i v, performed a ∧ a.reg = some (.rtag i) ∧ a.op = .write v ∧ t.RT = s.RT.set i v) ∧
    (t.DIN ≠ s.DIN → ∃ a v, performed a ∧ a.reg = some .din ∧ a.op = .write v ∧ t.DIN = v)

/-- R19, R25, R28, R32: which commands may change S, TAG, DOUT and the authentication flags. -/
def Obligations.WritersOfTheOutputs : Prop :=
  ∀ (i : Instr) (s t : State), exec i s = .next t →
    (t.S ≠ s.S → i ≠ .nop ∧ (∀ A, i ≠ .rds A) ∧ i ≠ .verify) ∧
    (t.TAG ≠ s.TAG → i = .init ∨ i = .abort ∨ i = .fin) ∧
    (t.DOUT ≠ s.DOUT → (∃ A, i = .rds A) ∨ i = .encw ∨ (∃ A, i = .encp A) ∨ i = .decw ∨ (∃ A, i = .decp A) ∨
      i = .init ∨ i = .abort) ∧
    (t.AUTH_VALID ≠ s.AUTH_VALID ∨ t.AUTH_OK ≠ s.AUTH_OK → i = .verify ∨ i = .init ∨ i = .abort)

/-- R33, R29, R116: the fields of the STATUS word; PHASE reads 0 to 4, CAUSE 0 to 3. -/
def Obligations.StatusFields : Prop :=
  ∀ s : State,
    s.status.getLsbD 0 = s.BUSY ∧ s.status.getLsbD 1 = s.ERR ∧ s.status.getLsbD 2 = s.AUTH_VALID ∧
    s.status.getLsbD 3 = s.AUTH_OK ∧ s.status.extractLsb' 4 3 = s.PHASE.code ∧ s.status.getLsbD 7 = false ∧
    s.status.extractLsb' 8 4 = s.CAUSE.code ∧ s.status.extractLsb' 12 20 = 0 ∧
    (s.status.extractLsb' 4 3).toNat ≤ 4 ∧ (s.status.extractLsb' 8 4).toNat ≤ 3

/-! ### Steps: issue, busy, completion -/

/-- A step runs the command the host writes to CMD. With nothing in flight or held and a CMD write at the port, the step
issues the decoded command: an accepted command that goes busy is started (R65), any other is `exec` at that state; the
write is answered. `withFetchWord` puts exactly that write at the port. -/
def Obligations.StepRunsTheDecodedCommand : Prop :=
  ∀ (s : State) (w : Word) (i : Instr) (rest : List PortEvent), s.inFlight = none → s.held = none →
    s.port = .access ⟨0x00, 4, .write w⟩ :: rest →
    (decode w = .cmd i → s.ERR = false → admitted i s.PHASE = true → goesBusy i = true →
      step s = .next { s with
        port := rest, inFlight := some ⟨i, s.DIN, Config.latency i⟩, answers := s.answers ++ [.done] }) ∧
    ((decode w = .cmd i ∧ (s.ERR = true ∨ admitted i s.PHASE = false ∨ goesBusy i = false)) ∨ decode w = .badArg i →
      ∃ t, exec i { s with port := rest } = .next t ∧ step s = .next { t with answers := t.answers ++ [.done] }) ∧
    State.withFetchWord { s with port := rest } 32 w.toNat = s

/-- The last cycle of a command in flight, with no access presented: the step is `exec` of that command at that state,
and BUSY falls (R65, R135). The command reads DIN as latched at issue (R37). -/
def Obligations.CompletionRunsTheCommandInFlight : Prop :=
  ∀ (s : State) (f : InFlight), s.inFlight = some f → f.remaining ≤ 1 → s.port = [] →
    ∃ t, exec f.cmd s = .next t ∧ step s = .next { t with inFlight := none } ∧ s.dinRead = f.din

/-- R136, R47: while BUSY = 1 a mapped access that is no STATUS read is held, unanswered and without effect on K, N, RT or
DIN; once BUSY = 0 the next step performs the held access. -/
def Obligations.AccessesAreHeldWhileBusy : Prop :=
  (∀ (s : State) (f : InFlight) (a : Access) (r : Reg) (rest : List PortEvent), s.inFlight = some f → s.held = none →
    s.port = .access a :: rest → a.reg = some r → ¬ (r = .status ∧ a.op = .read) →
    ∃ t, step s = .next t ∧ t.held = some a ∧ t.port = rest ∧ t.answers = s.answers ∧ t.K = s.K ∧ t.N = s.N ∧
      t.RT = s.RT ∧ t.DIN = s.DIN) ∧
  (∀ (s : State) (f : InFlight) (a : Access), s.inFlight = some f → s.held = some a → (∀ rest, s.port ≠ .reset :: rest) →
    ∃ t, step s = .next t ∧ t.held = some a ∧ t.answers = s.answers ∧ t.K = s.K ∧ t.N = s.N ∧ t.RT = s.RT ∧ t.DIN = s.DIN) ∧
  (∀ (s : State) (a : Access), s.inFlight = none → s.held = some a → (∀ rest, s.port ≠ .reset :: rest) →
    step s = perform a { s with held := none })

/-- R137: a STATUS read while BUSY = 1 is answered at once with BUSY = 1 and every other field as before the command; and
as long as the command is in flight nothing of the engine changes. -/
def Obligations.StatusWhileBusy : Prop :=
  (∀ (s : State) (f : InFlight) (rest : List PortEvent), s.inFlight = some f → s.held = none →
    s.port = .access ⟨0x04, 4, .read⟩ :: rest →
    ∃ t v, step s = .next t ∧ t.answers = s.answers ++ [.data v] ∧ v.getLsbD 0 = true ∧ v.getLsbD 1 = s.ERR ∧
      v.getLsbD 2 = s.AUTH_VALID ∧ v.getLsbD 3 = s.AUTH_OK ∧ v.extractLsb' 4 3 = s.PHASE.code ∧
      v.extractLsb' 8 4 = s.CAUSE.code) ∧
  (∀ (s t : State) (f g : InFlight), s.inFlight = some f → step s = .next t → t.inFlight = some g →
    g.cmd = f.cmd ∧ g.din = f.din ∧ g.remaining + 1 = f.remaining ∧
      t = { s with inFlight := some g, held := t.held, port := t.port, answers := t.answers })

/-- R135: BUSY falls after as many steps as the command in flight has cycles left, whatever mapped accesses and cycles the
host presents; PHASE is then the next PHASE of the command. -/
def Obligations.BusyFallsWithinTheLatency : Prop :=
  ∀ (s : State) (f : InFlight), s.Invariant → s.inFlight = some f → PortEvent.reset ∉ s.port →
    (∀ a, PortEvent.access a ∈ s.port → a.reg.isSome = true) →
    ∃ t, core.run f.remaining s = .next t ∧ t.BUSY = false ∧ t.PHASE = nextPhase f.cmd s.PHASE ∧ t.ERR = false

/-- R138 (with log 12): for every LAT and every timing of the host, the cycle-by-cycle machine comes to rest in the state
the machine with atomic commands reaches, and answers every access alike, but for STATUS words read while BUSY = 1. -/
def Obligations.CyclesAgreeWithAtomicCommands : Prop :=
  ∀ (s : State) (es : List PortEvent) (as : List Access), s.inFlight = none → s.held = none → Presents es as →
    (∀ a ∈ as, a.reg.isSome = true) →
    ∃ n t u, core.run n { s with port := es, answers := [] } = .next t ∧
      transactAll as { s with port := [], answers := [] } = .next u ∧ t.atRest = true ∧
      t = { u with answers := t.answers } ∧ AnswersMatch as t.answers u.answers

/-- R113, R120: release of the plaintext becomes allowed only by the completion of a VERIFY whose tags are equal. -/
def Obligations.ReleaseOnlyAfterMatchingVerify : Prop :=
  ∀ s t : State, step s = .next t → s.releaseAllowed = false → t.releaseAllowed = true →
    ∃ f, s.inFlight = some f ∧ f.cmd = .verify ∧ s.PHASE = .done ∧ s.TAG = s.RT
end

