-- ==== Sys2Proof/Laws/State.lean ====
section
/-! SUPPORT. One lemma per field per named update of the state, each true by rfl, so that no proof unfolds an update. -/

namespace Sys2Proof.Machine

/-! ### State.raiseCmdError (60_exceptions.md R115) -/

@[simp] theorem State.raiseCmdError_S (s : State) (c : Cause) : (s.raiseCmdError c).S = s.S := rfl
@[simp] theorem State.raiseCmdError_K (s : State) (c : Cause) : (s.raiseCmdError c).K = s.K := rfl
@[simp] theorem State.raiseCmdError_N (s : State) (c : Cause) : (s.raiseCmdError c).N = s.N := rfl
@[simp] theorem State.raiseCmdError_TAG (s : State) (c : Cause) : (s.raiseCmdError c).TAG = s.TAG := rfl
@[simp] theorem State.raiseCmdError_RT (s : State) (c : Cause) : (s.raiseCmdError c).RT = s.RT := rfl
@[simp] theorem State.raiseCmdError_DIN (s : State) (c : Cause) : (s.raiseCmdError c).DIN = s.DIN := rfl
@[simp] theorem State.raiseCmdError_DOUT (s : State) (c : Cause) : (s.raiseCmdError c).DOUT = s.DOUT := rfl
@[simp] theorem State.raiseCmdError_PHASE (s : State) (c : Cause) : (s.raiseCmdError c).PHASE = s.PHASE := rfl
@[simp] theorem State.raiseCmdError_ERR (s : State) (c : Cause) : (s.raiseCmdError c).ERR = true := rfl
@[simp] theorem State.raiseCmdError_CAUSE (s : State) (c : Cause) : (s.raiseCmdError c).CAUSE = c := rfl
@[simp] theorem State.raiseCmdError_AUTH_VALID (s : State) (c : Cause) : (s.raiseCmdError c).AUTH_VALID = s.AUTH_VALID := rfl
@[simp] theorem State.raiseCmdError_AUTH_OK (s : State) (c : Cause) : (s.raiseCmdError c).AUTH_OK = s.AUTH_OK := rfl
@[simp] theorem State.raiseCmdError_inFlight (s : State) (c : Cause) : (s.raiseCmdError c).inFlight = s.inFlight := rfl
@[simp] theorem State.raiseCmdError_held (s : State) (c : Cause) : (s.raiseCmdError c).held = s.held := rfl
@[simp] theorem State.raiseCmdError_port (s : State) (c : Cause) : (s.raiseCmdError c).port = s.port := rfl
@[simp] theorem State.raiseCmdError_answers (s : State) (c : Cause) : (s.raiseCmdError c).answers = s.answers := rfl
@[simp] theorem State.raiseCmdError_freeReads (s : State) (c : Cause) : (s.raiseCmdError c).freeReads = s.freeReads := rfl

/-! ### State.abandon (45_facade.md R103) -/

@[simp] theorem State.abandon_S (s : State) : s.abandon.S = Block.zero := rfl
@[simp] theorem State.abandon_K (s : State) : s.abandon.K = s.K := rfl
@[simp] theorem State.abandon_N (s : State) : s.abandon.N = s.N := rfl
@[simp] theorem State.abandon_TAG (s : State) : s.abandon.TAG = TagWords.zero := rfl
@[simp] theorem State.abandon_RT (s : State) : s.abandon.RT = s.RT := rfl
@[simp] theorem State.abandon_DIN (s : State) : s.abandon.DIN = s.DIN := rfl
@[simp] theorem State.abandon_DOUT (s : State) : s.abandon.DOUT = 0 := rfl
@[simp] theorem State.abandon_PHASE (s : State) : s.abandon.PHASE = s.PHASE := rfl
@[simp] theorem State.abandon_ERR (s : State) : s.abandon.ERR = false := rfl
@[simp] theorem State.abandon_CAUSE (s : State) : s.abandon.CAUSE = Cause.none := rfl
@[simp] theorem State.abandon_AUTH_VALID (s : State) : s.abandon.AUTH_VALID = false := rfl
@[simp] theorem State.abandon_AUTH_OK (s : State) : s.abandon.AUTH_OK = false := rfl
@[simp] theorem State.abandon_inFlight (s : State) : s.abandon.inFlight = s.inFlight := rfl
@[simp] theorem State.abandon_held (s : State) : s.abandon.held = s.held := rfl
@[simp] theorem State.abandon_port (s : State) : s.abandon.port = s.port := rfl
@[simp] theorem State.abandon_answers (s : State) : s.abandon.answers = s.answers := rfl
@[simp] theorem State.abandon_freeReads (s : State) : s.abandon.freeReads = s.freeReads := rfl

/-! ### State.start (30_encoding.md R65) -/

@[simp] theorem State.start_S (s : State) (i : Instr) : (s.start i).S = s.S := rfl
@[simp] theorem State.start_K (s : State) (i : Instr) : (s.start i).K = s.K := rfl
@[simp] theorem State.start_N (s : State) (i : Instr) : (s.start i).N = s.N := rfl
@[simp] theorem State.start_TAG (s : State) (i : Instr) : (s.start i).TAG = s.TAG := rfl
@[simp] theorem State.start_RT (s : State) (i : Instr) : (s.start i).RT = s.RT := rfl
@[simp] theorem State.start_DIN (s : State) (i : Instr) : (s.start i).DIN = s.DIN := rfl
@[simp] theorem State.start_DOUT (s : State) (i : Instr) : (s.start i).DOUT = s.DOUT := rfl
@[simp] theorem State.start_PHASE (s : State) (i : Instr) : (s.start i).PHASE = s.PHASE := rfl
@[simp] theorem State.start_ERR (s : State) (i : Instr) : (s.start i).ERR = s.ERR := rfl
@[simp] theorem State.start_CAUSE (s : State) (i : Instr) : (s.start i).CAUSE = s.CAUSE := rfl
@[simp] theorem State.start_AUTH_VALID (s : State) (i : Instr) : (s.start i).AUTH_VALID = s.AUTH_VALID := rfl
@[simp] theorem State.start_AUTH_OK (s : State) (i : Instr) : (s.start i).AUTH_OK = s.AUTH_OK := rfl
@[simp] theorem State.start_inFlight (s : State) (i : Instr) : (s.start i).inFlight = some ⟨i, s.DIN, Config.latency i⟩ := rfl
@[simp] theorem State.start_held (s : State) (i : Instr) : (s.start i).held = s.held := rfl
@[simp] theorem State.start_port (s : State) (i : Instr) : (s.start i).port = s.port := rfl
@[simp] theorem State.start_answers (s : State) (i : Instr) : (s.start i).answers = s.answers := rfl
@[simp] theorem State.start_freeReads (s : State) (i : Instr) : (s.start i).freeReads = s.freeReads := rfl

/-! ### State.answer -/

@[simp] theorem State.answer_S (s : State) (a : Answer) : (s.answer a).S = s.S := rfl
@[simp] theorem State.answer_K (s : State) (a : Answer) : (s.answer a).K = s.K := rfl
@[simp] theorem State.answer_N (s : State) (a : Answer) : (s.answer a).N = s.N := rfl
@[simp] theorem State.answer_TAG (s : State) (a : Answer) : (s.answer a).TAG = s.TAG := rfl
@[simp] theorem State.answer_RT (s : State) (a : Answer) : (s.answer a).RT = s.RT := rfl
@[simp] theorem State.answer_DIN (s : State) (a : Answer) : (s.answer a).DIN = s.DIN := rfl
@[simp] theorem State.answer_DOUT (s : State) (a : Answer) : (s.answer a).DOUT = s.DOUT := rfl
@[simp] theorem State.answer_PHASE (s : State) (a : Answer) : (s.answer a).PHASE = s.PHASE := rfl
@[simp] theorem State.answer_ERR (s : State) (a : Answer) : (s.answer a).ERR = s.ERR := rfl
@[simp] theorem State.answer_CAUSE (s : State) (a : Answer) : (s.answer a).CAUSE = s.CAUSE := rfl
@[simp] theorem State.answer_AUTH_VALID (s : State) (a : Answer) : (s.answer a).AUTH_VALID = s.AUTH_VALID := rfl
@[simp] theorem State.answer_AUTH_OK (s : State) (a : Answer) : (s.answer a).AUTH_OK = s.AUTH_OK := rfl
@[simp] theorem State.answer_inFlight (s : State) (a : Answer) : (s.answer a).inFlight = s.inFlight := rfl
@[simp] theorem State.answer_held (s : State) (a : Answer) : (s.answer a).held = s.held := rfl
@[simp] theorem State.answer_port (s : State) (a : Answer) : (s.answer a).port = s.port := rfl
@[simp] theorem State.answer_answers (s : State) (a : Answer) : (s.answer a).answers = s.answers ++ [a] := rfl
@[simp] theorem State.answer_freeReads (s : State) (a : Answer) : (s.answer a).freeReads = s.freeReads := rfl

/-! ### State.withCommand -/

@[simp] theorem State.withCommand_S (s : State) (w : Word) : (s.withCommand w).S = s.S := rfl
@[simp] theorem State.withCommand_K (s : State) (w : Word) : (s.withCommand w).K = s.K := rfl
@[simp] theorem State.withCommand_N (s : State) (w : Word) : (s.withCommand w).N = s.N := rfl
@[simp] theorem State.withCommand_TAG (s : State) (w : Word) : (s.withCommand w).TAG = s.TAG := rfl
@[simp] theorem State.withCommand_RT (s : State) (w : Word) : (s.withCommand w).RT = s.RT := rfl
@[simp] theorem State.withCommand_DIN (s : State) (w : Word) : (s.withCommand w).DIN = s.DIN := rfl
@[simp] theorem State.withCommand_DOUT (s : State) (w : Word) : (s.withCommand w).DOUT = s.DOUT := rfl
@[simp] theorem State.withCommand_PHASE (s : State) (w : Word) : (s.withCommand w).PHASE = s.PHASE := rfl
@[simp] theorem State.withCommand_ERR (s : State) (w : Word) : (s.withCommand w).ERR = s.ERR := rfl
@[simp] theorem State.withCommand_CAUSE (s : State) (w : Word) : (s.withCommand w).CAUSE = s.CAUSE := rfl
@[simp] theorem State.withCommand_AUTH_VALID (s : State) (w : Word) : (s.withCommand w).AUTH_VALID = s.AUTH_VALID := rfl
@[simp] theorem State.withCommand_AUTH_OK (s : State) (w : Word) : (s.withCommand w).AUTH_OK = s.AUTH_OK := rfl
@[simp] theorem State.withCommand_inFlight (s : State) (w : Word) : (s.withCommand w).inFlight = none := rfl
@[simp] theorem State.withCommand_held (s : State) (w : Word) : (s.withCommand w).held = none := rfl
@[simp] theorem State.withCommand_port (s : State) (w : Word) : (s.withCommand w).port = .access (cmdWrite w) :: s.port := rfl
@[simp] theorem State.withCommand_answers (s : State) (w : Word) : (s.withCommand w).answers = s.answers := rfl
@[simp] theorem State.withCommand_freeReads (s : State) (w : Word) : (s.withCommand w).freeReads = s.freeReads := rfl

/-! ### State.applyReset (70_reset_and_hazards.md R131) -/

@[simp] theorem State.applyReset_S (s : State) (rest : List PortEvent) : (s.applyReset rest).S = ⟨0, 0, 0, 0⟩ := rfl
@[simp] theorem State.applyReset_K (s : State) (rest : List PortEvent) : (s.applyReset rest).K = ⟨0, 0, 0, 0, 0, 0⟩ := rfl
@[simp] theorem State.applyReset_N (s : State) (rest : List PortEvent) : (s.applyReset rest).N = ⟨0, 0, 0⟩ := rfl
@[simp] theorem State.applyReset_TAG (s : State) (rest : List PortEvent) : (s.applyReset rest).TAG = ⟨0, 0⟩ := rfl
@[simp] theorem State.applyReset_RT (s : State) (rest : List PortEvent) : (s.applyReset rest).RT = ⟨0, 0⟩ := rfl
@[simp] theorem State.applyReset_DIN (s : State) (rest : List PortEvent) : (s.applyReset rest).DIN = 0 := rfl
@[simp] theorem State.applyReset_DOUT (s : State) (rest : List PortEvent) : (s.applyReset rest).DOUT = 0 := rfl
@[simp] theorem State.applyReset_PHASE (s : State) (rest : List PortEvent) : (s.applyReset rest).PHASE = .idle := rfl
@[simp] theorem State.applyReset_ERR (s : State) (rest : List PortEvent) : (s.applyReset rest).ERR = false := rfl
@[simp] theorem State.applyReset_CAUSE (s : State) (rest : List PortEvent) : (s.applyReset rest).CAUSE = Cause.none := rfl
@[simp] theorem State.applyReset_AUTH_VALID (s : State) (rest : List PortEvent) : (s.applyReset rest).AUTH_VALID = false := rfl
@[simp] theorem State.applyReset_AUTH_OK (s : State) (rest : List PortEvent) : (s.applyReset rest).AUTH_OK = false := rfl
@[simp] theorem State.applyReset_inFlight (s : State) (rest : List PortEvent) : (s.applyReset rest).inFlight = none := rfl
@[simp] theorem State.applyReset_held (s : State) (rest : List PortEvent) : (s.applyReset rest).held = none := rfl
@[simp] theorem State.applyReset_port (s : State) (rest : List PortEvent) : (s.applyReset rest).port = rest := rfl
@[simp] theorem State.applyReset_answers (s : State) (rest : List PortEvent) : (s.applyReset rest).answers = s.releaseHeld.answers := rfl
@[simp] theorem State.applyReset_freeReads (s : State) (rest : List PortEvent) : (s.applyReset rest).freeReads = s.releaseHeld.freeReads := rfl

/-! ### Words of the cipher state -/

@[simp] theorem Block.xorWord1_s0 (S : Block) (v : Word) : (S.xorWord1 v).s0 = S.s0 := rfl
@[simp] theorem Block.xorWord1_s1 (S : Block) (v : Word) : (S.xorWord1 v).s1 = S.s1 ^^^ v := rfl
@[simp] theorem Block.xorWord1_s2 (S : Block) (v : Word) : (S.xorWord1 v).s2 = S.s2 := rfl
@[simp] theorem Block.xorWord1_s3 (S : Block) (v : Word) : (S.xorWord1 v).s3 = S.s3 := rfl
@[simp] theorem Block.xorWord3_s0 (S : Block) (v : Word) : (S.xorWord3 v).s0 = S.s0 := rfl
@[simp] theorem Block.xorWord3_s1 (S : Block) (v : Word) : (S.xorWord3 v).s1 = S.s1 := rfl
@[simp] theorem Block.xorWord3_s2 (S : Block) (v : Word) : (S.xorWord3 v).s2 = S.s2 := rfl
@[simp] theorem Block.xorWord3_s3 (S : Block) (v : Word) : (S.xorWord3 v).s3 = S.s3 ^^^ v := rfl
@[simp] theorem Block.xorTail_s0 (S : Block) (P n : Word) : (S.xorTail P n).s0 = S.s0 := rfl
@[simp] theorem Block.xorTail_s1 (S : Block) (P n : Word) : (S.xorTail P n).s1 = S.s1 ^^^ n := rfl
@[simp] theorem Block.xorTail_s2 (S : Block) (P n : Word) : (S.xorTail P n).s2 = S.s2 := rfl
@[simp] theorem Block.xorTail_s3 (S : Block) (P n : Word) : (S.xorTail P n).s3 = S.s3 ^^^ P := rfl

/-! ### Register files by index -/

theorem Block.get_set_self (S : Block) (i : Fin 4) (v : Word) : (S.set i v).get i = v := by
  fin_cases i <;> rfl

theorem Block.get_set_ne (S : Block) {i j : Fin 4} (v : Word) (h : i ≠ j) : (S.set i v).get j = S.get j := by
  fin_cases i <;> fin_cases j <;> first | rfl | exact absurd rfl h

theorem KeyWords.get_set_self (K : KeyWords) (i : Fin 6) (v : Word) : (K.set i v).get i = v := by
  fin_cases i <;> rfl

theorem KeyWords.get_set_ne (K : KeyWords) {i j : Fin 6} (v : Word) (h : i ≠ j) : (K.set i v).get j = K.get j := by
  fin_cases i <;> fin_cases j <;> first | rfl | exact absurd rfl h

theorem NonceWords.get_set_self (N : NonceWords) (i : Fin 3) (v : Word) : (N.set i v).get i = v := by
  fin_cases i <;> rfl

theorem NonceWords.get_set_ne (N : NonceWords) {i j : Fin 3} (v : Word) (h : i ≠ j) : (N.set i v).get j = N.get j := by
  fin_cases i <;> fin_cases j <;> first | rfl | exact absurd rfl h

theorem TagWords.get_set_self (T : TagWords) (i : Fin 2) (v : Word) : (T.set i v).get i = v := by
  fin_cases i <;> rfl

theorem TagWords.get_set_ne (T : TagWords) {i j : Fin 2} (v : Word) (h : i ≠ j) : (T.set i v).get j = T.get j := by
  fin_cases i <;> fin_cases j <;> first | rfl | exact absurd rfl h

/-- BUSY is 1 exactly when a command is in flight. -/
theorem State.BUSY_eq_true (s : State) : s.BUSY = true ↔ ∃ f, s.inFlight = some f := by
  simp [State.BUSY, Option.isSome_iff_exists]

theorem State.BUSY_eq_false (s : State) : s.BUSY = false ↔ s.inFlight = none := by
  cases h : s.inFlight <;> simp [State.BUSY, h]

@[simp] theorem State.dinRead_idle {s : State} (h : s.inFlight = none) : s.dinRead = s.DIN := by
  simp [State.dinRead, h]

theorem State.dinRead_inFlight {s : State} {f : InFlight} (h : s.inFlight = some f) : s.dinRead = f.din := by
  simp [State.dinRead, h]

end Sys2Proof.Machine
end

