-- ==== Sys2Proof/Laws/Bytes.lean ====
section
/-! SUPPORT. Laws of the byte lanes: little-endian assembly and taking apart (20_memory.md R50), masks, lane by lane. -/

namespace Sys2Proof.Machine

theorem byteOf_xor (v w : Word) (j : Nat) : byteOf (v ^^^ w) j = byteOf v j ^^^ byteOf w j := by
  ext i hi; simp [byteOf]

theorem byteOf_le32_0 (b0 b1 b2 b3 : Byte) : byteOf (le32 b0 b1 b2 b3) 0 = b0 := by
  refine BitVec.eq_of_getLsbD_eq fun i hi => ?_
  interval_cases i <;> simp [byteOf, le32, zextByte]
theorem byteOf_le32_1 (b0 b1 b2 b3 : Byte) : byteOf (le32 b0 b1 b2 b3) 1 = b1 := by
  refine BitVec.eq_of_getLsbD_eq fun i hi => ?_
  interval_cases i <;> simp [byteOf, le32, zextByte, BitVec.getLsbD_of_ge]
theorem byteOf_le32_2 (b0 b1 b2 b3 : Byte) : byteOf (le32 b0 b1 b2 b3) 2 = b2 := by
  refine BitVec.eq_of_getLsbD_eq fun i hi => ?_
  interval_cases i <;> simp [byteOf, le32, zextByte, BitVec.getLsbD_of_ge]
theorem byteOf_le32_3 (b0 b1 b2 b3 : Byte) : byteOf (le32 b0 b1 b2 b3) 3 = b3 := by
  refine BitVec.eq_of_getLsbD_eq fun i hi => ?_
  interval_cases i <;> simp [byteOf, le32, zextByte, BitVec.getLsbD_of_ge]

/-- Taking apart what was assembled (R50). -/
theorem unle32_le32 (b0 b1 b2 b3 : Byte) : unle32 (le32 b0 b1 b2 b3) = [b0, b1, b2, b3] := by
  simp [unle32, byteOf_le32_0, byteOf_le32_1, byteOf_le32_2, byteOf_le32_3]

/-- Two words with the same four bytes are equal. -/
theorem word_ext {v w : Word} (h0 : byteOf v 0 = byteOf w 0) (h1 : byteOf v 1 = byteOf w 1) (h2 : byteOf v 2 = byteOf w 2)
    (h3 : byteOf v 3 = byteOf w 3) : v = w := by
  refine BitVec.eq_of_getLsbD_eq fun i hi => ?_
  have key : ∀ j k, k < 8 → byteOf v j = byteOf w j → v.getLsbD (8 * j + k) = w.getLsbD (8 * j + k) := by
    intro j k hk h
    have := congrArg (fun b => b.getLsbD k) h
    simpa [byteOf, hk] using this
  have hk : i % 8 < 8 := Nat.mod_lt _ (by decide)
  have hj : i = 8 * (i / 8) + i % 8 := by omega
  rw [hj]
  have : i / 8 = 0 ∨ i / 8 = 1 ∨ i / 8 = 2 ∨ i / 8 = 3 := by omega
  rcases this with h | h | h | h <;> rw [h] <;> exact key _ _ hk (by assumption)

/-- Assembling what was taken apart (R50). -/
theorem le32_byteOf (w : Word) : le32 (byteOf w 0) (byteOf w 1) (byteOf w 2) (byteOf w 3) = w :=
  word_ext (byteOf_le32_0 ..) (byteOf_le32_1 ..) (byteOf_le32_2 ..) (byteOf_le32_3 ..)

theorem unle32_length (w : Word) : (unle32 w).length = 4 := rfl

/-- Byte j of a masked word: the byte below lane n, zero from lane n on (00_scope.md R12). -/
theorem byteOf_and_laneMask (w : Word) {n j : Nat} (hn : n ≤ 3) (hj : j ≤ 3) :
    byteOf (w &&& laneMask n) j = if j < n then byteOf w j else 0 := by
  have hm : ∀ n < 4, ∀ j < 4, byteOf (laneMask n) j = if j < n then BitVec.allOnes 8 else 0 := by decide
  have ha : byteOf (w &&& laneMask n) j = byteOf w j &&& byteOf (laneMask n) j := by
    ext i hi; simp [byteOf]
  rw [ha, hm n (by omega) j (by omega)]
  split
  · exact BitVec.and_allOnes
  · exact BitVec.and_zero

/-- Byte k of a byte shifted into lane j. -/
theorem byteOf_lane (b : Byte) {j k : Nat} (hj : j ≤ 3) (hk : k ≤ 3) :
    byteOf (zextByte b <<< (8 * j)) k = if k = j then b else 0 := by
  refine BitVec.eq_of_getLsbD_eq fun i hi => ?_
  by_cases h : k = j
  · subst h
    have : 8 * k + i < 32 := by omega
    simp [byteOf, zextByte, hi, this]
  · rw [if_neg h]
    simp only [byteOf, zextByte, BitVec.getLsbD_extractLsb', BitVec.getLsbD_shiftLeft, BitVec.getLsbD_setWidth]
    by_cases hlt : k < j
    · have : 8 * k + i < 8 * j := by omega
      simp [this]
    · rw [BitVec.getLsbD_of_ge b _ (by omega)]; simp

/-! ### Blocks of a byte string -/

/-- A byte string is what the reference functions take it for: nothing, a tail of 1 to 3 bytes, or a full block and a
shorter byte string. -/
theorem blocks_induction {P : List Byte → Prop} (nil : P []) (one : ∀ a, P [a]) (two : ∀ a b, P [a, b])
    (three : ∀ a b c, P [a, b, c]) (full : ∀ a b c d rest, P rest → P (a :: b :: c :: d :: rest)) : ∀ l, P l
  | [] => nil
  | [a] => one a
  | [a, b] => two a b
  | [a, b, c] => three a b c
  | a :: b :: c :: d :: rest => full a b c d rest (blocks_induction nil one two three full rest)

/-- Encryption at a full block (43_message.md R92). -/
theorem encryptBlocks_full (K : KeyWords) (S : Block) (a b c d : Byte) (rest : List Byte) :
    encryptBlocks K S (a :: b :: c :: d :: rest) =
      ((encryptBlocks K ((framedUpdate fbPC chunksLong K S).xorWord3 (le32 a b c d)) rest).1,
       unle32 ((framedUpdate fbPC chunksLong K S).s2 ^^^ le32 a b c d)
         ++ (encryptBlocks K ((framedUpdate fbPC chunksLong K S).xorWord3 (le32 a b c d)) rest).2) := rfl

/-- Decryption at a full block given as the bytes of a word (43_message.md R93). -/
theorem decryptBlocks_full (K : KeyWords) (S : Block) (w : Word) (rest : List Byte) :
    decryptBlocks K S (unle32 w ++ rest) =
      ((decryptBlocks K ((framedUpdate fbPC chunksLong K S).xorWord3 ((framedUpdate fbPC chunksLong K S).s2 ^^^ w)) rest).1,
       unle32 ((framedUpdate fbPC chunksLong K S).s2 ^^^ w)
         ++ (decryptBlocks K ((framedUpdate fbPC chunksLong K S).xorWord3 ((framedUpdate fbPC chunksLong K S).s2 ^^^ w))
              rest).2) := by
  show decryptBlocks K S (byteOf w 0 :: byteOf w 1 :: byteOf w 2 :: byteOf w 3 :: rest) = _
  rw [decryptBlocks, le32_byteOf]

end Sys2Proof.Machine
end

