-- ==== Sys2Proof/Laws/Decode.lean ====
section
/-! SUPPORT. Laws of the decoder: what a row covers, field by field, and that the rows do not overlap. -/

namespace Sys2Proof.Laws

/-- OP: the bits 7:0 of a command word (30_encoding.md R58). -/
def opOf (w : Word) : BitVec 8 := w.extractLsb' 0 8

theorem opOf_bit (w : Word) {k : Nat} (hk : k < 8) : (opOf w).getLsbD k = w.getLsbD k := by
  simp [opOf, hk]

theorem maskA_bit : ∀ k < 32, maskA.getLsbD k = (decide (k < 8) || decide (12 ≤ k)) := by decide
theorem maskC_bit : ∀ k < 32, maskC.getLsbD k = (decide (k < 16) || decide (24 ≤ k)) := by decide
theorem maskNone_eq : maskNone = BitVec.allOnes 32 := by decide

/-- A word is determined by its bits below 32. -/
theorem word_eq_iff (v w : Word) : v = w ↔ ∀ k < 32, v.getLsbD k = w.getLsbD k :=
  ⟨fun h _ _ => h ▸ rfl, fun h => BitVec.eq_of_getLsbD_eq fun k hk => h k hk⟩

/-- The fields above OP are zero exactly when their bits are. -/
theorem field_zero_iff (v : Word) (lo n : Nat) :
    v.extractLsb' lo n = 0 ↔ ∀ k < n, v.getLsbD (lo + k) = false := by
  constructor
  · intro h k hk
    have := congrArg (fun x => x.getLsbD k) h
    simpa [hk] using this
  · intro h
    refine BitVec.eq_of_getLsbD_eq fun k hk => ?_
    simp [hk, h k hk]

theorem op_eq_iff (v : Word) (op : BitVec 8) : opOf v = op ↔ ∀ k < 8, v.getLsbD k = op.getLsbD k := by
  constructor
  · intro h k hk
    rw [← h, opOf_bit v hk]
  · intro h
    refine BitVec.eq_of_getLsbD_eq fun k hk => ?_
    rw [opOf_bit v hk, h k hk]

/-- What a no-operand row covers: its OP with every other bit zero (R60). -/
theorem covers_none_iff (v : Word) (op : BitVec 8) :
    v &&& maskNone = op.setWidth 32 ↔ opOf v = op ∧ v.extractLsb' 8 24 = 0 := by
  rw [maskNone_eq, BitVec.and_allOnes, word_eq_iff, op_eq_iff, field_zero_iff]
  constructor
  · intro h
    refine ⟨fun k hk => ?_, fun k hk => ?_⟩
    · rw [h k (by omega)]; simp; omega
    · rw [h (8 + k) (by omega)]; simp [BitVec.getLsbD_of_ge]
  · rintro ⟨h1, h2⟩ k hk
    by_cases h8 : k < 8
    · rw [h1 k h8]; simp; omega
    · have := h2 (k - 8) (by omega)
      rw [show 8 + (k - 8) = k by omega] at this
      rw [this]; simp [BitVec.getLsbD_of_ge op k (by omega)]

/-- What an A-form row covers: its OP with bits 31:12 zero (R60). -/
theorem covers_A_iff (v : Word) (op : BitVec 8) :
    v &&& maskA = op.setWidth 32 ↔ opOf v = op ∧ v.extractLsb' 12 20 = 0 := by
  rw [word_eq_iff, op_eq_iff, field_zero_iff]
  constructor
  · intro h
    refine ⟨fun k hk => ?_, fun k hk => ?_⟩
    · have := h k (by omega)
      rw [BitVec.getLsbD_and, maskA_bit k (by omega)] at this
      simpa [hk, show k < 32 by omega] using this
    · have := h (12 + k) (by omega)
      rw [BitVec.getLsbD_and, maskA_bit _ (by omega)] at this
      simpa [BitVec.getLsbD_of_ge op (12 + k) (by omega)] using this
  · rintro ⟨h1, h2⟩ k hk
    rw [BitVec.getLsbD_and, maskA_bit k hk]
    by_cases h8 : k < 8
    · rw [h1 k h8]; simp [h8, hk]
    · rw [BitVec.getLsbD_setWidth, BitVec.getLsbD_of_ge op k (by omega)]
      by_cases h12 : 12 ≤ k
      · have := h2 (k - 12) (by omega)
        rw [show 12 + (k - 12) = k by omega] at this
        simp [this]
      · simp [h8, h12]

/-- What the C-form row covers: its OP with bits 31:24 and 15:8 zero (R60). -/
theorem covers_C_iff (v : Word) (op : BitVec 8) :
    v &&& maskC = op.setWidth 32 ↔ opOf v = op ∧ v.extractLsb' 8 8 = 0 ∧ v.extractLsb' 24 8 = 0 := by
  rw [word_eq_iff, op_eq_iff, field_zero_iff, field_zero_iff]
  constructor
  · intro h
    refine ⟨fun k hk => ?_, fun k hk => ?_, fun k hk => ?_⟩
    · have := h k (by omega)
      rw [BitVec.getLsbD_and, maskC_bit k (by omega)] at this
      simpa [show k < 16 by omega, show k < 32 by omega] using this
    · have := h (8 + k) (by omega)
      rw [BitVec.getLsbD_and, maskC_bit _ (by omega)] at this
      simpa [BitVec.getLsbD_of_ge op (8 + k) (by omega), show 8 + k < 16 by omega] using this
    · have := h (24 + k) (by omega)
      rw [BitVec.getLsbD_and, maskC_bit _ (by omega)] at this
      simpa [BitVec.getLsbD_of_ge op (24 + k) (by omega)] using this
  · rintro ⟨h1, h2, h3⟩ k hk
    rw [BitVec.getLsbD_and, maskC_bit k hk]
    by_cases h8 : k < 8
    · rw [h1 k h8]; simp [show k < 16 by omega, hk]
    · rw [BitVec.getLsbD_setWidth, BitVec.getLsbD_of_ge op k (by omega)]
      by_cases h16 : k < 16
      · have := h2 (k - 8) (by omega)
        rw [show 8 + (k - 8) = k by omega] at this
        simp [this]
      · by_cases h24 : 24 ≤ k
        · have := h3 (k - 24) (by omega)
          rw [show 24 + (k - 24) = k by omega] at this
          simp [this]
        · simp [h16, h24]

/-- The table search at a no-operand row. -/
theorem find_none (v p : Word) (op : BitVec 8) (read : Word → Instr) (rest : List Row) (hp : p = op.setWidth 32) :
    (⟨maskNone, p, read⟩ :: rest : List Row).find? (·.covers v)
      = if opOf v = op ∧ v.extractLsb' 8 24 = 0 then some ⟨maskNone, p, read⟩ else rest.find? (·.covers v) := by
  have := covers_none_iff v op
  by_cases h : v &&& maskNone = p <;> simp_all [Row.covers]

/-- The table search at an A-form row. -/
theorem find_A (v p : Word) (op : BitVec 8) (read : Word → Instr) (rest : List Row) (hp : p = op.setWidth 32) :
    (⟨maskA, p, read⟩ :: rest : List Row).find? (·.covers v)
      = if opOf v = op ∧ v.extractLsb' 12 20 = 0 then some ⟨maskA, p, read⟩ else rest.find? (·.covers v) := by
  have := covers_A_iff v op
  by_cases h : v &&& maskA = p <;> simp_all [Row.covers]

/-- The table search at the C-form row. -/
theorem find_C (v p : Word) (op : BitVec 8) (read : Word → Instr) (rest : List Row) (hp : p = op.setWidth 32) :
    (⟨maskC, p, read⟩ :: rest : List Row).find? (·.covers v)
      = if opOf v = op ∧ v.extractLsb' 8 8 = 0 ∧ v.extractLsb' 24 8 = 0 then some ⟨maskC, p, read⟩
        else rest.find? (·.covers v) := by
  have := covers_C_iff v op
  by_cases h : v &&& maskC = p <;> simp_all [Row.covers]

/-- Every row tests OP: its mask covers bits 7:0, so a covered word has the row's OP (R62). -/
theorem covers_op {r : Row} (hr : r ∈ rows) {w : Word} (h : r.covers w = true) : opOf w = opOf r.pattern := by
  have hm : ∀ r ∈ rows, ∀ k < 8, r.mask.getLsbD k = true := by decide
  rw [op_eq_iff]
  intro k hk
  have := congrArg (fun x => x.getLsbD k) (beq_iff_eq.mp h)
  simp only [BitVec.getLsbD_and, hm r hr k hk, Bool.and_true] at this
  rw [opOf_bit _ hk, this]

/-- "At most one row matches" (R62): no word is covered by two rows of the table. -/
theorem rows_disjoint : rows.Pairwise fun r r' => ∀ w, ¬ (r.covers w = true ∧ r'.covers w = true) := by
  have hp : rows.Pairwise fun r r' => opOf r.pattern ≠ opOf r'.pattern := by decide
  have : rows.Pairwise fun r r' => r ∈ rows ∧ r' ∈ rows ∧ opOf r.pattern ≠ opOf r'.pattern := by
    rw [List.pairwise_iff_getElem] at hp ⊢
    intro i j hi hj hij
    exact ⟨List.getElem_mem hi, List.getElem_mem hj, hp i j hi hj hij⟩
  refine this.imp fun ⟨hr, hr', hne⟩ w ⟨h1, h2⟩ => hne ?_
  rw [← covers_op hr h1, ← covers_op hr' h2]

/-- The decoder in terms of the fields of the word (R60, R61). -/
theorem rowInstr_fields (v : Word) : rowInstr v =
    if opOf v = 0x00 ∧ v.extractLsb' 8 24 = 0 then some .nop
    else if opOf v = 0x01 ∧ v.extractLsb' 8 24 = 0 then some .abort
    else if opOf v = 0x10 ∧ v.extractLsb' 8 24 = 0 then some .zero
    else if opOf v = 0x11 ∧ v.extractLsb' 8 8 = 0 ∧ v.extractLsb' 24 8 = 0 then some (.perm (argC v))
    else if opOf v = 0x12 ∧ v.extractLsb' 12 20 = 0 then some (.frame (argA v))
    else if opOf v = 0x13 ∧ v.extractLsb' 12 20 = 0 then some (.xlen (argA v))
    else if opOf v = 0x14 ∧ v.extractLsb' 8 24 = 0 then some .xw
    else if opOf v = 0x15 ∧ v.extractLsb' 12 20 = 0 then some (.xb (argA v))
    else if opOf v = 0x16 ∧ v.extractLsb' 12 20 = 0 then some (.rds (argA v))
    else if opOf v = 0x20 ∧ v.extractLsb' 8 24 = 0 then some .init
    else if opOf v = 0x21 ∧ v.extractLsb' 8 24 = 0 then some .adw
    else if opOf v = 0x22 ∧ v.extractLsb' 12 20 = 0 then some (.adp (argA v))
    else if opOf v = 0x23 ∧ v.extractLsb' 8 24 = 0 then some .encw
    else if opOf v = 0x24 ∧ v.extractLsb' 12 20 = 0 then some (.encp (argA v))
    else if opOf v = 0x25 ∧ v.extractLsb' 8 24 = 0 then some .decw
    else if opOf v = 0x26 ∧ v.extractLsb' 12 20 = 0 then some (.decp (argA v))
    else if opOf v = 0x27 ∧ v.extractLsb' 8 24 = 0 then some .fin
    else if opOf v = 0x28 ∧ v.extractLsb' 8 24 = 0 then some .verify
    else none := by
  unfold rowInstr rows
  rw [find_none v 0x00 0x00 _ _ rfl, find_none v 0x01 0x01 _ _ rfl, find_none v 0x10 0x10 _ _ rfl, find_C v 0x11 0x11 _ _ rfl,
    find_A v 0x12 0x12 _ _ rfl, find_A v 0x13 0x13 _ _ rfl, find_none v 0x14 0x14 _ _ rfl, find_A v 0x15 0x15 _ _ rfl,
    find_A v 0x16 0x16 _ _ rfl, find_none v 0x20 0x20 _ _ rfl, find_none v 0x21 0x21 _ _ rfl, find_A v 0x22 0x22 _ _ rfl,
    find_none v 0x23 0x23 _ _ rfl, find_A v 0x24 0x24 _ _ rfl, find_none v 0x25 0x25 _ _ rfl, find_A v 0x26 0x26 _ _ rfl,
    find_none v 0x27 0x27 _ _ rfl, find_none v 0x28 0x28 _ _ rfl, List.find?_nil]
  simp only [apply_ite (Option.map _), Option.map_some, Option.map_none]

end Sys2Proof.Laws
end

