-- ==== Sys2Proof/Laws/Exec.lean ====
section
/-! SUPPORT. What a decoded command can do, said once: `exec` is the issue checks around the command's effect. -/

namespace Sys2Proof.Machine

/-- The effect of a command that passed its checks, before its PHASE update. -/
def effectOf : Instr → State → State
  | .nop => id
  | .abort => State.abandon
  | .zero => fun s => { s with S := .zero }
  | .perm C => fun s => { s with S := stateUpdate s.S s.K C.toNat }
  | .frame A => fun s => { s with S := s.S.xorWord1 (frameConst A) }
  | .xlen A => fun s => { s with S := s.S.xorWord1 (zextArg A) }
  | .xw => fun s => { s with S := s.S.xorWord3 s.dinRead }
  | .xb A => fun s => { s with S := s.S.xorWord3 (s.dinRead &&& laneMask A.toNat) }
  | .rds A => fun s => { s with DOUT := s.S.get (wordIndex A) }
  | .init => fun s =>
    { s with S := initializeState s.K s.N, TAG := .zero, DOUT := 0, AUTH_VALID := false, AUTH_OK := false }
  | .adw => fun s => { s with S := (framedUpdate fbAD chunksShort s.K s.S).xorWord3 s.dinRead }
  | .adp A => fun s =>
    { s with
      S := (framedUpdate fbAD chunksShort s.K s.S).xorTail (s.dinRead &&& laneMask A.toNat) (zextArg A) }
  | .encw => fun s =>
    let S := framedUpdate fbPC chunksLong s.K s.S
    { s with S := S.xorWord3 s.dinRead, DOUT := S.s2 ^^^ s.dinRead }
  | .encp A => fun s =>
    let S := framedUpdate fbPC chunksLong s.K s.S
    let P := s.dinRead &&& laneMask A.toNat
    { s with S := S.xorTail P (zextArg A), DOUT := (S.s2 ^^^ P) &&& laneMask A.toNat }
  | .decw => fun s =>
    let S := framedUpdate fbPC chunksLong s.K s.S
    let P := S.s2 ^^^ s.dinRead
    { s with S := S.xorWord3 P, DOUT := P }
  | .decp A => fun s =>
    let S := framedUpdate fbPC chunksLong s.K s.S
    let P := (S.s2 ^^^ s.dinRead) &&& laneMask A.toNat
    { s with S := S.xorTail P (zextArg A), DOUT := P }
  | .fin => fun s => { s with S := (finalize s.K s.S).1, TAG := (finalize s.K s.S).2 }
  | .verify => fun s => { s with AUTH_OK := tagDiff s.TAG s.RT == 0, AUTH_VALID := true }

theorem exec_eq_issueChecked (i : Instr) (s : State) : exec i s = issueChecked i (effectOf i) s := by
  cases i <;> rfl

/-- No effect writes K, N, RT, DIN or anything of the port (10_state.md R23, R24, R26, R27). -/
theorem effectOf_frame (i : Instr) (s : State) :
    (effectOf i s).K = s.K ∧ (effectOf i s).N = s.N ∧ (effectOf i s).RT = s.RT ∧ (effectOf i s).DIN = s.DIN ∧
      (effectOf i s).inFlight = s.inFlight ∧ (effectOf i s).held = s.held ∧ (effectOf i s).port = s.port ∧
      (effectOf i s).answers = s.answers ∧ (effectOf i s).freeReads = s.freeReads := by
  cases i <;> exact ⟨rfl, rfl, rfl, rfl, rfl, rfl, rfl, rfl, rfl⟩

/-- An effect keeps ERR at 0: only ABORT writes it, to 0. -/
theorem effectOf_ERR (i : Instr) {s : State} (h : s.ERR = false) : (effectOf i s).ERR = false := by
  cases i <;> first | exact h | rfl

/-- What one command can do: it is ignored, rejected with BAD_ARG or SEQUENCE, or it was accepted and has its effect and
its next PHASE (30_encoding.md R65, R63). -/
inductive ExecCase (i : Instr) (s : State) : State → Prop where
  | ignored (err : s.ERR = true) (notAbort : runsInError i = false) : ExecCase i s s
  | badArg (runs : s.ERR = true → runsInError i = true) (arg : i.argInRange = false) : ExecCase i s (s.raiseCmdError .badArg)
  | sequence (runs : s.ERR = true → runsInError i = true) (arg : i.argInRange = true) (phase : admitted i s.PHASE = false) :
    ExecCase i s (s.raiseCmdError .sequence)
  | ran (runs : s.ERR = true → runsInError i = true) (arg : i.argInRange = true) (phase : admitted i s.PHASE = true) :
    ExecCase i s { effectOf i s with PHASE := nextPhase i s.PHASE }

theorem exec_cases {i : Instr} {s t : State} (h : exec i s = .next t) : ExecCase i s t := by
  rw [exec_eq_issueChecked, issueChecked] at h
  split at h
  case isTrue h1 =>
    obtain ⟨he, hr⟩ := Bool.and_eq_true_iff.mp h1
    cases h
    exact .ignored he (by simpa using hr)
  case isFalse h1 =>
    have runs : s.ERR = true → runsInError i = true := fun he => by simpa [he] using h1
    split at h
    case isTrue h2 => cases h; exact .badArg runs (by simpa using h2)
    case isFalse h2 =>
      have arg : i.argInRange = true := by simpa using h2
      split at h
      case isTrue h3 => cases h; exact .sequence runs arg (by simpa using h3)
      case isFalse h3 => cases h; exact .ran runs arg (by simpa using h3)

/-- Every command answers a next state in every state. -/
theorem exec_next (i : Instr) (s : State) : ∃ t, exec i s = .next t := by
  rw [exec_eq_issueChecked, issueChecked]
  split
  · exact ⟨_, rfl⟩
  · split
    · exact ⟨_, rfl⟩
    · split <;> exact ⟨_, rfl⟩

/-- An accepted command has its effect and its next PHASE. -/
theorem exec_of_accepts {i : Instr} {s : State} (h : s.accepts i = true) :
    exec i s = .next { effectOf i s with PHASE := nextPhase i s.PHASE } := by
  simp only [State.accepts, Bool.and_eq_true] at h
  obtain ⟨⟨h1, h2⟩, h3⟩ := h
  have : (s.ERR && !runsInError i) = false := by
    cases hE : s.ERR <;> simp_all
  simp [exec_eq_issueChecked, issueChecked, this, h2, h3]

/-- With ERR = 1 only ABORT runs (60_exceptions.md R117). -/
theorem exec_ignored {i : Instr} {s : State} (h : s.ERR = true) (hi : runsInError i = false) : exec i s = .next s := by
  simp [exec_eq_issueChecked, issueChecked, h, hi]

theorem exec_badArg {i : Instr} {s : State} (h : s.ERR = false) (ha : i.argInRange = false) :
    exec i s = .next (s.raiseCmdError .badArg) := by
  simp [exec_eq_issueChecked, issueChecked, h, ha]

theorem exec_sequence {i : Instr} {s : State} (h : s.ERR = false) (ha : i.argInRange = true)
    (hp : admitted i s.PHASE = false) : exec i s = .next (s.raiseCmdError .sequence) := by
  simp [exec_eq_issueChecked, issueChecked, h, ha, hp]

/-- The decoder's operand check and the legal values of R59 agree. -/
theorem argInRange_eq_wellFormed (i : Instr) : i.argInRange = i.wellFormed := by
  cases i <;> rfl

/-- The frame of a whole command: K, N, RT, DIN and the port. -/
theorem exec_frame {i : Instr} {s t : State} (h : exec i s = .next t) :
    t.K = s.K ∧ t.N = s.N ∧ t.RT = s.RT ∧ t.DIN = s.DIN ∧ t.inFlight = s.inFlight ∧ t.held = s.held ∧ t.port = s.port ∧
      t.answers = s.answers ∧ t.freeReads = s.freeReads := by
  cases exec_cases h with
  | ran => exact effectOf_frame i s
  | _ => exact ⟨rfl, rfl, rfl, rfl, rfl, rfl, rfl, rfl, rfl⟩

/-- A command acts on the engine's registers alone: other answers, events to come and held accesses change nothing of it. -/
theorem exec_port_irrelevant {i : Instr} {s t : State} (h : exec i s = .next t) (hd : Option Access) (es : List PortEvent)
    (as : List Answer) (n : Nat) :
    exec i { s with held := hd, port := es, answers := as, freeReads := n }
      = .next { t with held := hd, port := es, answers := as, freeReads := n } := by
  have key : exec i { s with held := hd, port := es, answers := as, freeReads := n }
      = andThen (exec i s) (fun u => .next { u with held := hd, port := es, answers := as, freeReads := n }) := by
    simp only [exec_eq_issueChecked, issueChecked]
    split
    · rfl
    · split
      · rfl
      · split
        · rfl
        · cases i <;> rfl
  rw [key, h]; rfl

end Sys2Proof.Machine
end

