-- ==== Sys2Proof/Laws/PerInstr.lean ====
section
/-! SUPPORT. Statements about every command as syntax, one lemma per constructor. -/

namespace Sys2Proof.Laws.RowOfWord

/-- The row that covers a command's word is the command's own, and its operand is read back (30_encoding.md R60). -/
def Statement (i : Instr) : Prop := rowInstr (encode i) = some i

theorem nop : Statement .nop := by unfold Statement; decide
theorem abort : Statement .abort := by unfold Statement; decide
theorem zero : Statement .zero := by unfold Statement; decide
theorem perm (C : BitVec 8) : Statement (.perm C) := by unfold Statement; revert C; decide
theorem frame (A : BitVec 4) : Statement (.frame A) := by unfold Statement; revert A; decide
theorem xlen (A : BitVec 4) : Statement (.xlen A) := by unfold Statement; revert A; decide
theorem xw : Statement .xw := by unfold Statement; decide
theorem xb (A : BitVec 4) : Statement (.xb A) := by unfold Statement; revert A; decide
theorem rds (A : BitVec 4) : Statement (.rds A) := by unfold Statement; revert A; decide
theorem init : Statement .init := by unfold Statement; decide
theorem adw : Statement .adw := by unfold Statement; decide
theorem adp (A : BitVec 4) : Statement (.adp A) := by unfold Statement; revert A; decide
theorem encw : Statement .encw := by unfold Statement; decide
theorem encp (A : BitVec 4) : Statement (.encp A) := by unfold Statement; revert A; decide
theorem decw : Statement .decw := by unfold Statement; decide
theorem decp (A : BitVec 4) : Statement (.decp A) := by unfold Statement; revert A; decide
theorem fin : Statement .fin := by unfold Statement; decide
theorem verify : Statement .verify := by unfold Statement; decide

end Sys2Proof.Laws.RowOfWord
end

