-- ==== Sys2Proof/Laws/Permutation.lean ====
section
/-! SUPPORT. Laws of the permutation: one step word by word, the key-word index, chunks in a row. -/

namespace Sys2Proof.Machine

/-! ### One step, word by word (40_permutation.md R70) -/

theorem wordStep_0 (K : KeyWords) (S0 S1 S2 S3 : Word) (j : Fin 6) :
    wordStep K 0 (⟨S0, S1, S2, S3⟩, j) = (⟨feedback S0 S1 S2 S3 (K.get j), S1, S2, S3⟩, j + 1) := rfl
theorem wordStep_1 (K : KeyWords) (S0 S1 S2 S3 : Word) (j : Fin 6) :
    wordStep K 1 (⟨S0, S1, S2, S3⟩, j) = (⟨S0, feedback S1 S2 S3 S0 (K.get j), S2, S3⟩, j + 1) := rfl
theorem wordStep_2 (K : KeyWords) (S0 S1 S2 S3 : Word) (j : Fin 6) :
    wordStep K 2 (⟨S0, S1, S2, S3⟩, j) = (⟨S0, S1, feedback S2 S3 S0 S1 (K.get j), S3⟩, j + 1) := rfl
theorem wordStep_3 (K : KeyWords) (S0 S1 S2 S3 : Word) (j : Fin 6) :
    wordStep K 3 (⟨S0, S1, S2, S3⟩, j) = (⟨S0, S1, S2, feedback S3 S0 S1 S2 (K.get j)⟩, j + 1) := rfl

/-- A step is undone by the same step with the target word it wrote: the feedback is xored in (R75 d). -/
theorem feedback_feedback (x a b d k : Word) : feedback (feedback x a b d k) a b d k = x := by
  simp only [feedback]
  ext i hi
  simp only [BitVec.getElem_xor, BitVec.getElem_not, BitVec.getElem_and]
  generalize x[i] = x; generalize k[i] = k
  generalize ((a >>> 15) ||| (b <<< 17))[i] = t1; generalize ((b >>> 27) ||| (d <<< 5))[i] = t4
  generalize ((b >>> 6) ||| (d <<< 26))[i] = t2; generalize ((b >>> 21) ||| (d <<< 11))[i] = t3
  revert x k t1 t4 t2 t3; decide

/-- The key-word index moves by four in a chunk, whatever the state (R70). -/
theorem chunk_index (K : KeyWords) (p : Block × Fin 6) : (chunk K p).2 = p.2 + 4 := by
  obtain ⟨S, j⟩ := p
  show j + 1 + 1 + 1 + 1 = j + 4
  revert j; decide

@[simp] theorem chunks_zero (K : KeyWords) (p : Block × Fin 6) : chunks K 0 p = p := rfl

theorem chunks_succ (K : KeyWords) (n : Nat) (p : Block × Fin 6) : chunks K (n + 1) p = chunks K n (chunk K p) := rfl

/-- Chunks in a row, the index carried over. -/
theorem chunks_add (K : KeyWords) (m n : Nat) (p : Block × Fin 6) : chunks K (m + n) p = chunks K n (chunks K m p) := by
  induction m generalizing p with
  | zero => simp
  | succ m ih => rw [Nat.succ_add_eq_add_succ, Nat.add_succ, chunks_succ, ih, chunks_succ]

end Sys2Proof.Machine
end

