-- ==== Sys2Proof/Laws/Port.lean ====
section
/-! SUPPORT. What the port and a step can do, said once. -/

namespace Sys2Proof.Machine

/-! ### The register map -/

theorem regAt_offset (r : Reg) : regAt r.offset = some r := by
  cases r with
  | key i => fin_cases i <;> rfl
  | nonce i => fin_cases i <;> rfl
  | rtag i => fin_cases i <;> rfl
  | tag i => fin_cases i <;> rfl
  | _ => rfl

/-- An offset reaches no register exactly when it is misaligned or in 0x44..0xFC (20_memory.md R42, R43). -/
theorem regAt_eq_none_iff (off : BitVec 8) : regAt off = none ↔ off.toNat % 4 ≠ 0 ∨ 0x44 ≤ off.toNat := by
  revert off; decide

theorem Access.reg_eq_none_iff (a : Access) :
    a.reg = none ↔ a.size ≠ 4 ∨ a.off.toNat % 4 ≠ 0 ∨ 0x44 ≤ a.off.toNat := by
  unfold Access.reg
  by_cases h : a.size = 4 <;> simp [h, regAt_eq_none_iff]

/-! ### Results -/

@[simp] theorem andThen_next (s : State) (f : State → Result) : andThen (.next s) f = f s := rfl
@[simp] theorem andThen_fault (e : Fault) (f : State → Result) : andThen (.fault e) f = .fault e := rfl
@[simp] theorem andThen_refused (e : Refusal) (f : State → Result) : andThen (.refused e) f = .refused e := rfl

theorem andThen_eq_next {r : Result} {f : State → Result} {t : State} (h : andThen r f = .next t) :
    ∃ u, r = .next u ∧ f u = .next t := by
  cases r with
  | next u => exact ⟨u, rfl, h⟩
  | fault e => cases h
  | refused e => cases h

theorem andThen_assoc (r : Result) (f g : State → Result) :
    andThen (andThen r f) g = andThen r (fun s => andThen (f s) g) := by
  cases r <;> rfl

/-! ### Issue -/

/-- What issuing a word can do. -/
inductive IssueCase (w : Word) (s : State) : State → Prop where
  | illegalIgnored (hw : decode w = .illegal) (err : s.ERR = true) : IssueCase w s s
  | illegal (hw : decode w = .illegal) (err : s.ERR = false) : IssueCase w s (s.raiseCmdError .illegalCommand)
  | started (i : Instr) (hw : decode w = .cmd i) (acc : s.accepts i = true) (busy : goesBusy i = true) :
    IssueCase w s (s.start i)
  | executed (i : Instr) (hw : decode w = .cmd i ∨ decode w = .badArg i) (t : State)
    (quick : decode w = .cmd i → (s.accepts i && goesBusy i) = false) (run : exec i s = .next t) : IssueCase w s t

theorem issue_cases {w : Word} {s t : State} (h : issue w s = .next t) : IssueCase w s t := by
  unfold issue at h
  split at h
  case h_1 hw =>
    cases he : s.ERR <;> simp [he] at h <;> cases h
    · exact .illegal hw he
    · exact .illegalIgnored hw he
  case h_2 i hw => exact .executed i (.inr hw) t (fun h' => by simp [hw] at h') h
  case h_3 i hw =>
    split at h
    case isTrue hb =>
      cases h
      obtain ⟨h1, h2⟩ := Bool.and_eq_true_iff.mp hb
      exact .started i hw h1 h2
    case isFalse hb => exact .executed i (.inl hw) t (fun _ => by simpa using hb) h

theorem issue_next (w : Word) (s : State) : ∃ t, issue w s = .next t := by
  unfold issue
  split
  · exact ⟨_, rfl⟩
  · exact exec_next _ _
  · split
    · exact ⟨_, rfl⟩
    · exact exec_next _ _

/-- Issue leaves the inputs and the port alone; it may put a command in flight. -/
theorem issue_frame {w : Word} {s t : State} (h : issue w s = .next t) :
    t.K = s.K ∧ t.N = s.N ∧ t.RT = s.RT ∧ t.DIN = s.DIN ∧ t.held = s.held ∧ t.port = s.port ∧
      t.answers = s.answers ∧ t.freeReads = s.freeReads := by
  cases issue_cases h with
  | executed i hw t hq hr =>
    obtain ⟨h1, h2, h3, h4, -, h6, h7, h8, h9⟩ := exec_frame hr
    exact ⟨h1, h2, h3, h4, h6, h7, h8, h9⟩
  | _ => exact ⟨rfl, rfl, rfl, rfl, rfl, rfl, rfl, rfl⟩

/-! ### Performing an access -/

theorem performOn_read (r : Reg) (s : State) : performOn r .read s = .next (s.answer (.data (s.readReg r))) := rfl

theorem performOn_write_cmd (w : Word) (s : State) :
    performOn .cmd (.write w) s = andThen (issue w s) (fun t => .next (t.answer .done)) := rfl

theorem performOn_write {r : Reg} (hr : r ≠ .cmd) (v : Word) (s : State) :
    performOn r (.write v) s = .next ((s.writeReg r v).answer .done) := by
  cases r <;> first | rfl | exact absurd rfl hr

theorem performOn_next (r : Reg) (op : AccessOp) (s : State) : ∃ t, performOn r op s = .next t := by
  cases op with
  | read => exact ⟨_, rfl⟩
  | write v =>
    by_cases hr : r = .cmd
    · obtain ⟨t, ht⟩ := issue_next v s
      exact ⟨t.answer .done, by rw [hr, performOn_write_cmd, ht]; rfl⟩
    · exact ⟨_, performOn_write hr v s⟩

theorem perform_of_reg {a : Access} {r : Reg} (h : a.reg = some r) (s : State) : perform a s = performOn r a.op s := by
  simp [perform, h]

theorem perform_of_none {a : Access} (h : a.reg = none) (s : State) : perform a s = .fault (.busError a.addr) := by
  simp [perform, h]

/-- What performing an access can do. -/
inductive PerformCase (a : Access) (s : State) : State → Prop where
  | read (r : Reg) (hr : a.reg = some r) (hop : a.op = .read) : PerformCase a s (s.answer (.data (s.readReg r)))
  | issued (w : Word) (hr : a.reg = some .cmd) (hop : a.op = .write w) (u : State) (hu : issue w s = .next u) :
    PerformCase a s (u.answer .done)
  | written (r : Reg) (v : Word) (hr : a.reg = some r) (hne : r ≠ .cmd) (hop : a.op = .write v) :
    PerformCase a s ((s.writeReg r v).answer .done)

theorem perform_cases {a : Access} {s t : State} (h : perform a s = .next t) : PerformCase a s t := by
  cases hr : a.reg with
  | none => rw [perform_of_none hr] at h; cases h
  | some r =>
    rw [perform_of_reg hr] at h
    cases hop : a.op with
    | read => rw [hop, performOn_read] at h; cases h; exact .read r hr hop
    | write v =>
      rw [hop] at h
      by_cases hc : r = .cmd
      · subst hc
        rw [performOn_write_cmd] at h
        obtain ⟨u, hu, h2⟩ := andThen_eq_next h
        cases h2
        exact .issued v hr hop u hu
      · rw [performOn_write hc] at h
        cases h
        exact .written r v hr hc hop

/-! ### A step -/

/-- The host's side of a busy cycle touches nothing but the port. -/
theorem hostWhileBusy_frame {s t : State} (h : hostWhileBusy s = .next t) :
    t = { s with held := t.held, port := t.port, answers := t.answers } := by
  unfold hostWhileBusy at h
  split at h
  · cases h; rfl
  · split at h
    · cases h; rfl
    · rename_i a rest hp hh
      unfold presentBusy at h
      split at h
      · cases h
      · split at h
        · rename_i r hr hs
          simp only [isStatusRead, Bool.and_eq_true, beq_iff_eq] at hs
          rw [hs.2, performOn_read] at h
          cases h; rfl
        · cases h; rfl
  · cases h; rfl

/-- What a step can do. -/
inductive StepCase (s : State) : State → Prop where
  /-- the reset input -/
  | reset (rest : List PortEvent) (hp : s.port = .reset :: rest) : StepCase s (s.applyReset rest)
  /-- a cycle of the command in flight -/
  | runs (f : InFlight) (hf : s.inFlight = some f) (hr : 1 < f.remaining) (u : State) (hu : hostWhileBusy s = .next u) :
    StepCase s { u with inFlight := some { f with remaining := f.remaining - 1 } }
  /-- the command in flight completes -/
  | completes (f : InFlight) (hf : s.inFlight = some f) (hr : f.remaining ≤ 1) (u : State) (hu : hostWhileBusy s = .next u)
    (v : State) (hv : exec f.cmd u = .next v) : StepCase s { v with inFlight := none }
  /-- the held access is performed -/
  | performsHeld (a : Access) (hf : s.inFlight = none) (hh : s.held = some a) (t : State)
    (ht : perform a { s with held := none } = .next t) : StepCase s t
  /-- the access presented is performed -/
  | performsNext (a : Access) (rest : List PortEvent) (hf : s.inFlight = none) (hh : s.held = none)
    (hp : s.port = .access a :: rest) (t : State) (ht : perform a { s with port := rest } = .next t) : StepCase s t
  /-- a cycle in which nothing is presented -/
  | idles (rest : List PortEvent) (hf : s.inFlight = none) (hh : s.held = none) (hp : s.port = .cycle :: rest) :
    StepCase s { s with port := rest }
  /-- nothing is to come -/
  | waits (hf : s.inFlight = none) (hh : s.held = none) (hp : s.port = []) : StepCase s s

theorem step_reset {s : State} {rest : List PortEvent} (h : s.port = .reset :: rest) :
    step s = .next (s.applyReset rest) := by
  simp [step, engineCycle, h]

theorem step_busy {s : State} {f : InFlight} (hf : s.inFlight = some f) (hp : ∀ rest, s.port ≠ .reset :: rest) :
    step s = andThen (hostWhileBusy s) (runInFlight f) := by
  unfold step engineCycle
  split
  · rename_i rest h; exact absurd h (hp rest)
  · simp [hf]

theorem step_idle {s : State} (hf : s.inFlight = none) (hp : ∀ rest, s.port ≠ .reset :: rest) :
    step s = hostWhileIdle s := by
  unfold step engineCycle
  split
  · rename_i rest h; exact absurd h (hp rest)
  · simp [hf]

theorem step_held {s : State} {a : Access} (hf : s.inFlight = none) (hh : s.held = some a)
    (hp : ∀ rest, s.port ≠ .reset :: rest) : step s = perform a { s with held := none } := by
  rw [step_idle hf hp]; simp [hostWhileIdle, hh]

theorem step_access {s : State} {a : Access} {rest : List PortEvent} (hf : s.inFlight = none) (hh : s.held = none)
    (hp : s.port = .access a :: rest) : step s = perform a { s with port := rest } := by
  rw [step_idle hf (by simp [hp])]; simp [hostWhileIdle, hh, hp]

theorem step_cycle {s : State} {rest : List PortEvent} (hf : s.inFlight = none) (hh : s.held = none)
    (hp : s.port = .cycle :: rest) : step s = .next { s with port := rest } := by
  rw [step_idle hf (by simp [hp])]; simp [hostWhileIdle, hh, hp]

theorem step_wait {s : State} (hf : s.inFlight = none) (hh : s.held = none) (hp : s.port = []) : step s = .next s := by
  rw [step_idle hf (by simp [hp])]; simp [hostWhileIdle, hh, hp]

theorem step_cases {s t : State} (h : step s = .next t) : StepCase s t := by
  by_cases hp : ∃ rest, s.port = .reset :: rest
  · obtain ⟨rest, hp⟩ := hp
    rw [step_reset hp] at h; cases h; exact .reset rest hp
  · have hp' : ∀ rest, s.port ≠ .reset :: rest := fun rest hr => hp ⟨rest, hr⟩
    cases hf : s.inFlight with
    | some f =>
      rw [step_busy hf hp'] at h
      obtain ⟨u, hu, h2⟩ := andThen_eq_next h
      unfold runInFlight at h2
      split at h2
      · rename_i hr
        obtain ⟨v, hv, h3⟩ := andThen_eq_next h2
        cases h3
        exact .completes f hf hr u hu v hv
      · rename_i hr
        cases h2
        exact .runs f hf (by omega) u hu
    | none =>
      cases hh : s.held with
      | some a => rw [step_held hf hh hp'] at h; exact .performsHeld a hf hh t h
      | none =>
        cases hport : s.port with
        | nil => rw [step_wait hf hh hport] at h; cases h; exact .waits hf hh hport
        | cons e rest =>
          cases e with
          | reset => exact absurd hport (hp' rest)
          | cycle => rw [step_cycle hf hh hport] at h; cases h; exact .idles rest hf hh hport
          | access a => rw [step_access hf hh hport] at h; exact .performsNext a rest hf hh hport t h

/-! ### Runs -/

theorem run_zero (s : State) : core.run 0 s = .next s := rfl

theorem coreRun_succ (M : Host.Core) (n : Nat) {s t : M.State} (h : M.step s = .next t) : M.run (n + 1) s = M.run n t := by
  rw [Host.Core.run.eq_2, h]

/-- A run goes on from the state a step leads to. -/
theorem run_succ (n : Nat) {s t : State} (h : step s = .next t) : core.run (n + 1) s = core.run n t :=
  coreRun_succ core n h

/-! ### Completion -/

/-- The command in flight always completes, and nothing is in flight then. -/
theorem complete_next (f : InFlight) (s : State) : ∃ t, complete f s = .next t ∧ t.inFlight = none := by
  obtain ⟨t, ht⟩ := exec_next f.cmd s
  exact ⟨{ t with inFlight := none }, by rw [complete, ht]; rfl, rfl⟩

/-- How many cycles a command had left does not change what its completion does. -/
theorem complete_remaining {f : InFlight} {s : State} (hf : s.inFlight = some f) (n : Nat) :
    complete { f with remaining := n } { s with inFlight := some { f with remaining := n } } = complete f s := by
  simp only [complete, exec_eq_issueChecked, issueChecked]
  have hd : ({ s with inFlight := some { f with remaining := n } } : State).dinRead = s.dinRead := by
    simp [State.dinRead, hf]
  split
  · rfl
  · split
    · rfl
    · split
      · rfl
      · obtain ⟨c, d, r⟩ := f
        cases c <;> simp only [effectOf, hd] <;> rfl

/-- A command just started completes with its whole effect on the state it was issued in. -/
theorem complete_start {i : Instr} {s : State} (hf : s.inFlight = none) (acc : s.accepts i = true) (x : List Answer) :
    complete ⟨i, s.DIN, Config.latency i⟩ { s.start i with answers := x }
      = .next { effectOf i s with PHASE := nextPhase i s.PHASE, answers := x } := by
  have acc' : ({ s.start i with answers := x } : State).accepts i = true := acc
  have hd : ({ s.start i with answers := x } : State).dinRead = s.dinRead := by
    rw [State.dinRead_idle hf]; rfl
  rw [complete, exec_of_accepts acc', andThen_next]
  cases i <;> simp only [effectOf, hd] <;> cases s <;> simp_all [State.start, State.abandon]

end Sys2Proof.Machine
end

