-- ==== Sys2Proof/Laws/Procedure.lean ====
section
/-! SUPPORT. What the accesses of a host do as atomic transactions (30_encoding.md R67, 70_reset_and_hazards.md R138),
what a run returns, and the written commands. -/

namespace Sys2Proof.Machine

theorem wr_reg (r : Reg) (v : Word) : (wr r v).reg = some r := by simp [wr, Access.reg, regAt_offset]
theorem rd_reg (r : Reg) : (rd r).reg = some r := by simp [rd, Access.reg, regAt_offset]

/-- A write to a register other than CMD. -/
theorem transact_write {s : State} (hf : s.inFlight = none) {r : Reg} (hr : r ≠ .cmd) (v : Word) :
    transact (wr r v) s = .next ((s.writeReg r v).answer .done) := by
  have hn : ((s.writeReg r v).answer .done).inFlight = none := by cases r <;> exact hf
  rw [transact, perform_of_reg (wr_reg r v)]
  show andThen (performOn r (.write v) s) settle = _
  rw [performOn_write hr, andThen_next, settle, hn]

/-- A read. -/
theorem transact_read {s : State} (hf : s.inFlight = none) (r : Reg) :
    transact (rd r) s = .next (s.answer (.data (s.readReg r))) := by
  rw [transact, perform_of_reg (rd_reg r)]
  show andThen (performOn r .read s) settle = _
  rw [performOn_read, andThen_next, settle, State.answer_inFlight, hf]

/-- An accepted command, whether it goes busy or not. -/
theorem transact_cmd {i : Instr} {s : State} (hd : decode (encode i) = .cmd i) (hf : s.inFlight = none)
    (acc : s.accepts i = true) :
    transact (cmd i) s
      = .next { effectOf i s with PHASE := nextPhase i s.PHASE, answers := s.answers ++ [.done] } := by
  rw [transact, cmd, perform_of_reg (wr_reg .cmd (encode i))]
  show andThen (performOn .cmd (.write (encode i)) s) settle = _
  rw [performOn_write_cmd]
  unfold issue
  rw [hd]
  simp only [acc, Bool.true_and]
  split
  · rw [andThen_next, andThen_next]
    exact complete_start hf acc _
  · rw [exec_of_accepts acc, andThen_next, andThen_next]
    have hfr := effectOf_frame i s
    have hn : (({ effectOf i s with PHASE := nextPhase i s.PHASE } : State).answer .done).inFlight = none :=
      hfr.2.2.2.2.1.trans hf
    rw [settle, hn]
    show Host.Outcome.next { effectOf i s with
      PHASE := nextPhase i s.PHASE, answers := (effectOf i s).answers ++ [Answer.done] } = _
    rw [hfr.2.2.2.2.2.2.2.1]

theorem transactAll_cons {a : Access} {s u : State} (h : transact a s = .next u) (rest : List Access) :
    transactAll (a :: rest) s = transactAll rest u := by
  rw [transactAll, h]; rfl

theorem transactAll_append (as bs : List Access) (s : State) :
    transactAll (as ++ bs) s = andThen (transactAll as s) (transactAll bs) := by
  induction as generalizing s with
  | nil => rfl
  | cons a as ih =>
    show andThen (transact a s) (transactAll (as ++ bs)) = andThen (andThen (transact a s) (transactAll as)) (transactAll bs)
    rw [andThen_assoc]
    exact congrArg (andThen (transact a s)) (funext fun u => ih u)

theorem execAll_cons {i : Instr} {s u : State} (h : exec i s = .next u) (rest : List Instr) :
    execAll (i :: rest) s = execAll rest u := by
  rw [execAll, h]; rfl

theorem readValues_append (xs ys : List Answer) : readValues (xs ++ ys) = readValues xs ++ readValues ys := by
  induction xs with
  | nil => rfl
  | cons x xs ih => cases x <;> simp [readValues, ih]

/-! ### Inputs of fewer than 8 bytes, and the result of a run (45_facade.md R111, R114) -/

theorem decryptProcedure_short {c : List Byte} (h : c.length < 8) (key : Key) (nonce : Nonce) (ad : List Byte) :
    decryptProcedure key nonce ad c = [] := if_pos h
theorem decryptProcedure_long {c : List Byte} (h : 8 ≤ c.length) (key : Key) (nonce : Nonce) (ad : List Byte) :
    decryptProcedure key nonce ad c = ldkey key ++ ldnonce nonce ++ ldtag (receivedTag c) ++ [cmd .init]
      ++ adAccesses ad ++ decryptAccesses (bodyOf c) ++ [cmd .fin, cmd .verify, rd .status] := if_neg (Nat.not_lt.mpr h)
theorem decryptResult_short {c : List Byte} (h : c.length < 8) (answers : List Answer) :
    decryptResult c answers = none := if_pos h

theorem runResult_next {s : State} (h : s.atRest = true) (returned : List Answer → Option (List Byte)) :
    runResult returned (.next s) = some (returned s.answers, s) := if_pos h
theorem faultyRun_next {s : State} (h : s.ERR = false) (returned : List Answer → Option (List Byte)) :
    faultyRun returned (.next s) = (returned s.answers).isNone := by simp [faultyRun, h]

/-! ### Written commands (30_encoding.md R66) -/

/-- What is read is a command of the mnemonic it was written with, and a frame name stands with FRAME only. -/
theorem readLine_mnemonic {m : String} {o : Option OperandText} {i : Instr} (h : readLine m o = some i) :
    m = i.mnemonic ∧ (o = some .iv ∨ o = some .ad ∨ o = some .pc ∨ o = some .fin → m = "FRAME") := by
  unfold readLine at h
  split at h <;> simp only [Option.some.injEq, Option.map_eq_some_iff, reduceCtorEq] at h <;>
    (try obtain ⟨x, hx, rfl⟩ := h) <;> simp [Instr.mnemonic]

/-- A word assembled is the word of a command read with a legal operand. -/
theorem assemble_eq_some {m : String} {o : Option OperandText} {w : Word} (h : assemble m o = some w) :
    ∃ i, readLine m o = some i ∧ i.wellFormed = true ∧ encode i = w := by
  unfold assemble at h
  split at h
  · next i hi => split at h <;> simp at h; exact ⟨i, hi, by assumption, h⟩
  · simp at h

/-! ### The tail of 1 to 3 bytes (20_memory.md R52) -/

/-- The word of a tail has its unused lanes zero. -/
theorem tailWord_masked (a b c : Byte) :
    tailWord [a] &&& laneMask 1 = tailWord [a] ∧ tailWord [a, b] &&& laneMask 2 = tailWord [a, b] ∧
      tailWord [a, b, c] &&& laneMask 3 = tailWord [a, b, c] := by
  refine ⟨?_, ?_, ?_⟩ <;> apply word_ext <;>
    (rw [byteOf_and_laneMask _ (by decide) (by decide)]
     simp [tailWord, byteOf_le32_0, byteOf_le32_1, byteOf_le32_2, byteOf_le32_3])

/-- Folding a tail in lane by lane is folding in its word. -/
theorem xorLanes_tail (X : Word) (a b c : Byte) :
    xorLanes 0 [a] X = X ^^^ tailWord [a] ∧ xorLanes 0 [a, b] X = X ^^^ tailWord [a, b] ∧
      xorLanes 0 [a, b, c] X = X ^^^ tailWord [a, b, c] := by
  have l0 : ∀ (x : Byte) k, k ≤ 3 → byteOf (zextByte x <<< (8 * 0)) k = if k = 0 then x else 0 :=
    fun x k hk => byteOf_lane x (by decide) hk
  have l1 : ∀ (x : Byte) k, k ≤ 3 → byteOf (zextByte x <<< (8 * (0 + 1))) k = if k = 1 then x else 0 :=
    fun x k hk => byteOf_lane x (by decide) hk
  have l2 : ∀ (x : Byte) k, k ≤ 3 → byteOf (zextByte x <<< (8 * (0 + 1 + 1))) k = if k = 2 then x else 0 :=
    fun x k hk => byteOf_lane x (by decide) hk
  refine ⟨?_, ?_, ?_⟩ <;> apply word_ext <;>
    (simp only [xorLanes, byteOf_xor, l0 _ 0 (by decide), l0 _ 1 (by decide), l0 _ 2 (by decide), l0 _ 3 (by decide),
       l1 _ 0 (by decide), l1 _ 1 (by decide), l1 _ 2 (by decide), l1 _ 3 (by decide), l2 _ 0 (by decide),
       l2 _ 1 (by decide), l2 _ 2 (by decide), l2 _ 3 (by decide)]
     simp [tailWord, byteOf_le32_0, byteOf_le32_1, byteOf_le32_2, byteOf_le32_3])

end Sys2Proof.Machine
end

