-- ==== Sys2Proof/Tests/Slice0.lean ====
section
/-! SUPPORT. Tests of the model against values the spec gives (95_test_vectors.md, 30_encoding.md), and for every
obligation with hypotheses a witness that meets them. -/

open Sys2Proof Sys2Proof.Machine Sys2Proof.Spec

namespace Sys2Proof.Tests

/-! ### WellFormed refuses ill-formed operands (30_encoding.md R59) -/

theorem test_wf_frame : (Instr.frame 4).wellFormed = false ∧ (Instr.frame 3).wellFormed = true := by decide
theorem test_wf_xlen : (Instr.xlen 0).wellFormed = false ∧ (Instr.xlen 4).wellFormed = false := by decide
theorem test_wf_xb : (Instr.xb 0).wellFormed = false ∧ (Instr.xb 15).wellFormed = false := by decide
theorem test_wf_rds : (Instr.rds 4).wellFormed = false ∧ (Instr.rds 0).wellFormed = true := by decide
theorem test_wf_adp : (Instr.adp 0).wellFormed = false ∧ (Instr.adp 5).wellFormed = false := by decide
theorem test_wf_encp : (Instr.encp 0).wellFormed = false ∧ (Instr.encp 4).wellFormed = false := by decide
theorem test_wf_decp : (Instr.decp 0).wellFormed = false ∧ (Instr.decp 4).wellFormed = false := by decide

/-! ### Decoding, the words written out from the encoding column of spec/opcode_table.json -/

theorem test_decode_nop : decode 0b00000000000000000000000000000000 = .cmd .nop := by decide
theorem test_decode_abort : decode 0b00000000000000000000000000000001 = .cmd .abort := by decide
theorem test_decode_zero : decode 0b00000000000000000000000000010000 = .cmd .zero := by decide
theorem test_decode_perm : decode 0b00000000000010010000000000010001 = .cmd (.perm 9) := by decide
theorem test_decode_frame : decode 0b00000000000000000000001100010010 = .cmd (.frame 3) := by decide
theorem test_decode_xlen : decode 0b00000000000000000000001100010011 = .cmd (.xlen 3) := by decide
theorem test_decode_xw : decode 0b00000000000000000000000000010100 = .cmd .xw := by decide
theorem test_decode_xb : decode 0b00000000000000000000001100010101 = .cmd (.xb 3) := by decide
theorem test_decode_rds : decode 0b00000000000000000000001100010110 = .cmd (.rds 3) := by decide
theorem test_decode_init : decode 0b00000000000000000000000000100000 = .cmd .init := by decide
theorem test_decode_adw : decode 0b00000000000000000000000000100001 = .cmd .adw := by decide
theorem test_decode_adp : decode 0b00000000000000000000001100100010 = .cmd (.adp 3) := by decide
theorem test_decode_encw : decode 0b00000000000000000000000000100011 = .cmd .encw := by decide
theorem test_decode_encp : decode 0b00000000000000000000001100100100 = .cmd (.encp 3) := by decide
theorem test_decode_decw : decode 0b00000000000000000000000000100101 = .cmd .decw := by decide
theorem test_decode_decp : decode 0b00000000000000000000001100100110 = .cmd (.decp 3) := by decide
theorem test_decode_fin : decode 0b00000000000000000000000000100111 = .cmd .fin := by decide
theorem test_decode_verify : decode 0b00000000000000000000000000101000 = .cmd .verify := by decide

/-- 95_test_vectors.md ER15 to ER19: illegal words. -/
theorem test_decode_illegal : decode 0x00001021 = .illegal ∧ decode 0x00000029 = .illegal ∧ decode 0x00000111 = .illegal ∧
    decode 0x80000000 = .illegal ∧ decode 0x00000101 = .illegal := by decide
/-- 95_test_vectors.md ER8 to ER14: operands out of range. -/
theorem test_decode_badArg : decode 0x00000522 = .badArg (.adp 5) ∧ decode 0x00000015 = .badArg (.xb 0) ∧
    decode 0x00000416 = .badArg (.rds 4) ∧ decode 0x00000412 = .badArg (.frame 4) ∧ decode 0x00000013 = .badArg (.xlen 0) ∧
    decode 0x00000422 = .badArg (.adp 4) ∧ decode 0x00000026 = .badArg (.decp 0) := by decide

/-- 30_encoding.md R66 and R68: written commands and their words; an operand out of range is an error. -/
theorem test_assemble : assemble "PERM" (some (.number 9)) = some 0x00090011 ∧ assemble "FRAME" (some .ad) = some 0x00000112 ∧
    assemble "RDS" (some (.number 2)) = some 0x00000216 ∧ assemble "ADP" (some (.number 17)) = none ∧
    assemble "XB" (some (.number 0)) = none ∧ assemble "NOP" (some (.number 0)) = none ∧
    assemble "XLEN" (some .ad) = none ∧ assembleLine (.word 0x80000000) = some 0x80000000 := by decide

/-! ### States of 95_test_vectors.md -/

/-- The result is a next state with this property. -/
def after (r : Result) (p : State → Bool) : Bool :=
  match r with
  | .next t => p t
  | .fault _ => false
  | .refused _ => false

/-- K_A. -/
def keyA : KeyWords := ⟨0x03020100, 0x07060504, 0x0B0A0908, 0x0F0E0D0C, 0x13121110, 0x17161514⟩
/-- N_A. -/
def nonceA : NonceWords := ⟨0x03020100, 0x07060504, 0x0B0A0908⟩
/-- S_A. -/
def blockA : Block := ⟨0x03020100, 0x07060504, 0x0B0A0908, 0x0F0E0D0C⟩
/-- IV1. -/
def blockIV1 : Block := ⟨0xDA3B0E6B, 0xFE3499DB, 0x8E761DA4, 0xBBBB6A37⟩
/-- After the AD of program P3. -/
def blockP3 : Block := ⟨0xB85F47C9, 0xD578700D, 0x072AE8AF, 0xF32F7C6B⟩
/-- After MS4. -/
def blockMS4 : Block := ⟨0x90107DC1, 0x29073418, 0xA8D52914, 0x6EDAF925⟩

/-- K_A and N_A are loaded; the cipher state, the phase and DIN as given. -/
def stateA (S : Block) (p : Phase) (din : Word) : State :=
  { State.reset with K := keyA, N := nonceA, S := S, PHASE := p, DIN := din }

/-! ### The commands, one or two vectors each -/

theorem test_nop : after (exec .nop (stateA blockA .msg 7)) (· == stateA blockA .msg 7) = true := by decide
/-- ER21. -/
theorem test_abort_clears :
    after (exec .abort { stateA blockA .msg 7 with ERR := true, CAUSE := .sequence, DOUT := 9, TAG := ⟨1, 2⟩ })
      (fun t => t == stateA .zero .idle 7) = true := by decide
/-- PR1. -/
theorem test_zero : after (exec .zero (stateA blockA .ad 0)) (· == stateA ⟨0, 0, 0, 0⟩ .ad 0) = true := by decide
/-- PV1. -/
theorem test_perm_1 : after (exec (.perm 1) State.reset)
    (·.S == ⟨0xFFFFFFFF, 0xFC00001F, 0x800103FF, 0xF7F07FFF⟩) = true := by decide +kernel
/-- PV4: chunk 1 uses K[4], K[5], K[0], K[1]. -/
theorem test_perm_2 : after (exec (.perm 2) (stateA blockA .idle 0))
    (·.S == ⟨0x47184E34, 0x3C2798C2, 0x1EF6611C, 0xE5CA1F5A⟩) = true := by decide +kernel
/-- PR4, PR5. -/
theorem test_frame : after (exec (.frame 3) (stateA ⟨0, 0x07060507, 0, 0⟩ .idle 0)) (·.S == ⟨0, 0x07060577, 0, 0⟩) = true ∧
    after (exec (.frame 1) (stateA ⟨0, 0x07060577, 0, 0⟩ .idle 0)) (·.S == ⟨0, 0x07060547, 0, 0⟩) = true := by decide
/-- ER11. -/
theorem test_frame_badArg : after (exec (.frame 4) State.reset) (·.status == 0x00000202) = true := by decide
/-- PR3. -/
theorem test_xlen : after (exec (.xlen 3) (stateA blockA .idle 0)) (·.S.s1 == 0x07060507) = true := by decide
/-- PR8. -/
theorem test_xw : after (exec .xw (stateA blockA .idle 0x03020100)) (·.S.s3 == 0x0C0C0C0C) = true := by decide
/-- PR2, PR11. -/
theorem test_xb : after (exec (.xb 2) (stateA blockA .idle 0xAABBCCDD)) (·.S.s3 == 0x0F0EC1D1) = true ∧
    after (exec (.xb 1) (stateA .zero .idle 0xAABBCCDD)) (·.S.s3 == 0x000000DD) = true := by decide
/-- PR9. -/
theorem test_rds : after (exec (.rds 2) (stateA ⟨0xFFFFFFFF, 0xFC00001F, 0x800103FF, 0xF7F07FFF⟩ .idle 0))
    (·.DOUT == 0x800103FF) = true := by decide
/-- IV1. -/
theorem test_init : after (exec .init { stateA blockA .done 0 with TAG := ⟨1, 2⟩, DOUT := 3, AUTH_VALID := true })
    (fun t => t.S == blockIV1 && t.status == 0x00000010 && t.TAG == ⟨0, 0⟩ && t.DOUT == 0) = true := by decide +kernel
/-- AD1. -/
theorem test_adw : after (exec .adw (stateA blockIV1 .ad 0x03020100))
    (fun t => t.S == ⟨0x5A3AC662, 0x25F91C1A, 0xEFC3CC60, 0xD52DE89B⟩ && t.status == 0x00000010) = true := by decide +kernel
/-- AD2. -/
theorem test_adp_1 : after (exec (.adp 1) (stateA blockIV1 .ad 0))
    (fun t => t.S == ⟨0x5A3AC662, 0x25F91C1B, 0xEFC3CC60, 0xD62FE99B⟩ && t.status == 0x00000020) = true := by decide +kernel
/-- AD3: lanes 2 and 3 of DIN are ignored. -/
theorem test_adp_2 : after (exec (.adp 2) (stateA blockIV1 .ad 0xFFFFFFFF))
    (fun t => t.S == ⟨0x5A3AC662, 0x25F91C18, 0xEFC3CC60, 0xD62F1664⟩ && t.status == 0x00000020) = true := by decide +kernel
/-- MS4. -/
theorem test_encw : after (exec .encw (stateA blockP3 .msg 0x03020100))
    (fun t => t.S == blockMS4 && t.DOUT == 0xABD72814 && t.status == 0x00000020) = true := by decide +kernel
/-- MS2. -/
theorem test_encp_3 : after (exec (.encp 3) (stateA blockIV1 .ad 0xFF020100))
    (fun t => t.S == ⟨0x4B575AFE, 0xD2ED2013, 0x67D40F95, 0xE7C308FC⟩ && t.DOUT == 0x00D60E95 && t.status == 0x00000030)
      = true := by decide +kernel
/-- MS5. -/
theorem test_encp_1 : after (exec (.encp 1) (stateA blockMS4 .msg 0x00000004))
    (fun t => t.S == ⟨0xD134F60D, 0x721FEC4D, 0x8E8668FA, 0x9AF0F102⟩ && t.DOUT == 0x000000FE && t.status == 0x00000030)
      = true := by decide +kernel
/-- MS6. -/
theorem test_decw : after (exec .decw (stateA blockP3 .msg 0xABD72814))
    (fun t => t.S == blockMS4 && t.DOUT == 0x03020100 && t.status == 0x00000020) = true := by decide +kernel
/-- MS7. -/
theorem test_decp : after (exec (.decp 1) (stateA blockMS4 .msg 0x000000FE))
    (fun t => t.S == ⟨0xD134F60D, 0x721FEC4D, 0x8E8668FA, 0x9AF0F102⟩ && t.DOUT == 0x00000004 && t.status == 0x00000030)
      = true := by decide +kernel
/-- FN1. -/
theorem test_fin : after (exec .fin (stateA blockIV1 .ad 0))
    (fun t => t.S == ⟨0xAE9BC956, 0x95C7193D, 0xC5F13022, 0x934E75D5⟩ && t.TAG == ⟨0x6446CA44, 0xC5F13022⟩
      && t.status == 0x00000040) = true := by decide +kernel
/-- ER6: a second FIN. -/
theorem test_fin_in_done : after (exec .fin (stateA blockIV1 .done 0)) (·.status == 0x00000342) = true := by decide
/-- VF2. -/
theorem test_verify_equal :
    after (exec .verify { stateA .zero .done 0 with TAG := ⟨0x6446CA44, 0xC5F13022⟩, RT := ⟨0x6446CA44, 0xC5F13022⟩ })
      (·.status == 0x0000004C) = true := by decide
/-- VF3. -/
theorem test_verify_flipped :
    after (exec .verify { stateA .zero .done 0 with TAG := ⟨0x6446CA44, 0xC5F13022⟩, RT := ⟨0x6446CA44, 0xC5F13023⟩ })
      (·.status == 0x00000044) = true := by decide

/-! ### Issue and the port -/

/-- ER1, ER8, ER15: SEQUENCE; BAD_ARG before SEQUENCE; ILLEGAL_COMMAND before SEQUENCE. -/
theorem test_error_priority : after (issue 0x00000021 State.reset) (·.status == 0x00000302) = true ∧
    after (issue 0x00000522 State.reset) (·.status == 0x00000202) = true ∧
    after (issue 0x00001021 State.reset) (·.status == 0x00000102) = true := by decide
/-- ER20: a malformed ABORT is ignored while ERR = 1. -/
theorem test_malformed_abort :
    after (issue 0x00000101 { State.reset with ERR := true, CAUSE := .sequence }) (·.status == 0x00000302) = true := by decide
/-- PV8: PERM 0 does not go busy. -/
theorem test_perm_0 : after (issue 0x00000011 (stateA blockA .idle 0)) (· == stateA blockA .idle 0) = true := by decide
/-- BE5, BE9. -/
theorem test_reads : after (perform ⟨0x10, 4, .read⟩ (stateA blockA .idle 0)) (·.answers == [.data 0]) = true ∧
    after (perform ⟨0x2C, 4, .read⟩ (stateA blockA .idle 0)) (·.answers == [.data 0x07060504]) = true := by decide
/-- BE7. -/
theorem test_write_status : after (perform ⟨0x04, 4, .write 0xFFFFFFFF⟩ State.reset) (·.status == 0) = true := by decide
/-- BE1 to BE4. -/
theorem test_busErrors : perform ⟨0x44, 4, .read⟩ State.reset = .fault (.busError (Config.tjBase + 0x44)) ∧
    perform ⟨0x02, 4, .read⟩ State.reset = .fault (.busError (Config.tjBase + 0x02)) ∧
    perform ⟨0x00, 2, .read⟩ State.reset = .fault (.busError (Config.tjBase + 0x00)) ∧
    perform ⟨0x08, 1, .write 1⟩ State.reset = .fault (.busError (Config.tjBase + 0x08)) := ⟨rfl, rfl, rfl, rfl⟩
/-- The step after `withFetchWord` issues the word: INIT is in flight. -/
theorem test_fetch : after (step (State.reset.withFetchWord 32 0x20)) (fun t => t.status == 0x00000001) = true := by decide

/-! ### The reference functions and the bit-level reading -/

/-- AE16. -/
theorem test_aead : aeadEncrypt (Vector.ofFn fun i => BitVec.ofNat 8 i.val) (Vector.ofFn fun i => BitVec.ofNat 8 i.val)
    [0, 1, 2, 3, 4] [0, 1, 2, 3, 4]
      = [0x14, 0x28, 0xD7, 0xAB, 0xFE, 0xFA, 0x46, 0x38, 0x4C, 0x4A, 0x0B, 0xF8, 0xE5] := by decide +kernel
/-- PV3, through the shift register of 40_permutation.md R72. -/
theorem test_rounds : nlfsrRounds keyA 0 128 blockA.register = 0xC27BC877F29503646529F79A3C067072 := by decide +kernel

/-- R111's first line: an input of 7 bytes fails before any access, whatever was answered. -/
theorem test_decrypt_short (key : Key) (nonce : Nonce) (answers : List Answer) :
    decryptProcedure key nonce [] (List.replicate 7 0) = [] ∧ decryptResult (List.replicate 7 0) answers = none := ⟨rfl, rfl⟩
/-- R114's third ground: a run that ended with ERR = 0 is faulty when the procedure failed, and not otherwise. -/
theorem test_faulty_fail : faultyRun (decryptResult (List.replicate 8 0)) (.next { State.reset with answers := [.data 0x44] }) = true ∧
    faultyRun (decryptResult (List.replicate 8 0)) (.next { State.reset with answers := [.data 0x4C] }) = false := by decide

/-! ### Witnesses: states and operands that meet the hypotheses of each obligation -/

/-- The phase alone. -/
def inPhase (p : Phase) : State := { State.reset with PHASE := p }
/-- An error is recorded. -/
def inError : State := { State.reset with ERR := true, CAUSE := .badArg }
/-- ENCW is in its last cycle. -/
def lastCycle : State := { State.reset with PHASE := .msg, inFlight := some ⟨.encw, 0, 1⟩ }
/-- VERIFY is in its last cycle, with equal tags. -/
def verifying : State :=
  { State.reset with PHASE := .done, TAG := ⟨5, 6⟩, RT := ⟨5, 6⟩, inFlight := some ⟨.verify, 0, 1⟩ }
/-- An ENCW with cycles to go. -/
def running : State := { State.reset with PHASE := .msg, inFlight := some ⟨.encw, 0, 5⟩ }

theorem witness_ResetInputResetsEveryState :
    ({ running with port := [.reset] } : State).port = .reset :: [] ∧
    ({ running with port := [.reset], held := some ⟨0x0C, 4, .read⟩ } : State).held = some ⟨0x0C, 4, .read⟩ ∧
    ({ running with port := [.reset], held := some ⟨0x08, 4, .write 3⟩ } : State).held = some ⟨0x08, 4, .write 3⟩ :=
  ⟨rfl, rfl, rfl⟩

theorem lastCycle_invariant : lastCycle.Invariant where
  errCause := rfl
  authOk := by decide
  beforeDone := fun _ => ⟨rfl, rfl⟩
  flight := fun f hf => by
    cases hf
    exact ⟨rfl, rfl, rfl, rfl, rfl, Nat.le_refl 1, Nat.succ_le_succ (Nat.zero_le _)⟩
  heldAccess := fun a ha => by cases ha

theorem witness_EveryStepKeepsInvariant : ∃ t, lastCycle.Invariant ∧ step lastCycle = .next t :=
  ⟨_, lastCycle_invariant, rfl⟩

theorem witness_DecodeReadsEveryEncodedCommand :
    (Instr.encp 3).wellFormed = true ∧ (Instr.encp 0).wellFormed = false := by decide

theorem witness_EncodeGivesBackTheDecodedWord :
    decode 0x00000322 = .cmd (.adp 3) ∧ decode 0x00000522 = .badArg (.adp 5) := by decide

theorem witness_AssemblerSpellsTheLegalCommands : "XLEN" ≠ "FRAME" ∧
    "MUL" ∉ ["NOP", "ABORT", "ZERO", "PERM", "FRAME", "XLEN", "XW", "XB", "RDS", "INIT", "ADW", "ADP", "ENCW", "ENCP",
      "DECW", "DECP", "FIN", "VERIFY"] ∧
    assemble "PERM" (some (.number 255)) = some 0x00FF0011 ∧ assemble "XLEN" (some (.number 1)) = some 0x00000113 ∧
    (Instr.perm 255).wellFormed = true ∧ (Instr.encp 3).wellFormed = true := by decide

theorem witness_IllegalWordsExactly :
    (0x29 ≤ ((0x00000029 : Word).extractLsb' 0 8).toNat ∧ ((0x000000FF : Word).extractLsb' 0 8).toNat ≤ 0xFF) ∧
    (0x80000000 : Word).extractLsb' 24 8 ≠ 0 ∧ State.reset.ERR = false := by decide

theorem witness_IssueProcedure :
    inError.ERR = true ∧ decode 0x00000001 = .cmd .abort ∧ decode 0x00000021 ≠ .cmd .abort ∧
    State.reset.ERR = false ∧ decode 0x00000029 = .illegal ∧ decode 0x00000022 = .badArg (.adp 0) ∧
    (decode 0x00000021 = .cmd .adw ∧ admitted .adw State.reset.PHASE = false) ∧
    (admitted .adw (inPhase .ad).PHASE = true ∧ goesBusy .adw = true) ∧
    (decode 0x00000010 = .cmd .zero ∧ admitted .zero State.reset.PHASE = true ∧ goesBusy .zero = false) := by decide

theorem witness_CommandErrorChangesOnlyErrAndCause :
    ∃ t, State.reset.ERR = false ∧ issue 0x00000029 State.reset = .next t ∧ t.ERR = true := ⟨_, rfl, rfl, rfl⟩

theorem witness_ErrorIsSticky : inError.ERR = true ∧ (0x00000101 : Word) ≠ 0x00000001 ∧ Reg.din ≠ Reg.cmd ∧
    ∃ t, inError.Invariant ∧
      step { inError with port := [.access ⟨0x00, 4, .write 0x00000001⟩] } = .next t ∧ t.ERR = false :=
  ⟨rfl, by decide, by decide, _,
    ⟨rfl, by decide, fun _ => ⟨rfl, rfl⟩, (fun f hf => by cases hf), (fun a ha => by cases ha)⟩, rfl, rfl⟩

theorem witness_AdmissionTable :
    (inPhase .msgEnd).ERR = false ∧ (Instr.fin).wellFormed = true ∧ (inPhase .msgEnd).PHASE = .msgEnd ∧
    (Instr.adp 3).wellFormed = true ∧ (inPhase .msg).PHASE ≠ .ad ∧ (inPhase .ad).PHASE = .ad ∧
    (inPhase .done).PHASE = .done ∧ (inPhase .msgEnd).PHASE ≠ .done := by decide

theorem witness_GoBusySet :
    (inPhase .ad).ERR = false ∧ (inPhase .ad).inFlight = none ∧ (Instr.perm 1).wellFormed = true ∧
    admitted (.perm 1) (inPhase .ad).PHASE = true ∧ admitted (.perm 0) (inPhase .ad).PHASE = true ∧
    admitted .adw (inPhase .ad).PHASE = true ∧ admitted .verify (inPhase .done).PHASE = true := by decide

theorem witness_ZeroClearsTheCipherState : State.reset.ERR = false ∧ inError.ERR = true := by decide
theorem witness_PermRunsChunks : State.reset.ERR = false ∧ (0x00010011 : Word).extractLsb' 0 8 = 0x11 ∧
    (0x00FF0011 : Word).extractLsb' 24 8 = 0 ∧ (0x00FF0011 : Word).extractLsb' 8 8 = 0 ∧
    (0x01000011 : Word).extractLsb' 24 8 ≠ 0 ∧ (0x00000111 : Word).extractLsb' 8 8 ≠ 0 := by decide
theorem witness_InitStartsAnOperation : (inPhase .done).ERR = false ∧ inError.ERR = true := by decide

/-- FRAME and RDS: operands at both ends of the range and just outside it; words of the A form. -/
theorem witness_FrameInjectsConstant : upTo3 0 ∧ upTo3 3 ∧ ¬ upTo3 4 ∧ State.reset.ERR = false ∧
    (0x00000312 : Word).extractLsb' 0 8 = (0x00000012 : Word).extractLsb' 0 8 ∧ (0x00000312 : Word).extractLsb' 12 20 = 0 ∧
    (0x00001012 : Word).extractLsb' 12 20 ≠ 0 := by unfold upTo3; decide
theorem witness_RdsCopiesStateWord : upTo3 0 ∧ upTo3 3 ∧ ¬ upTo3 4 ∧ State.reset.ERR = false := by unfold upTo3; decide
/-- XLEN, XB, ADP, ENCP and DECP: operands at both ends of the range and just outside it. -/
theorem witness_XlenInjectsLength : oneTo3 1 ∧ oneTo3 3 ∧ ¬ oneTo3 0 ∧ ¬ oneTo3 4 ∧ State.reset.ERR = false := by
  unfold oneTo3; decide
theorem witness_AbsorbIntoWord3 : oneTo3 1 ∧ oneTo3 3 ∧ ¬ oneTo3 0 ∧ ¬ oneTo3 4 ∧ State.reset.ERR = false ∧
    State.reset.inFlight = none := by unfold oneTo3; decide

/-- The hypotheses of `NoOperandForm` and of `AForm`, for a word of each form: another word with the same OP; a bit set
above bit 11; none set, with the operand legal and not. -/
theorem witness_NoOperandForm : [(0x00000000 : Word), 0x01, 0x10, 0x14, 0x20, 0x21, 0x23, 0x25, 0x27, 0x28].all (fun w =>
    (w ||| 0x100).extractLsb' 0 8 = w.extractLsb' 0 8 ∧ w ||| 0x100 ≠ w) = true := by decide
theorem witness_AForm : [(0x12 : Word), 0x13, 0x15, 0x16, 0x22, 0x24, 0x26].all (fun w =>
    ((w ||| 0x1000).extractLsb' 0 8 = w.extractLsb' 0 8 ∧ (w ||| 0x1000).extractLsb' 12 20 ≠ 0) ∧
    ((w ||| 0x300).extractLsb' 0 8 = w.extractLsb' 0 8 ∧ (w ||| 0x300).extractLsb' 12 20 = 0 ∧
      (w ||| 0x300).extractLsb' 8 4 = 3) ∧
    ((w ||| 0x400).extractLsb' 0 8 = w.extractLsb' 0 8 ∧ (w ||| 0x400).extractLsb' 12 20 = 0 ∧
      (w ||| 0x400).extractLsb' 8 4 = 4)) = true := by decide

theorem witness_InitForgetsTheOldOperation : (stateA blockA .msgEnd 0).ERR = false ∧ (stateA blockIV1 .ad 5).ERR = false ∧
    (stateA blockA .msgEnd 0).K = (stateA blockIV1 .ad 5).K ∧ (stateA blockA .msgEnd 0).N = (stateA blockIV1 .ad 5).N := by decide

theorem witness_AdwAbsorbsFullBlock : (inPhase .ad).ERR = false ∧ (inPhase .ad).PHASE = .ad ∧ (inPhase .msg).PHASE ≠ .ad := by decide
theorem witness_AdpAbsorbsPartialBlock : (inPhase .ad).ERR = false ∧ (inPhase .ad).PHASE = .ad ∧ (inPhase .idle).PHASE ≠ .ad ∧
    oneTo3 1 ∧ oneTo3 3 ∧ ¬ oneTo3 0 := by unfold oneTo3; decide
theorem witness_EncwEncryptsFullBlock : (inPhase .ad).ERR = false ∧ (inPhase .ad).PHASE = .ad ∧ (inPhase .msg).PHASE = .msg ∧
    (inPhase .msgEnd).PHASE ≠ .ad ∧ (inPhase .msgEnd).PHASE ≠ .msg := by decide
theorem witness_EncpEncryptsPartialBlock : (inPhase .msg).ERR = false ∧ (inPhase .msg).PHASE = .msg ∧ oneTo3 1 ∧ oneTo3 3 ∧
    ¬ oneTo3 4 ∧ (inPhase .done).PHASE ≠ .ad ∧ (inPhase .done).PHASE ≠ .msg := by unfold oneTo3; decide
theorem witness_DecwDecryptsFullBlock : (inPhase .ad).ERR = false ∧ (inPhase .ad).PHASE = .ad ∧ (inPhase .msg).PHASE = .msg ∧
    (inPhase .idle).PHASE ≠ .ad ∧ (inPhase .idle).PHASE ≠ .msg := by decide
theorem witness_DecpDecryptsPartialBlock : (inPhase .ad).ERR = false ∧ (inPhase .ad).PHASE = .ad ∧ oneTo3 1 ∧ oneTo3 3 ∧
    ¬ oneTo3 0 ∧ (inPhase .msgEnd).PHASE ≠ .ad ∧ (inPhase .msgEnd).PHASE ≠ .msg := by unfold oneTo3; decide
theorem witness_FinComputesTheTag : (inPhase .msgEnd).ERR = false ∧ (inPhase .msgEnd).PHASE = .msgEnd ∧
    (inPhase .idle).PHASE = .idle ∧ (inPhase .done).PHASE = .done := by decide
theorem witness_VerifyComparesTheTags : (inPhase .done).ERR = false ∧ (inPhase .done).PHASE = .done ∧
    (inPhase .msg).PHASE ≠ .done := by decide

theorem witness_SequencerCommandsFromPrimitives : (stateA blockA .idle 9).ERR = false ∧ (stateA blockA .idle 9).inFlight = none ∧
    oneTo3 1 ∧ oneTo3 3 ∧ (Phase.ad = .ad ∨ Phase.ad = .msg) ∧ (Phase.msgEnd = .ad ∨ Phase.msgEnd = .msg ∨ Phase.msgEnd = .msgEnd) := by
  unfold oneTo3; decide
theorem witness_AdCommandsAbsorbTheAd : (stateA blockIV1 .ad 0).ERR = false ∧ (stateA blockIV1 .ad 0).inFlight = none ∧
    (stateA blockIV1 .ad 0).PHASE = .ad := by decide
theorem witness_MessageCommandsTransduceTheMessage : (stateA blockIV1 .ad 0).PHASE = .ad ∧ (stateA blockIV1 .msg 0).PHASE = .msg ∧
    (stateA blockIV1 .msg 0).ERR = false ∧ (stateA blockIV1 .msg 0).inFlight = none := by decide
theorem witness_PartialBlockIsPrefixOfFullBlock : (1 ≤ 1 ∧ 1 ≤ 3) ∧ (1 ≤ 3 ∧ 3 ≤ 3) := by decide

theorem witness_HostProceduresAgreeWithReference : State.reset.ERR = false ∧ State.reset.inFlight = none ∧
    8 ≤ (List.replicate 8 (0 : Byte)).length ∧ (List.replicate 7 (0 : Byte)).length < 8 := by decide

/-- Accesses presented one per cycle, with a cycle in which nothing is presented before them. -/
theorem presents_accesses (as : List Access) : Presents (.cycle :: as.map .access) as := by
  refine ⟨by simp, ?_⟩
  simp [PortEvent.access?, List.filterMap_map, Function.comp_def, List.filterMap_cons]

theorem witness_EncryptionRunAgreesWithReference (key : Key) (nonce : Nonce) : State.reset.ERR = false ∧
    State.reset.inFlight = none ∧ State.reset.held = none ∧
    Presents (.cycle :: (encryptProcedure key nonce [1] [2, 3]).map .access) (encryptProcedure key nonce [1] [2, 3]) :=
  ⟨rfl, rfl, rfl, presents_accesses _⟩
/-- Inputs of 9 bytes and of 7. -/
theorem witness_DecryptionRunAgreesWithReference (key : Key) (nonce : Nonce) : State.reset.ERR = false ∧
    State.reset.inFlight = none ∧ State.reset.held = none ∧
    (8 ≤ (List.replicate 9 (0 : Byte)).length ∧
      Presents (.cycle :: (decryptProcedure key nonce [1] (List.replicate 9 0)).map .access)
        (decryptProcedure key nonce [1] (List.replicate 9 0))) ∧
    ((List.replicate 7 (0 : Byte)).length < 8 ∧
      Presents [.cycle] (decryptProcedure key nonce [1] (List.replicate 7 0))) :=
  ⟨rfl, rfl, rfl, ⟨by decide, presents_accesses _⟩, by decide, presents_accesses []⟩

/-- Each ground of a BusError at the edge of its range, and a mapped access just inside all of them. -/
theorem witness_BusErrorExactly : State.reset.held = none ∧ running.held = none ∧
    ((⟨0x40, 4, .read⟩ : Access).size = 4 ∧ (⟨0x40, 4, .read⟩ : Access).off.toNat % 4 = 0 ∧
      (⟨0x40, 4, .read⟩ : Access).off.toNat < 0x44) ∧
    0x44 ≤ (⟨0x44, 4, .read⟩ : Access).off.toNat ∧ (⟨0x41, 4, .read⟩ : Access).off.toNat % 4 ≠ 0 ∧
    (⟨0x40, 8, .read⟩ : Access).size ≠ 4 := by decide
theorem witness_WritesToReadOnlyAndReadsOfWriteOnly : (0x40 : BitVec 8) ∈ [(0x04 : BitVec 8), 0x0C, 0x3C, 0x40] ∧
    (0x24 : BitVec 8) ∈ [(0x00 : BitVec 8), 0x10, 0x14, 0x18, 0x1C, 0x20, 0x24] := by decide
theorem witness_ReadsNeverRevealTheKey : (stateA blockA .idle 0).inFlight = none ∧
    ∀ a ∈ [(⟨0x10, 4, .read⟩ : Access), ⟨0x04, 4, .read⟩], a.op = .read ∧ a.reg.isSome = true := by decide

theorem witness_KeyChangesOnlyByKeyWrites :
    (∃ t, step { stateA blockA .idle 0 with port := [.reset] } = .next t ∧ t.K ≠ (stateA blockA .idle 0).K) ∧
    (∃ t, step { State.reset with port := [.access ⟨0x24, 4, .write 5⟩] } = .next t ∧ t.K ≠ State.reset.K) ∧
    (∃ t, step { State.reset with held := some ⟨0x10, 4, .write 5⟩ } = .next t ∧ t.K ≠ State.reset.K) :=
  ⟨⟨_, rfl, by decide⟩, ⟨_, rfl, by decide⟩, ⟨_, rfl, by decide⟩⟩
theorem witness_InputsChangeOnlyByHostWrites :
    (∃ t, step { State.reset with port := [.access ⟨0x30, 4, .write 5⟩] } = .next t ∧ t.N ≠ State.reset.N) ∧
    (∃ t, step { State.reset with port := [.access ⟨0x38, 4, .write 5⟩] } = .next t ∧ t.RT ≠ State.reset.RT) ∧
    (∃ t, step { State.reset with held := some ⟨0x08, 4, .write 5⟩ } = .next t ∧ t.DIN ≠ State.reset.DIN) :=
  ⟨⟨_, rfl, by decide⟩, ⟨_, rfl, by decide⟩, ⟨_, rfl, by decide⟩⟩
theorem witness_WritersOfTheOutputs :
    (∃ t, exec .zero (stateA blockA .idle 0) = .next t ∧ t.S ≠ blockA) ∧
    (∃ t, exec .init { State.reset with TAG := ⟨1, 2⟩ } = .next t ∧ t.TAG ≠ ⟨1, 2⟩) ∧
    (∃ t, exec (.rds 1) (stateA blockA .idle 0) = .next t ∧ t.DOUT ≠ (stateA blockA .idle 0).DOUT) ∧
    (∃ t, exec .verify (inPhase .done) = .next t ∧ t.AUTH_VALID ≠ (inPhase .done).AUTH_VALID) :=
  ⟨⟨_, rfl, by decide⟩, ⟨_, rfl, by decide⟩, ⟨_, rfl, by decide⟩, ⟨_, rfl, by decide⟩⟩

theorem witness_StepRunsTheDecodedCommand :
    (inPhase .ad).inFlight = none ∧ (inPhase .ad).held = none ∧
    ({ inPhase .ad with port := [.access ⟨0x00, 4, .write 0x00000021⟩] } : State).port
      = .access ⟨0x00, 4, .write 0x00000021⟩ :: [] ∧
    (decode 0x00000021 = .cmd .adw ∧ (inPhase .ad).ERR = false ∧ admitted .adw (inPhase .ad).PHASE = true ∧
      goesBusy .adw = true) ∧
    inError.ERR = true ∧ admitted .adw State.reset.PHASE = false ∧ decode 0x00000014 = .cmd .xw ∧ goesBusy .xw = false ∧
    decode 0x00000422 = .badArg (.adp 4) := ⟨rfl, rfl, rfl, by decide, by decide⟩
theorem witness_CompletionRunsTheCommandInFlight : lastCycle.inFlight = some ⟨.encw, 0, 1⟩ ∧
    (⟨.encw, 0, 1⟩ : InFlight).remaining ≤ 1 ∧ lastCycle.port = [] := by decide
theorem witness_AccessesAreHeldWhileBusy :
    ({ running with port := [.access ⟨0x0C, 4, .read⟩] } : State).port = .access ⟨0x0C, 4, .read⟩ :: [] ∧
    running.held = none ∧ running.inFlight = some ⟨.encw, 0, 5⟩ ∧ (⟨0x0C, 4, .read⟩ : Access).reg = some .dout ∧
    ¬ (Reg.dout = Reg.status ∧ (⟨0x0C, 4, .read⟩ : Access).op = .read) ∧
    ({ running with held := some ⟨0x0C, 4, .read⟩ } : State).held = some ⟨0x0C, 4, .read⟩ ∧
    ({ State.reset with held := some ⟨0x0C, 4, .read⟩ } : State).inFlight = none ∧
    (∀ rest, State.reset.port ≠ .reset :: rest) :=
  ⟨rfl, rfl, rfl, rfl, by decide, rfl, rfl, fun _ h => by cases h⟩
theorem witness_StatusWhileBusy :
    running.inFlight = some ⟨.encw, 0, 5⟩ ∧ running.held = none ∧
    ({ running with port := [.access ⟨0x04, 4, .read⟩] } : State).port = .access ⟨0x04, 4, .read⟩ :: [] ∧
    ∃ t, step running = .next t ∧ t.inFlight = some ⟨.encw, 0, 4⟩ := ⟨rfl, rfl, rfl, _, rfl, rfl⟩
theorem witness_BusyFallsWithinTheLatency :
    lastCycle.Invariant ∧ lastCycle.inFlight = some ⟨.encw, 0, 1⟩ ∧ PortEvent.reset ∉ lastCycle.port ∧
    (∀ a, PortEvent.access a ∈ lastCycle.port → a.reg.isSome = true) :=
  ⟨lastCycle_invariant, rfl, by decide, fun a ha => by cases ha⟩
theorem witness_CyclesAgreeWithAtomicCommands :
    State.reset.inFlight = none ∧ State.reset.held = none ∧
    Presents (.cycle :: [cmd .init, rd .status].map .access) [cmd .init, rd .status] ∧
    ∀ a ∈ [cmd .init, rd .status], a.reg.isSome = true := ⟨rfl, rfl, presents_accesses _, by decide⟩
theorem witness_ReleaseOnlyAfterMatchingVerify :
    ∃ t, step verifying = .next t ∧ verifying.releaseAllowed = false ∧ t.releaseAllowed = true := ⟨_, rfl, rfl, rfl⟩

end Sys2Proof.Tests
end

section
/-! PROOFS. The statements about the registers (10_state.md): what can write each of them, and what a read shows. -/

namespace Sys2Proof.Machine

/-! ### What writes the inputs K, N, RT and DIN -/

/-- The registers that only the host writes hold the same values (R23, R24, R26, R27). -/
structure SameInputs (t s : State) : Prop where
  K : t.K = s.K
  N : t.N = s.N
  RT : t.RT = s.RT
  DIN : t.DIN = s.DIN

theorem SameInputs.trans {u t s : State} (hut : SameInputs u t) (hts : SameInputs t s) : SameInputs u s :=
  ⟨hut.K.trans hts.K, hut.N.trans hts.N, hut.RT.trans hts.RT, hut.DIN.trans hts.DIN⟩

theorem SameInputs.writeReg {t s : State} (h : SameInputs t s) (r : Reg) (v : Word) :
    SameInputs (t.writeReg r v) (s.writeReg r v) := by
  obtain ⟨hK, hN, hRT, hDIN⟩ := h
  cases r <;> constructor <;> simp [State.writeReg, hK, hN, hRT, hDIN]

theorem exec_sameInputs {i : Instr} {s t : State} (h : exec i s = .next t) : SameInputs t s := by
  obtain ⟨hK, hN, hRT, hDIN, -⟩ := exec_frame h
  exact ⟨hK, hN, hRT, hDIN⟩

theorem issue_sameInputs {w : Word} {s t : State} (h : issue w s = .next t) : SameInputs t s := by
  obtain ⟨hK, hN, hRT, hDIN, -⟩ := issue_frame h
  exact ⟨hK, hN, hRT, hDIN⟩

theorem hostWhileBusy_sameInputs {s t : State} (h : hostWhileBusy s = .next t) : SameInputs t s := by
  have ht := hostWhileBusy_frame h
  exact ⟨congrArg (·.K) ht, congrArg (·.N) ht, congrArg (·.RT) ht, congrArg (·.DIN) ht⟩

/-- `t` holds the inputs of `s`, but for what the access `a` writes to its own register. -/
def WrittenBy (a : Access) (s t : State) : Prop :=
  ∃ r v, a.reg = some r ∧ a.op = .write v ∧ SameInputs t (s.writeReg r v)

/-- Performing an access changes the inputs by its own write alone; `u` is the state `s` with the access taken off. -/
theorem perform_inputs {a : Access} {s u t : State} (h : perform a u = .next t) (hu : SameInputs u s) :
    SameInputs t s ∨ WrittenBy a s t := by
  cases perform_cases h with
  | read r hr hop => exact .inl ⟨hu.K, hu.N, hu.RT, hu.DIN⟩
  | issued w hr hop x hx =>
    obtain ⟨hK, hN, hRT, hDIN⟩ := (issue_sameInputs hx).trans hu
    exact .inl ⟨hK, hN, hRT, hDIN⟩
  | written r v hr hne hop =>
    obtain ⟨hK, hN, hRT, hDIN⟩ := hu.writeReg r v
    exact .inr ⟨r, v, hr, hop, hK, hN, hRT, hDIN⟩

/-- A step performs this access: nothing is in flight, and the access is held or, with none held, next at the port. -/
def State.performs (s : State) (a : Access) : Prop :=
  s.inFlight = none ∧ (s.held = some a ∨ (s.held = none ∧ ∃ rest, s.port = .access a :: rest))

/-- Without reset a step changes the inputs by the write it performs alone. -/
theorem step_inputs {s t : State} (h : step s = .next t) (noReset : ∀ rest, s.port ≠ .reset :: rest) :
    SameInputs t s ∨ ∃ a, s.performs a ∧ WrittenBy a s t := by
  cases step_cases h with
  | reset rest hp => exact absurd hp (noReset rest)
  | runs f hf hr u hu =>
    obtain ⟨hK, hN, hRT, hDIN⟩ := hostWhileBusy_sameInputs hu
    exact .inl ⟨hK, hN, hRT, hDIN⟩
  | completes f hf hr u hu v hv =>
    obtain ⟨hK, hN, hRT, hDIN⟩ := (exec_sameInputs hv).trans (hostWhileBusy_sameInputs hu)
    exact .inl ⟨hK, hN, hRT, hDIN⟩
  | performsHeld a hf hh t ht =>
    exact (perform_inputs (s := s) ht ⟨rfl, rfl, rfl, rfl⟩).imp_right fun hw => ⟨a, ⟨hf, .inl hh⟩, hw⟩
  | performsNext a rest hf hh hp t ht =>
    exact (perform_inputs (s := s) ht ⟨rfl, rfl, rfl, rfl⟩).imp_right fun hw => ⟨a, ⟨hf, .inr ⟨hh, rest, hp⟩⟩, hw⟩
  | idles rest hf hh hp => exact .inl ⟨rfl, rfl, rfl, rfl⟩
  | waits hf hh hp => exact .inl ⟨rfl, rfl, rfl, rfl⟩

theorem writeReg_K_ne {s : State} {r : Reg} {v : Word} (h : (s.writeReg r v).K ≠ s.K) :
    ∃ i, r = .key i ∧ (s.writeReg r v).K = s.K.set i v := by
  cases r with
  | key i => exact ⟨i, rfl, rfl⟩
  | _ => exact absurd rfl h

theorem writeReg_N_ne {s : State} {r : Reg} {v : Word} (h : (s.writeReg r v).N ≠ s.N) :
    ∃ i, r = .nonce i ∧ (s.writeReg r v).N = s.N.set i v := by
  cases r with
  | nonce i => exact ⟨i, rfl, rfl⟩
  | _ => exact absurd rfl h

theorem writeReg_RT_ne {s : State} {r : Reg} {v : Word} (h : (s.writeReg r v).RT ≠ s.RT) :
    ∃ i, r = .rtag i ∧ (s.writeReg r v).RT = s.RT.set i v := by
  cases r with
  | rtag i => exact ⟨i, rfl, rfl⟩
  | _ => exact absurd rfl h

theorem writeReg_DIN_ne {s : State} {r : Reg} {v : Word} (h : (s.writeReg r v).DIN ≠ s.DIN) :
    r = .din ∧ (s.writeReg r v).DIN = v := by
  cases r with
  | din => exact ⟨rfl, rfl⟩
  | _ => exact absurd rfl h

/-- Settles O50: but for reset, a step changes the inputs by the write it performs alone, and only a write to KEYi is one
of K. -/
theorem keyChangesOnlyByKeyWrites : Obligations.KeyChangesOnlyByKeyWrites := by
  intro s t h hne
  by_cases hreset : ∃ rest, s.port = .reset :: rest
  · exact .inl hreset
  · obtain hsame | ⟨a, ⟨hf, hperf⟩, r, v, hr, hop, hw⟩ := step_inputs h (not_exists.mp hreset)
    · exact absurd hsame.K hne
    · obtain ⟨i, rfl, hK⟩ := writeReg_K_ne (hw.K ▸ hne)
      exact .inr ⟨hf, a, i, v, hperf, hr, hop, hw.K.trans hK⟩

/-- Settles O51: a step changes the inputs by the write it performs alone, and each of N, RT and DIN is written at its own
offsets only. -/
theorem inputsChangeOnlyByHostWrites : Obligations.InputsChangeOnlyByHostWrites := by
  intro s t h noReset performed
  obtain hsame | ⟨a, hperf, r, v, hr, hop, hw⟩ := step_inputs h noReset
  · exact ⟨absurd hsame.N, absurd hsame.RT, absurd hsame.DIN⟩
  · refine ⟨fun hne => ?_, fun hne => ?_, fun hne => ?_⟩
    · obtain ⟨i, rfl, hN⟩ := writeReg_N_ne (hw.N ▸ hne)
      exact ⟨a, i, v, hperf, hr, hop, hw.N.trans hN⟩
    · obtain ⟨i, rfl, hRT⟩ := writeReg_RT_ne (hw.RT ▸ hne)
      exact ⟨a, i, v, hperf, hr, hop, hw.RT.trans hRT⟩
    · obtain ⟨rfl, hDIN⟩ := writeReg_DIN_ne (hw.DIN ▸ hne)
      exact ⟨a, v, hperf, hr, hop, hw.DIN.trans hDIN⟩

/-! ### Which commands write the outputs -/

theorem effectOf_S_ne {i : Instr} {s : State} (h : (effectOf i s).S ≠ s.S) :
    i ≠ .nop ∧ (∀ A, i ≠ .rds A) ∧ i ≠ .verify := by
  refine ⟨?_, ?_, ?_⟩
  · rintro rfl; exact h rfl
  · rintro A rfl; exact h rfl
  · rintro rfl; exact h rfl

theorem effectOf_TAG_ne {i : Instr} {s : State} (h : (effectOf i s).TAG ≠ s.TAG) :
    i = .init ∨ i = .abort ∨ i = .fin := by
  cases i with
  | init | abort | fin => simp
  | _ => exact absurd rfl h

theorem effectOf_DOUT_ne {i : Instr} {s : State} (h : (effectOf i s).DOUT ≠ s.DOUT) :
    (∃ A, i = .rds A) ∨ i = .encw ∨ (∃ A, i = .encp A) ∨ i = .decw ∨ (∃ A, i = .decp A) ∨ i = .init ∨ i = .abort := by
  cases i with
  | rds | encw | encp | decw | decp | init | abort => simp
  | _ => exact absurd rfl h

theorem effectOf_AUTH_ne {i : Instr} {s : State}
    (h : (effectOf i s).AUTH_VALID ≠ s.AUTH_VALID ∨ (effectOf i s).AUTH_OK ≠ s.AUTH_OK) :
    i = .verify ∨ i = .init ∨ i = .abort := by
  cases i with
  | verify | init | abort => simp
  | _ => exact absurd h (not_or.mpr ⟨not_not.mpr rfl, not_not.mpr rfl⟩)

/-- Settles O52: a command that is ignored or rejected writes no output, and one that runs writes those of its effect. -/
theorem writersOfTheOutputs : Obligations.WritersOfTheOutputs := by
  intro i s t h
  cases exec_cases h with
  | ran => exact ⟨effectOf_S_ne, effectOf_TAG_ne, effectOf_DOUT_ne, effectOf_AUTH_ne⟩
  | _ => simp

/-! ### Reads -/

/-- No register shows K to a read (R22, R44). -/
theorem readReg_of_K (s : State) (K' : KeyWords) (r : Reg) : ({ s with K := K' } : State).readReg r = s.readReg r := by
  cases r <;> rfl

/-- A read of a mapped register with nothing in flight is answered with that register's value and does nothing else. -/
theorem transact_of_read {a : Access} {r : Reg} {s : State} (hr : a.reg = some r) (hop : a.op = .read)
    (hf : s.inFlight = none) : transact a s = .next (s.answer (.data (s.readReg r))) := by
  rw [transact, perform_of_reg hr, hop, performOn_read, andThen_next, settle, State.answer_inFlight, hf]

/-- Reads of mapped registers lead machines that differ in the key alone to states that differ in the key alone. -/
theorem transactAll_reads_of_K {as : List Access} {s : State} (K' : KeyWords)
    (reads : ∀ a ∈ as, a.op = .read ∧ a.reg.isSome = true) (hf : s.inFlight = none) :
    ∃ t, transactAll as s = .next t ∧ transactAll as { s with K := K' } = .next { t with K := K' } := by
  induction as generalizing s with
  | nil => exact ⟨s, rfl, rfl⟩
  | cons a as ih =>
    obtain ⟨⟨hop, hsome⟩, reads⟩ := List.forall_mem_cons.mp reads
    obtain ⟨r, hr⟩ := Option.isSome_iff_exists.mp hsome
    obtain ⟨t, ht, ht'⟩ := ih (s := s.answer (.data (s.readReg r))) reads hf
    refine ⟨t, (transactAll_cons (transact_of_read hr hop hf) as).trans ht, ?_⟩
    rw [transactAll_cons (transact_of_read (s := { s with K := K' }) hr hop hf) as, readReg_of_K]
    exact ht'

/-- Settles O49: the two runs end in states that differ in the key alone, so with the same answers. -/
theorem readsNeverRevealTheKey : Obligations.ReadsNeverRevealTheKey := by
  intro as s K' reads hf
  obtain ⟨t, ht, ht'⟩ := transactAll_reads_of_K K' reads hf
  exact ⟨t, _, ht, ht', rfl⟩

/-! ### The STATUS word -/

/-- STATUS bit by bit, from bit 0 up (R33). -/
theorem status_bit (s : State) (k : Nat) : s.status.getLsbD k =
    if k = 0 then s.BUSY else if k = 1 then s.ERR else if k = 2 then s.AUTH_VALID else if k = 3 then s.AUTH_OK
    else if k < 7 then s.PHASE.code.getLsbD (k - 4) else if k < 8 then false
    else if k < 12 then s.CAUSE.code.getLsbD (k - 8) else false := by
  refine BitVec.getLsbD_append.trans ?_
  simp only [BitVec.getLsbD_append, BitVec.getLsbD_ofBool, Nat.sub_sub, BitVec.ofNat_eq_ofNat, BitVec.getLsbD_zero]
  obtain hlow | hhigh := Nat.lt_or_ge k 12
  · interval_cases k <;> rfl
  · grind

theorem status_phase (s : State) : s.status.extractLsb' 4 3 = s.PHASE.code := by
  refine BitVec.eq_of_getLsbD_eq fun k hk => ?_
  rw [BitVec.getLsbD_extractLsb', status_bit]
  interval_cases k <;> rfl

theorem status_cause (s : State) : s.status.extractLsb' 8 4 = s.CAUSE.code := by
  refine BitVec.eq_of_getLsbD_eq fun k hk => ?_
  rw [BitVec.getLsbD_extractLsb', status_bit]
  interval_cases k <;> rfl

/-- The reserved bits of STATUS, 7 and 31:12, are zero (R33). -/
theorem status_reserved (s : State) : s.status.getLsbD 7 = false ∧ s.status.extractLsb' 12 20 = 0 := by
  refine ⟨status_bit s 7, (Laws.field_zero_iff ..).mpr fun k hk => ?_⟩
  rw [status_bit]
  grind

theorem Phase.code_le (p : Phase) : p.code.toNat ≤ 4 := by
  cases p <;> decide

theorem Cause.code_le (c : Cause) : c.code.toNat ≤ 3 := by
  cases c <;> decide

/-- Settles O53, field by field; the ranges are those of the codes. -/
theorem statusFields : Obligations.StatusFields := by
  intro s
  obtain ⟨h7, hhigh⟩ := status_reserved s
  exact ⟨status_bit s 0, status_bit s 1, status_bit s 2, status_bit s 3, status_phase s, h7, status_cause s, hhigh,
    status_phase s ▸ s.PHASE.code_le, status_cause s ▸ s.CAUSE.code_le⟩

end Sys2Proof.Machine
end

section
/-! PROOFS. The statements about the register window (20_memory.md): which accesses are BusErrors, and what an access to
each offset returns and changes. -/

namespace Sys2Proof.Machine

/-! ### BusErrors (20_memory.md R41 to R43, 60_exceptions.md R119) -/

theorem presentBusy_of_none {a : Access} (hr : a.reg = none) (s : State) :
    presentBusy a s = .fault (.busError a.addr) := by
  rw [presentBusy, hr]

/-- An access to a register presented while BUSY = 1 is no fault: it is answered or held (R47). -/
theorem presentBusy_next {a : Access} {r : Reg} (hr : a.reg = some r) (s : State) :
    ∃ t, presentBusy a s = .next t := by
  simp only [presentBusy, hr]
  split
  · exact performOn_next r a.op s
  · exact ⟨_, rfl⟩

theorem hostWhileBusy_access {s : State} {a : Access} {rest : List PortEvent} (hh : s.held = none)
    (hp : s.port = .access a :: rest) : hostWhileBusy s = presentBusy a { s with port := rest } := by
  simp [hostWhileBusy, hh, hp]

theorem runInFlight_next (f : InFlight) (s : State) : ∃ t, runInFlight f s = .next t := by
  unfold runInFlight
  split
  · obtain ⟨t, ht, -⟩ := complete_next f s
    exact ⟨t, ht⟩
  · exact ⟨_, rfl⟩

section
variable {s : State} {a : Access} {rest : List PortEvent}

/-- With a command in flight the access presented is the host's side of the cycle, before the engine's (log 1). -/
theorem step_busy_access {f : InFlight} (hf : s.inFlight = some f) (hh : s.held = none)
    (hp : s.port = .access a :: rest) :
    step s = andThen (presentBusy a { s with port := rest }) (runInFlight f) := by
  rw [step_busy hf (by simp [hp]), hostWhileBusy_access hh hp]

theorem step_of_unmapped (hh : s.held = none) (hp : s.port = .access a :: rest) (hr : a.reg = none) :
    step s = .fault (.busError a.addr) := by
  cases hf : s.inFlight with
  | none => rw [step_access hf hh hp, perform_of_none hr]
  | some f => rw [step_busy_access hf hh hp, presentBusy_of_none hr, andThen_fault]

theorem step_of_mapped {r : Reg} (hh : s.held = none) (hp : s.port = .access a :: rest) (hr : a.reg = some r) :
    ∃ t, step s = .next t := by
  cases hf : s.inFlight with
  | none =>
    rw [step_access hf hh hp, perform_of_reg hr]
    exact performOn_next r a.op _
  | some f =>
    obtain ⟨u, hu⟩ := presentBusy_next hr { s with port := rest }
    rw [step_busy_access hf hh hp, hu, andThen_next]
    exact runInFlight_next f u

end

/-- Settles O45: the three grounds are those of an access that reaches no register, and a step that presents an access
faults exactly when it reaches none. -/
theorem busErrorExactly : Obligations.BusErrorExactly := by
  intro s a rest hh hp
  rw [← a.reg_eq_none_iff]
  cases hr : a.reg with
  | none => exact iff_of_true (step_of_unmapped hh hp hr) rfl
  | some r =>
    obtain ⟨t, ht⟩ := step_of_mapped hh hp hr
    simp [ht]

/-! ### Reads and writes, register by register (20_memory.md R40, R44, R45) -/

theorem perform_rd (r : Reg) (s : State) : perform (rd r) s = .next (s.answer (.data (s.readReg r))) :=
  perform_of_reg (rd_reg r) s

theorem perform_wr {r : Reg} (hr : r ≠ .cmd) (v : Word) (s : State) :
    perform (wr r v) s = .next ((s.writeReg r v).answer .done) :=
  (perform_of_reg (wr_reg r v) s).trans (performOn_write hr v s)

/-- Settles O46: each offset is that of an R register, which a write leaves as it is, or of a W register, which reads 0. -/
theorem writesToReadOnlyAndReadsOfWriteOnly : Obligations.WritesToReadOnlyAndReadsOfWriteOnly := by
  intro s
  refine ⟨fun off v hoff => ?_, fun off hoff => ?_⟩
  · simp only [List.mem_cons, List.not_mem_nil, or_false] at hoff
    obtain rfl | rfl | rfl | rfl := hoff
    · exact perform_wr (r := .status) nofun v s
    · exact perform_wr (r := .dout) nofun v s
    · exact perform_wr (r := .tag 0) nofun v s
    · exact perform_wr (r := .tag 1) nofun v s
  · simp only [List.mem_cons, List.not_mem_nil, or_false] at hoff
    obtain rfl | rfl | rfl | rfl | rfl | rfl | rfl := hoff
    · exact perform_rd .cmd s
    · exact perform_rd (.key 0) s
    · exact perform_rd (.key 1) s
    · exact perform_rd (.key 2) s
    · exact perform_rd (.key 3) s
    · exact perform_rd (.key 4) s
    · exact perform_rd (.key 5) s

/-- Settles O47: each offset is that of its register, and `readReg` is the register's value. -/
theorem readsReturnTheRegister : Obligations.ReadsReturnTheRegister := fun s =>
  ⟨perform_rd .status s, perform_rd .din s, perform_rd .dout s,
    perform_rd (.nonce 0) s, perform_rd (.nonce 1) s, perform_rd (.nonce 2) s,
    perform_rd (.rtag 0) s, perform_rd (.rtag 1) s, perform_rd (.tag 0) s, perform_rd (.tag 1) s⟩

/-- Settles O48: each offset is that of its register, and `writeReg` changes that register alone. -/
theorem writesChangeTheirOwnRegister : Obligations.WritesChangeTheirOwnRegister := fun s v =>
  ⟨perform_wr (r := .din) nofun v s,
    perform_wr (r := .key 0) nofun v s, perform_wr (r := .key 1) nofun v s, perform_wr (r := .key 2) nofun v s,
    perform_wr (r := .key 3) nofun v s, perform_wr (r := .key 4) nofun v s, perform_wr (r := .key 5) nofun v s,
    perform_wr (r := .nonce 0) nofun v s, perform_wr (r := .nonce 1) nofun v s, perform_wr (r := .nonce 2) nofun v s,
    perform_wr (r := .rtag 0) nofun v s, perform_wr (r := .rtag 1) nofun v s⟩

end Sys2Proof.Machine
end

section
/-! PROOFS. Laws of the command words (30_encoding.md R58 to R62): a word and its fields, the decoder against the encoder,
and the words that are no command's. -/

namespace Sys2Proof.Laws

/-! ### A word and its fields -/

/-- The word OP | A << 8 | C << 16 bit by bit; bits 15:12 and 31:24 are beyond A and C, so zero (R60). -/
theorem commandWord_bit (op : BitVec 8) (A : BitVec 4) (C : BitVec 8) {k : Nat} (hk : k < 32) :
    (commandWord op A C).getLsbD k =
      if k < 8 then op.getLsbD k else if k < 16 then A.getLsbD (k - 8) else C.getLsbD (k - 16) := by
  simp only [commandWord, BitVec.getLsbD_or, BitVec.getLsbD_shiftLeft, BitVec.getLsbD_setWidth, hk]
  obtain h | h | h : k < 8 ∨ (8 ≤ k ∧ k < 16) ∨ 16 ≤ k := by omega
  · simp [h, show k < 16 by omega]
  · simp [show ¬ k < 8 by omega, show k - 8 < 32 by omega, h]
  · simp [show ¬ k < 8 by omega, show ¬ k < 16 by omega, show k - 16 < 32 by omega,
      BitVec.getLsbD_of_ge op k (by omega), BitVec.getLsbD_of_ge A (k - 8) (by omega)]

theorem argA_commandWord (op : BitVec 8) (A : BitVec 4) (C : BitVec 8) : argA (commandWord op A C) = A := by
  refine BitVec.eq_of_getLsbD_eq fun k hk => ?_
  rw [argA, BitVec.getLsbD_extractLsb', commandWord_bit _ _ _ (by omega)]
  simp [hk, show 8 + k < 16 by omega]

theorem argC_commandWord (op : BitVec 8) (A : BitVec 4) (C : BitVec 8) : argC (commandWord op A C) = C := by
  refine BitVec.eq_of_getLsbD_eq fun k hk => ?_
  rw [argC, BitVec.getLsbD_extractLsb', commandWord_bit _ _ _ (by omega)]
  simp [hk, show ¬ 16 + k < 8 by omega]

/-- A word with bits 15:12 and 31:24 zero is put together again from its fields. -/
theorem commandWord_fields {w : Word} (h12 : w.extractLsb' 12 4 = 0) (h24 : w.extractLsb' 24 8 = 0) :
    commandWord (opOf w) (argA w) (argC w) = w := by
  refine BitVec.eq_of_getLsbD_eq fun k hk => ?_
  have h12 := (field_zero_iff w 12 4).mp h12 (k - 12)
  have h24 := (field_zero_iff w 24 8).mp h24 (k - 24)
  rw [commandWord_bit _ _ _ hk, argA, argC, BitVec.getLsbD_extractLsb', BitVec.getLsbD_extractLsb']
  split
  · next h => exact opOf_bit w h
  · grind

theorem commandWord_A (op : BitVec 8) (A : BitVec 4) :
    commandWord op A 0 = op.setWidth 32 ||| (A.setWidth 32 <<< 8) := by simp [commandWord]

theorem commandWord_C (op C : BitVec 8) : commandWord op 0 C = op.setWidth 32 ||| (C.setWidth 32 <<< 16) := by
  simp [commandWord]

/-- A field is zero exactly when its lower and its upper part are. -/
theorem field_zero_split (w : Word) (lo m n : Nat) :
    w.extractLsb' lo (m + n) = 0 ↔ w.extractLsb' lo m = 0 ∧ w.extractLsb' (lo + m) n = 0 := by
  simp only [field_zero_iff]
  refine ⟨fun h => ⟨fun k hk => h k (by omega), fun k hk => ?_⟩, fun ⟨hm, hn⟩ k hk => ?_⟩
  · rw [Nat.add_assoc]
    exact h (m + k) (by omega)
  · obtain hlow | hhigh := Nat.lt_or_ge k m
    · exact hm k hlow
    · have := hn (k - m) (by omega)
      rwa [show lo + m + (k - m) = lo + k by omega] at this

/-! What is fixed at zero in a no-operand, an A-form and a C-form word, in the parts that R59 names. -/

theorem above_op_zero_iff (w : Word) : w.extractLsb' 8 24 = 0 ↔
    w.extractLsb' 8 4 = 0 ∧ w.extractLsb' 12 4 = 0 ∧ w.extractLsb' 16 8 = 0 ∧ w.extractLsb' 24 8 = 0 := by
  rw [← field_zero_split w 16 8 8, ← field_zero_split w 12 4 16, ← field_zero_split w 8 4 20]

theorem above_argA_zero_iff (w : Word) : w.extractLsb' 12 20 = 0 ↔
    w.extractLsb' 12 4 = 0 ∧ w.extractLsb' 16 8 = 0 ∧ w.extractLsb' 24 8 = 0 := by
  rw [← field_zero_split w 16 8 8, ← field_zero_split w 12 4 16]

theorem below_argC_zero_iff (w : Word) : w.extractLsb' 8 8 = 0 ↔ w.extractLsb' 8 4 = 0 ∧ w.extractLsb' 12 4 = 0 :=
  field_zero_split w 8 4 4

/-! ### The decoder against the encoder -/

section
variable {w : Word}

theorem commandWord_of_covers_none (op : BitVec 8) (h : w &&& maskNone = op.setWidth 32) : commandWord op 0 0 = w := by
  obtain ⟨rfl, hw⟩ := (covers_none_iff w op).mp h
  obtain ⟨hA, h12, hC, h24⟩ := (above_op_zero_iff w).mp hw
  rw [← hA, ← hC]
  exact commandWord_fields h12 h24

theorem commandWord_of_covers_A (op : BitVec 8) (h : w &&& maskA = op.setWidth 32) : commandWord op (argA w) 0 = w := by
  obtain ⟨rfl, hw⟩ := (covers_A_iff w op).mp h
  obtain ⟨h12, hC, h24⟩ := (above_argA_zero_iff w).mp hw
  rw [← hC]
  exact commandWord_fields h12 h24

theorem commandWord_of_covers_C (op : BitVec 8) (h : w &&& maskC = op.setWidth 32) : commandWord op 0 (argC w) = w := by
  obtain ⟨rfl, hlow, h24⟩ := (covers_C_iff w op).mp h
  obtain ⟨hA, h12⟩ := (below_argC_zero_iff w).mp hlow
  rw [← hA]
  exact commandWord_fields h12 h24

/-- The command a row reads from a word of its own encodes to that word, row by row of the opcode map (R60). -/
theorem encode_of_covers : ∀ r ∈ rows, r.covers w = true → encode (r.read w) = w := by
  simp only [rows, List.forall_mem_cons, List.not_mem_nil, false_imp_iff, implies_true, and_true, Row.covers, beq_iff_eq]
  exact ⟨commandWord_of_covers_none 0x00, commandWord_of_covers_none 0x01, commandWord_of_covers_none 0x10,
    commandWord_of_covers_C 0x11, commandWord_of_covers_A 0x12, commandWord_of_covers_A 0x13,
    commandWord_of_covers_none 0x14, commandWord_of_covers_A 0x15, commandWord_of_covers_A 0x16,
    commandWord_of_covers_none 0x20, commandWord_of_covers_none 0x21, commandWord_of_covers_A 0x22,
    commandWord_of_covers_none 0x23, commandWord_of_covers_A 0x24, commandWord_of_covers_none 0x25,
    commandWord_of_covers_A 0x26, commandWord_of_covers_none 0x27, commandWord_of_covers_none 0x28⟩

theorem encode_of_rowInstr {i : Instr} (h : rowInstr w = some i) : encode i = w := by
  obtain ⟨r, hr, rfl⟩ := Option.map_eq_some_iff.mp h
  exact encode_of_covers r (List.mem_of_find?_eq_some hr) (List.find?_some (p := fun r : Row => r.covers w) hr)

theorem rowInstr_encode (i : Instr) : rowInstr (encode i) = some i :=
  match i with
  | .nop => RowOfWord.nop
  | .abort => RowOfWord.abort
  | .zero => RowOfWord.zero
  | .perm C => RowOfWord.perm C
  | .frame A => RowOfWord.frame A
  | .xlen A => RowOfWord.xlen A
  | .xw => RowOfWord.xw
  | .xb A => RowOfWord.xb A
  | .rds A => RowOfWord.rds A
  | .init => RowOfWord.init
  | .adw => RowOfWord.adw
  | .adp A => RowOfWord.adp A
  | .encw => RowOfWord.encw
  | .encp A => RowOfWord.encp A
  | .decw => RowOfWord.decw
  | .decp A => RowOfWord.decp A
  | .fin => RowOfWord.fin
  | .verify => RowOfWord.verify

theorem decode_of_rowInstr {i : Instr} (h : rowInstr w = some i) :
    decode w = if i.wellFormed then .cmd i else .badArg i := by
  simp only [decode, h, Machine.argInRange_eq_wellFormed]

theorem decode_of_no_row (h : rowInstr w = none) : decode w = .illegal := by
  simp only [decode, h]

theorem decode_encode (i : Instr) : decode (encode i) = if i.wellFormed then .cmd i else .badArg i :=
  decode_of_rowInstr (rowInstr_encode i)

theorem decode_encode_legal {i : Instr} (h : i.wellFormed = true) : decode (encode i) = .cmd i :=
  (decode_encode i).trans (if_pos h)

theorem decode_encode_illegal {i : Instr} (h : i.wellFormed = false) : decode (encode i) = .badArg i :=
  (decode_encode i).trans (if_neg (Bool.not_eq_true _ ▸ h))

/-- What a decoded word can be: of no row, or the word of a command, with a legal operand or not (R62). -/
inductive DecodeCase (w : Word) : Decoded → Prop where
  | illegal (row : rowInstr w = none) : DecodeCase w .illegal
  | cmd (i : Instr) (word : encode i = w) (legal : i.wellFormed = true) : DecodeCase w (.cmd i)
  | badArg (i : Instr) (word : encode i = w) (legal : i.wellFormed = false) : DecodeCase w (.badArg i)

theorem decode_cases (w : Word) : DecodeCase w (decode w) := by
  cases hr : rowInstr w with
  | none => exact decode_of_no_row hr ▸ .illegal hr
  | some i =>
    rw [decode_of_rowInstr hr]
    split
    case isTrue hi => exact .cmd i (encode_of_rowInstr hr) hi
    case isFalse hi => exact .badArg i (encode_of_rowInstr hr) (Bool.eq_false_of_not_eq_true hi)

theorem decode_eq_cmd {i : Instr} (h : decode w = .cmd i) : encode i = w ∧ i.wellFormed = true := by
  cases h ▸ decode_cases w with
  | cmd _ word legal => exact ⟨word, legal⟩

theorem decode_eq_badArg {i : Instr} (h : decode w = .badArg i) : encode i = w ∧ i.wellFormed = false := by
  cases h ▸ decode_cases w with
  | badArg _ word legal => exact ⟨word, legal⟩

theorem decode_eq_illegal_iff : decode w = .illegal ↔ rowInstr w = none := by
  refine ⟨fun h => ?_, decode_of_no_row⟩
  cases h ▸ decode_cases w with
  | illegal row => exact row

end

/-! ### The illegal words (R61) -/

/-- No row of the opcode map has this OP. -/
def OpUnassigned (op : Nat) : Prop :=
  (0x02 ≤ op ∧ op ≤ 0x0F) ∨ (0x17 ≤ op ∧ op ≤ 0x1F) ∨ (0x29 ≤ op ∧ op ≤ 0xFF)

/-- The OPs of the commands without an operand. -/
def noOperandOps : List (BitVec 8) := [0x00, 0x01, 0x10, 0x14, 0x20, 0x21, 0x23, 0x25, 0x27, 0x28]

/-- The OPs of the commands with the argument A. -/
def argAOps : List (BitVec 8) := [0x12, 0x13, 0x15, 0x16, 0x22, 0x24, 0x26]

/-- The form of this OP has the field A. -/
def OpTakesA (op : Nat) : Prop := op ∈ argAOps.map BitVec.toNat

/-- A bit outside the fields of the form of the word's OP is set. -/
def ReservedBitSet (w : Word) : Prop :=
  w.extractLsb' 24 8 ≠ 0 ∨ w.extractLsb' 12 4 ≠ 0 ∨ (¬ (opOf w).toNat = 0x11 ∧ w.extractLsb' 16 8 ≠ 0) ∨
    (¬ OpTakesA (opOf w).toNat ∧ w.extractLsb' 8 4 ≠ 0)

theorem op_class (op : BitVec 8) : OpUnassigned op.toNat ∨ op ∈ noOperandOps ∨ op ∈ argAOps ∨ op = 0x11 := by
  unfold OpUnassigned
  revert op; decide

theorem noOperandOps_class : ∀ op ∈ noOperandOps, ¬ OpUnassigned op.toNat ∧ ¬ op.toNat = 0x11 ∧ ¬ OpTakesA op.toNat := by
  unfold OpUnassigned OpTakesA; decide

theorem argAOps_class : ∀ op ∈ argAOps, ¬ OpUnassigned op.toNat ∧ ¬ op.toNat = 0x11 ∧ OpTakesA op.toNat := by
  unfold OpUnassigned OpTakesA; decide

theorem opC_class : ¬ OpUnassigned (0x11 : BitVec 8).toNat ∧ ¬ OpTakesA (0x11 : BitVec 8).toNat := by
  unfold OpUnassigned OpTakesA; decide

section
variable {w : Word}

theorem rowInstr_of_unassigned (h : OpUnassigned (opOf w).toNat) : rowInstr w = none := by
  have assigned : ∀ r ∈ rows, ¬ OpUnassigned (opOf r.pattern).toNat := by unfold OpUnassigned; decide
  refine Option.map_eq_none_iff.mpr (List.find?_eq_none.mpr fun r hr hc => assigned r hr ?_)
  rwa [← covers_op hr hc]

theorem rowInstr_of_noOperand (h : opOf w ∈ noOperandOps) : rowInstr w = none ↔ w.extractLsb' 8 24 ≠ 0 := by
  simp only [noOperandOps, List.mem_cons, List.not_mem_nil, or_false] at h
  obtain h | h | h | h | h | h | h | h | h | h := h <;> simp [rowInstr_fields, h]

theorem rowInstr_of_argA (h : opOf w ∈ argAOps) : rowInstr w = none ↔ w.extractLsb' 12 20 ≠ 0 := by
  simp only [argAOps, List.mem_cons, List.not_mem_nil, or_false] at h
  obtain h | h | h | h | h | h | h := h <;> simp [rowInstr_fields, h]

theorem rowInstr_of_argC (h : opOf w = 0x11) :
    rowInstr w = none ↔ ¬ (w.extractLsb' 8 8 = 0 ∧ w.extractLsb' 24 8 = 0) := by
  simp [rowInstr_fields, h]

/-- The four classes of OP: an unassigned one, and one of each form with its own reserved bits. -/
theorem decode_illegal_iff (w : Word) : decode w = .illegal ↔ OpUnassigned (opOf w).toNat ∨ ReservedBitSet w := by
  rw [decode_eq_illegal_iff, ReservedBitSet]
  obtain h | h | h | h := op_class (opOf w)
  · exact iff_of_true (rowInstr_of_unassigned h) (.inl h)
  · obtain ⟨hu, hC, hA⟩ := noOperandOps_class _ h
    rw [rowInstr_of_noOperand h, Ne, above_op_zero_iff]
    tauto
  · obtain ⟨hu, hC, hA⟩ := argAOps_class _ h
    rw [rowInstr_of_argA h, Ne, above_argA_zero_iff]
    tauto
  · obtain ⟨hu, hA⟩ := opC_class
    rw [rowInstr_of_argC h, below_argC_zero_iff, h]
    have hC : (0x11 : BitVec 8).toNat = 0x11 := rfl
    tauto

end

end Sys2Proof.Laws
end

section
/-! PROOFS. The statements about the encoding, the written commands and the issue of a command word (30_encoding.md). -/

namespace Sys2Proof.Machine

/-! ### Words and commands -/

/-- Settles O4: the row of a command's word is its own and reads the operand back, whatever its value. -/
theorem decodeReadsEveryEncodedCommand : Obligations.DecodeReadsEveryEncodedCommand :=
  fun _ => ⟨Laws.decode_encode_legal, Laws.decode_encode_illegal⟩

/-- Settles O5: a row fixes every bit outside the operand field, so the word is that of the command the row reads. -/
theorem encodeGivesBackTheDecodedWord : Obligations.EncodeGivesBackTheDecodedWord :=
  fun _ _ => ⟨Laws.decode_eq_cmd, Laws.decode_eq_badArg⟩

/-- Settles O7: the words of a command with an operand are the OP with the operand in its field; the words written out are
evaluated. -/
theorem commandWordsAsListed : Obligations.CommandWordsAsListed := by
  refine ⟨⟨rfl, rfl, rfl, Laws.commandWord_C 0x11, rfl, rfl, rfl, rfl, rfl, rfl, rfl, Laws.commandWord_A 0x13, rfl,
    Laws.commandWord_A 0x15, Laws.commandWord_A 0x16, rfl, rfl, Laws.commandWord_A 0x22, rfl, Laws.commandWord_A 0x24, rfl,
    Laws.commandWord_A 0x26, rfl, rfl⟩, ?_⟩
  decide

/-! ### Written commands (R66) -/

theorem numberA_eq_some_iff (n : Nat) (A : BitVec 4) : numberA n = some A ↔ A.toNat = n := by
  unfold numberA
  split
  · rw [Option.some_inj, BitVec.toNat_eq]
    simp; omega
  · simp; omega

theorem numberC_eq_some_iff (n : Nat) (C : BitVec 8) : numberC n = some C ↔ C.toNat = n := by
  unfold numberC
  split
  · rw [Option.some_inj, BitVec.toNat_eq]
    simp; omega
  · simp; omega

theorem assemble_of_readLine {m : String} {o : Option OperandText} {i : Instr} (h : readLine m o = some i) :
    assemble m o = if i.wellFormed then some (encode i) else none := by
  rw [assemble, h]

/-- A mnemonic that reads a number as a field of k bits and accepts it in a range within the field is written with the
numbers of that range. -/
theorem spellsNumber {m : String} {op : Word} {k low high place : Nat} {number : Nat → Option (BitVec k)}
    {command : BitVec k → Instr} (missing : readLine m none = none)
    (read : ∀ n, readLine m (some (.number n)) = (number n).map command)
    (fits : ∀ n x, number n = some x ↔ x.toNat = n) (hhigh : high < 2 ^ k)
    (word : ∀ x, encode (command x) = op ||| (x.setWidth 32 <<< place))
    (legal : ∀ x, (command x).wellFormed = true ↔ low ≤ x.toNat ∧ x.toNat ≤ high) :
    Spec.SpellsNumber m op low high place := by
  refine ⟨by rw [assemble, missing], fun n => ?_⟩
  cases hx : number n with
  | none =>
    have hn : ¬ (low ≤ n ∧ n ≤ high) := fun h => by
      have := (fits n (BitVec.ofNat k n)).mpr (Nat.mod_eq_of_lt (by omega))
      simp [hx] at this
    rw [assemble, read, hx, Option.map_none, if_neg hn]
  | some x =>
    obtain rfl := (fits n x).mp hx
    rw [assemble_of_readLine ((read _).trans (congrArg _ hx)), word, BitVec.ofNat_toNat]
    simp only [legal]

theorem selectorLegal_iff (A : BitVec 4) : selectorLegal A = true ↔ 0 ≤ A.toNat ∧ A.toNat ≤ 3 := by
  simp [selectorLegal]

theorem lengthLegal_iff (A : BitVec 4) : lengthLegal A = true ↔ 1 ≤ A.toNat ∧ A.toNat ≤ 3 := by
  simp [lengthLegal]

/-- A frame selector or a state word index is written with 0 to 3. -/
theorem spellsSelector {m : String} (op : BitVec 8) (command : BitVec 4 → Instr) (missing : readLine m none = none)
    (read : ∀ n, readLine m (some (.number n)) = (numberA n).map command)
    (word : ∀ A, encode (command A) = commandWord op A 0) (legal : ∀ A, (command A).wellFormed = selectorLegal A) :
    Spec.SpellsNumber m (op.setWidth 32) 0 3 8 :=
  spellsNumber missing read numberA_eq_some_iff (by decide) (fun A => (word A).trans (Laws.commandWord_A op A))
    (fun A => legal A ▸ selectorLegal_iff A)

/-- A trailing length or byte count is written with 1 to 3. -/
theorem spellsLength {m : String} (op : BitVec 8) (command : BitVec 4 → Instr) (missing : readLine m none = none)
    (read : ∀ n, readLine m (some (.number n)) = (numberA n).map command)
    (word : ∀ A, encode (command A) = commandWord op A 0) (legal : ∀ A, (command A).wellFormed = lengthLegal A) :
    Spec.SpellsNumber m (op.setWidth 32) 1 3 8 :=
  spellsNumber missing read numberA_eq_some_iff (by decide) (fun A => (word A).trans (Laws.commandWord_A op A))
    (fun A => legal A ▸ lengthLegal_iff A)

theorem spellsPerm : Spec.SpellsNumber "PERM" 0x11 0 255 16 :=
  spellsNumber rfl (fun _ => rfl) numberC_eq_some_iff (by decide) (Laws.commandWord_C 0x11)
    (fun C => iff_of_true rfl ⟨Nat.zero_le _, Nat.le_of_lt_succ C.isLt⟩)

theorem assemble_frameName {m : String} {o : Option OperandText} (hm : m ≠ "FRAME")
    (ho : o = some .iv ∨ o = some .ad ∨ o = some .pc ∨ o = some .fin) : assemble m o = none := by
  refine Option.eq_none_iff_forall_ne_some.mpr fun w h => hm ?_
  obtain ⟨i, hi, -⟩ := assemble_eq_some h
  exact (readLine_mnemonic hi).2 ho

/-- The mnemonics of R60. -/
def mnemonics : List String :=
  ["NOP", "ABORT", "ZERO", "PERM", "FRAME", "XLEN", "XW", "XB", "RDS", "INIT", "ADW", "ADP", "ENCW", "ENCP",
    "DECW", "DECP", "FIN", "VERIFY"]

theorem mnemonic_mem (i : Instr) : i.mnemonic ∈ mnemonics := by
  cases i <;> simp [Instr.mnemonic, mnemonics]

theorem assemble_other {m : String} (o : Option OperandText) (hm : m ∉ mnemonics) : assemble m o = none := by
  refine Option.eq_none_iff_forall_ne_some.mpr fun w h => hm ?_
  obtain ⟨i, hi, -⟩ := assemble_eq_some h
  exact (readLine_mnemonic hi).1 ▸ mnemonic_mem i

/-- The number written is the operand field of the word: C for PERM, A for every other mnemonic that takes one. -/
theorem operandField_of_readLine {m : String} {n : Nat} {i : Instr} (h : readLine m (some (.number n)) = some i) :
    if m = "PERM" then (argC (encode i)).toNat = n else (argA (encode i)).toNat = n := by
  obtain ⟨rfl, -⟩ := readLine_mnemonic h
  cases i with
  | perm C =>
    obtain ⟨_, hC, hread⟩ := Option.map_eq_some_iff.mp h
    cases hread
    exact (congrArg BitVec.toNat (Laws.argC_commandWord 0x11 0 C)).trans ((numberC_eq_some_iff n C).mp hC)
  | frame A | xlen A | xb A | rds A | adp A | encp A | decp A =>
    obtain ⟨_, hA, hread⟩ := Option.map_eq_some_iff.mp h
    cases hread
    rw [if_neg (by simp [Instr.mnemonic])]
    exact (congrArg BitVec.toNat (Laws.argA_commandWord _ A 0)).trans ((numberA_eq_some_iff n A).mp hA)
  | _ => cases h

/-- Every command can be written: alone, or with its operand as a number. -/
theorem exists_readLine (i : Instr) : ∃ o, readLine i.mnemonic o = some i := by
  cases i with
  | perm C => exact ⟨some (.number C.toNat), congrArg (Option.map _) ((numberC_eq_some_iff _ C).mpr rfl)⟩
  | frame A | xlen A | xb A | rds A | adp A | encp A | decp A =>
    exact ⟨some (.number A.toNat), congrArg (Option.map _) ((numberA_eq_some_iff _ A).mpr rfl)⟩
  | _ => exact ⟨none, rfl⟩

theorem spellsAlone_encode {m : String} {i : Instr} (alone : readLine m none = some i) (legal : i.wellFormed = true)
    (operand : ∀ o, readLine m (some o) = none) : Spec.SpellsAlone m (encode i) :=
  ⟨by rw [assemble_of_readLine alone, if_pos legal], fun o => by rw [assemble, operand]⟩

/-- Settles O8: by the lemmas above on what each mnemonic reads; a word assembled is the encoding of a command read with a
legal operand. -/
theorem assemblerSpellsTheLegalCommands : Obligations.AssemblerSpellsTheLegalCommands := by
  refine ⟨?alone, ?number, ?frameNames, ?onlyFrame, fun m o => assemble_other o, ?field, ?decodes, ?writable,
    fun _ _ => rfl, fun _ => rfl⟩
  case alone =>
    exact ⟨spellsAlone_encode (i := .nop) rfl rfl (fun _ => rfl), spellsAlone_encode (i := .abort) rfl rfl (fun _ => rfl),
      spellsAlone_encode (i := .zero) rfl rfl (fun _ => rfl), spellsAlone_encode (i := .xw) rfl rfl (fun _ => rfl),
      spellsAlone_encode (i := .init) rfl rfl (fun _ => rfl), spellsAlone_encode (i := .adw) rfl rfl (fun _ => rfl),
      spellsAlone_encode (i := .encw) rfl rfl (fun _ => rfl), spellsAlone_encode (i := .decw) rfl rfl (fun _ => rfl),
      spellsAlone_encode (i := .fin) rfl rfl (fun _ => rfl), spellsAlone_encode (i := .verify) rfl rfl (fun _ => rfl)⟩
  case number =>
    exact ⟨spellsPerm, spellsSelector 0x12 .frame rfl (fun _ => rfl) (fun _ => rfl) (fun _ => rfl),
      spellsLength 0x13 .xlen rfl (fun _ => rfl) (fun _ => rfl) (fun _ => rfl),
      spellsLength 0x15 .xb rfl (fun _ => rfl) (fun _ => rfl) (fun _ => rfl),
      spellsSelector 0x16 .rds rfl (fun _ => rfl) (fun _ => rfl) (fun _ => rfl),
      spellsLength 0x22 .adp rfl (fun _ => rfl) (fun _ => rfl) (fun _ => rfl),
      spellsLength 0x24 .encp rfl (fun _ => rfl) (fun _ => rfl) (fun _ => rfl),
      spellsLength 0x26 .decp rfl (fun _ => rfl) (fun _ => rfl) (fun _ => rfl)⟩
  case frameNames => decide
  case onlyFrame =>
    intro m hm
    exact ⟨assemble_frameName hm (by simp), assemble_frameName hm (by simp), assemble_frameName hm (by simp),
      assemble_frameName hm (by simp)⟩
  case field =>
    intro m n w h
    obtain ⟨i, hi, -, rfl⟩ := assemble_eq_some h
    exact operandField_of_readLine hi
  case decodes =>
    intro m o w h
    obtain ⟨i, hi, legal, rfl⟩ := assemble_eq_some h
    exact ⟨i, Laws.decode_encode_legal legal, (readLine_mnemonic hi).1.symm, legal⟩
  case writable =>
    intro i legal
    obtain ⟨o, ho⟩ := exists_readLine i
    exact ⟨o, (assemble_of_readLine ho).trans (if_pos legal)⟩

/-! ### Issue (R63 to R65) -/

section
variable {w : Word} {i : Instr} {s : State}

theorem issue_illegal (hw : decode w = .illegal) (hE : s.ERR = false) :
    issue w s = .next (s.raiseCmdError .illegalCommand) := by
  simp [issue, hw, hE]

theorem issue_badArg (hw : decode w = .badArg i) (s : State) : issue w s = exec i s := by
  rw [issue, hw]

theorem issue_starts (hw : decode w = .cmd i) (acc : s.accepts i = true) (busy : goesBusy i = true) :
    issue w s = .next (s.start i) := by
  simp [issue, hw, acc, busy]

theorem issue_executes (hw : decode w = .cmd i) (quick : (s.accepts i && goesBusy i) = false) :
    issue w s = exec i s := by
  simp [issue, hw, quick]

theorem accepts_of_admitted (hE : s.ERR = false) (legal : i.wellFormed = true) (hp : admitted i s.PHASE = true) :
    s.accepts i = true := by
  simp [State.accepts, argInRange_eq_wellFormed, hE, legal, hp]

/-- In error, outside its phases or not one of R64's list, a command is not put in flight: ABORT, the one that runs in
error, does not go busy (R117). -/
theorem not_started (h : s.ERR = true ∨ admitted i s.PHASE = false ∨ goesBusy i = false) :
    (s.accepts i && goesBusy i) = false := by
  obtain hE | hp | hb := h
  · have habort : (runsInError i && goesBusy i) = false := by cases i <;> rfl
    obtain h | h := Bool.and_eq_false_iff.mp habort <;> simp [State.accepts, hE, h]
  · simp [State.accepts, hp]
  · simp [hb]

end

/-- Settles O6: the reserved bits are those of the form of the OP, and the issue of an illegal word raises
ILLEGAL_COMMAND. -/
theorem illegalWordsExactly : Obligations.IllegalWordsExactly := fun w =>
  ⟨Laws.decode_illegal_iff w, fun h _ hE => issue_illegal ((Laws.decode_illegal_iff w).mpr h) hE⟩

/-- Settles O12: the table written out is `admitted` and `nextPhase`, command by command. -/
theorem admissionTable : Obligations.AdmissionTable := by
  intro i s hE legal inPhases next
  have hin : inPhases ↔ admitted i s.PHASE = true := by cases i <;> simp [inPhases, admitted, or_assoc]
  have hnext : nextPhase i s.PHASE = next := by cases i <;> rfl
  refine ⟨fun h => ?_, fun h => ?_⟩
  · exact exec_sequence hE ((argInRange_eq_wellFormed i).trans legal) (Bool.eq_false_of_not_eq_true (hin.not.mp h))
  · exact ⟨_, exec_of_accepts (accepts_of_admitted hE legal (hin.mp h)), hnext, effectOf_ERR i hE⟩

/-- Settles O13: the list is `goesBusy`, command by command; a command that goes busy is started and any other is
executed, which leaves nothing in flight. -/
theorem goBusySet : Obligations.GoBusySet := by
  intro i s hE hf legal hp listed
  have hlisted : goesBusy i = true ↔ listed := by
    cases i with
    | perm C =>
      simp only [listed, goesBusy, bne_iff_ne, Instr.perm.injEq, exists_eq_left', reduceCtorEq, exists_false, or_false]
      bv_omega
    | _ => simp [listed, goesBusy]
  have hw := Laws.decode_encode_legal legal
  cases hb : goesBusy i with
  | true =>
    have hl := hlisted.mp hb
    exact ⟨s.start i, issue_starts hw (accepts_of_admitted hE legal hp) hb, iff_of_true rfl hl, absurd hl⟩
  | false =>
    have hl : ¬ listed := hlisted.not.mp (Bool.not_eq_true _ ▸ hb)
    obtain ⟨t, ht⟩ := exec_next i s
    obtain ⟨-, -, -, -, hft, -⟩ := exec_frame ht
    have hidle : t.BUSY = false := t.BUSY_eq_false.mpr (hft.trans hf)
    exact ⟨t, (issue_executes hw (not_started (.inr (.inr hb)))).trans ht, by simp [hidle, hl], fun _ => ht⟩

/-! ### Steps: a CMD write and a completion (R65, R135) -/

section
variable {s : State} {w : Word} {rest : List PortEvent}

theorem step_cmdWrite (hf : s.inFlight = none) (hh : s.held = none) (hp : s.port = .access (cmdWrite w) :: rest) :
    step s = andThen (issue w { s with port := rest }) fun t => .next (t.answer .done) := by
  rw [step_access hf hh hp, perform_of_reg (r := .cmd) rfl]
  exact performOn_write_cmd w _

theorem withCommand_of_port (hf : s.inFlight = none) (hh : s.held = none)
    (hp : s.port = .access (cmdWrite w) :: rest) : State.withCommand { s with port := rest } w = s := by
  rw [State.withCommand, ← hf, ← hh, ← hp]

theorem tableWord_toNat (w : Word) : tableWord 32 w.toNat = w := by
  rw [tableWord, Nat.mod_eq_of_lt w.isLt, BitVec.ofNat_toNat, BitVec.setWidth_eq]

theorem step_completes {f : InFlight} (hf : s.inFlight = some f) (hr : f.remaining ≤ 1) (hp : s.port = []) :
    step s = complete f s := by
  rw [step_busy hf (by simp [hp]), hostWhileBusy, hp, andThen_next, runInFlight, if_pos hr]

end

/-- Settles O54: the step is the issue of the word with the write answered, and issue starts or executes the command. -/
theorem stepRunsTheDecodedCommand : Obligations.StepRunsTheDecodedCommand := by
  intro s w i rest hf hh hp
  rw [step_cmdWrite hf hh hp, State.withFetchWord, tableWord_toNat]
  refine ⟨fun hw hE hadm hbusy => ?_, fun h => ?_, withCommand_of_port hf hh hp⟩
  · obtain ⟨-, legal⟩ := Laws.decode_eq_cmd hw
    have hissue : issue w { s with port := rest } = .next (State.start { s with port := rest } i) :=
      issue_starts hw (accepts_of_admitted hE legal hadm) hbusy
    rw [hissue]
    rfl
  · have hissue : issue w { s with port := rest } = exec i { s with port := rest } := by
      obtain ⟨hw, hnot⟩ | hw := h
      · exact issue_executes hw (not_started hnot)
      · exact issue_badArg hw _
    obtain ⟨t, ht⟩ := exec_next i { s with port := rest }
    refine ⟨t, ht, ?_⟩
    rw [hissue, ht]
    rfl

/-- Settles O55: with no event at the port the host's side of the last cycle does nothing, and what is left is the
completion. -/
theorem completionRunsTheCommandInFlight : Obligations.CompletionRunsTheCommandInFlight := by
  intro s f hf hr hp
  obtain ⟨t, ht⟩ := exec_next f.cmd s
  refine ⟨t, ht, ?_, State.dinRead_inFlight hf⟩
  rw [step_completes hf hr hp, complete, ht, andThen_next]

end Sys2Proof.Machine
end

section
/-! PROOFS. The permutation (40_permutation.md R69 to R75): the four steps of a chunk, the key-word index, its inverse, and
its reading as a shift register. -/

namespace Sys2Proof.Machine

/-! ### Chunks (R70, R71, R73) -/

/-- The step that targets word 1 reads the word that the step of word 0 wrote, and so on (R71). -/
theorem chunk_words (K : KeyWords) (S0 S1 S2 S3 : Word) (j : Fin 6) :
    let x0 := feedback S0 S1 S2 S3 (K.get j)
    let x1 := feedback S1 S2 S3 x0 (K.get (j + 1))
    let x2 := feedback S2 S3 x0 x1 (K.get (j + 2))
    let x3 := feedback S3 x0 x1 x2 (K.get (j + 3))
    chunk K (⟨S0, S1, S2, S3⟩, j) = (⟨x0, x1, x2, x3⟩, j + 4) := by
  have h2 : j + 1 + 1 = j + 2 := add_assoc j 1 1
  have h3 : j + 2 + 1 = j + 3 := add_assoc j 2 1
  have h4 : j + 3 + 1 = j + 4 := add_assoc j 3 1
  simp only [chunk, wordStep_0, wordStep_1, wordStep_2, wordStep_3, h2, h3, h4]

/-- Settles O32: the four steps in a row, with `feedback` written out. -/
theorem chunkIsFourSteps : Obligations.ChunkIsFourSteps :=
  chunk_words

theorem chunks_index (K : KeyWords) (n : Nat) (p : Block × Fin 6) :
    (chunks K n p).2.val = (p.2.val + 4 * n) % 6 := by
  induction n generalizing p with
  | zero => exact (Nat.mod_eq_of_lt p.2.isLt).symm
  | succ n ih =>
    rw [chunks_succ, ih, chunk_index, Fin.val_add]
    omega

theorem chunks_index_multiple_of_three (K : KeyWords) (m : Nat) (S : Block) : (chunks K (3 * m) (S, 0)).2 = 0 := by
  refine Fin.ext ((chunks_index K (3 * m) (S, 0)).trans ?_)
  rw [Fin.val_zero]
  omega

theorem stateUpdate_zero (S : Block) (K : KeyWords) : stateUpdate S K 0 = S := rfl

/-- Settles O33: the index moves by 4 mod 6 in a chunk, so after a multiple of three it is at 0 again, where every call
starts. -/
theorem stateUpdateSplitsAtMultiplesOfThree : Obligations.StateUpdateSplitsAtMultiplesOfThree := by
  refine ⟨fun K n S => ?_, stateUpdate_zero, fun S K m c => ?_⟩
  · rw [chunks_index, Fin.val_zero, Nat.zero_add]
  · rw [stateUpdate, chunks_add, ← Prod.mk.eta (p := chunks K (3 * m) (S, 0)), chunks_index_multiple_of_three]
    rfl

/-! ### The inverse (R75) -/

/-- The cipher state after the step that targets word w with key word K[j] (R70). -/
def stepBlock (K : KeyWords) (w : Fin 4) (j : Fin 6) (S : Block) : Block := (wordStep K w (S, j)).1

/-- A step leaves the three words its feedback reads, so the same step undoes it. -/
theorem stepBlock_involutive (K : KeyWords) (w : Fin 4) (j : Fin 6) : Function.Involutive (stepBlock K w j) := by
  rintro ⟨S0, S1, S2, S3⟩
  match w with
  | 0 => simp only [stepBlock, wordStep_0, feedback_feedback]
  | 1 => simp only [stepBlock, wordStep_1, feedback_feedback]
  | 2 => simp only [stepBlock, wordStep_2, feedback_feedback]
  | 3 => simp only [stepBlock, wordStep_3, feedback_feedback]

theorem chunk_bijective (K : KeyWords) (j : Fin 6) : Function.Bijective fun S => (chunk K (S, j)).1 :=
  have bij (w : Fin 4) (j : Fin 6) := (stepBlock_involutive K w j).bijective
  (bij 3 (j + 1 + 1 + 1)).comp ((bij 2 (j + 1 + 1)).comp ((bij 1 (j + 1)).comp (bij 0 j)))

/-- From every key-word index, since the index of the chunks that follow does not depend on the cipher state. -/
theorem chunks_bijective (K : KeyWords) (n : Nat) (j : Fin 6) :
    Function.Bijective fun S => (chunks K n (S, j)).1 := by
  induction n generalizing j with
  | zero => exact Function.bijective_id
  | succ n ih =>
    have hcomp : (fun S => (chunks K (n + 1) (S, j)).1)
        = (fun S => (chunks K n (S, j + 4)).1) ∘ fun S => (chunk K (S, j)).1 := by
      funext S
      rw [Function.comp_apply, chunks_succ, ← chunk_index K (S, j)]
    rw [hcomp]
    exact (ih (j + 4)).comp (chunk_bijective K j)

/-- Settles O34: a call starts at index 0, and each of its chunks is four steps that undo themselves. -/
theorem stateUpdateIsABijection : Obligations.StateUpdateIsABijection := fun K c => chunks_bijective K c 0

/-! ### The shift register (R72) -/

/-- What 32 rounds shift in, of which m < 32 is this bit: the taps of round m all lie in the register as it was (R72). -/
def tapsAt (r : BitVec 128) (m : Nat) (k : Bool) : Bool :=
  r.getLsbD m ^^ r.getLsbD (m + 47) ^^ !(r.getLsbD (m + 70) && r.getLsbD (m + 85)) ^^ r.getLsbD (m + 91) ^^ k

theorem nlfsrRound_bit (r : BitVec 128) (k : Bool) {b : Nat} (hb : b < 128) :
    (nlfsrRound r k).getLsbD b = if b < 127 then r.getLsbD (b + 1) else tapsAt r 0 k := by
  rw [nlfsrRound, BitVec.getLsbD_append, BitVec.getLsbD_extractLsb']
  split
  · next h => simp [h, Nat.add_comm]
  · next h => simp [show b = 127 by omega, tapsAt, nlfsrFeedback]

theorem tapsAt_nlfsrRound (r : BitVec 128) (k k' : Bool) {m : Nat} (hm : m < 32) :
    tapsAt (nlfsrRound r k) m k' = tapsAt r (m + 1) k' := by
  have tap (d : Nat) (hd : d ≤ 91) : (nlfsrRound r k).getLsbD (m + d) = r.getLsbD (m + 1 + d) := by
    rw [nlfsrRound_bit r k (by omega), if_pos (by omega), Nat.add_right_comm]
  simp only [tapsAt, tap 47 (by decide), tap 70 (by decide), tap 85 (by decide), tap 91 (by decide)]
  rw [← Nat.add_zero m, tap 0 (by decide)]

/-- Up to 32 rounds at once: the register moves down by n, and its top n bits are the taps of the old register. -/
theorem nlfsrRounds_bit (K : KeyWords) {n : Nat} (hn : n ≤ 32) (i : Nat) (r : BitVec 128) {b : Nat} (hb : b < 128) :
    (nlfsrRounds K i n r).getLsbD b =
      if b + n < 128 then r.getLsbD (b + n)
      else tapsAt r (b + n - 128) (K.register.getLsbD ((i + (b + n - 128)) % 192)) := by
  induction n generalizing i r with
  | zero => simp [nlfsrRounds, hb]
  | succ n ih =>
    rw [nlfsrRounds, ih (by omega)]
    obtain h | h | h : b + n < 127 ∨ b + n = 127 ∨ 127 < b + n := by omega
    · rw [if_pos (by omega), if_pos (by omega), nlfsrRound_bit _ _ (by omega), if_pos h, Nat.add_assoc]
    · rw [if_pos (by omega), if_neg (by omega), nlfsrRound_bit _ _ (by omega), if_neg (by omega),
        show b + (n + 1) - 128 = 0 by omega, Nat.add_zero]
    · rw [if_neg (by omega), if_neg (by omega), tapsAt_nlfsrRound _ _ _ (by omega),
        show b + (n + 1) - 128 = b + n - 128 + 1 by omega, Nat.add_right_comm i 1, Nat.add_assoc i]

theorem nlfsrRounds_add (K : KeyWords) (m n i : Nat) (r : BitVec 128) :
    nlfsrRounds K i (m + n) r = nlfsrRounds K (i + m) n (nlfsrRounds K i m r) := by
  induction m generalizing i r with
  | zero => rw [Nat.zero_add]; rfl
  | succ m ih => rw [Nat.succ_add, nlfsrRounds, ih, nlfsrRounds, Nat.add_right_comm, Nat.add_assoc]

/-! Words and the bits of the register (R18). -/

theorem register_bit (S : Block) (b : Nat) : S.register.getLsbD b =
    if b < 32 then S.s0.getLsbD b else if b < 64 then S.s1.getLsbD (b - 32)
    else if b < 96 then S.s2.getLsbD (b - 64) else S.s3.getLsbD (b - 96) := by
  simp only [Block.register, BitVec.getLsbD_append]
  grind

theorem keyRegister_bit (K : KeyWords) (q : Nat) {m : Nat} (hm : m < 32) :
    K.register.getLsbD ((32 * q + m) % 192) = (K.get (Fin.ofNat 6 q)).getLsbD m := by
  have hq : (32 * q + m) % 192 = 32 * (Fin.ofNat 6 q).val + m := by
    rw [Fin.val_ofNat]
    omega
  rw [hq]
  generalize Fin.ofNat 6 q = j
  simp only [KeyWords.register, BitVec.getLsbD_append]
  match j with
  | 0 | 1 | 2 | 3 | 4 | 5 => grind [KeyWords.get]

/-- A word that the shifts of R70 take from two neighbours is 32 bits of the pair, from bit `sh` of the lower one on. -/
theorem shiftPair_bit (lo hi : Word) {sh i : Nat} (hs : sh ≤ 32) (hi32 : i < 32) :
    ((lo >>> sh) ||| (hi <<< (32 - sh))).getLsbD i =
      if i + sh < 32 then lo.getLsbD (i + sh) else hi.getLsbD (i + sh - 32) := by
  simp only [BitVec.getLsbD_or, BitVec.getLsbD_ushiftRight, BitVec.getLsbD_shiftLeft]
  grind

theorem feedback_bit (S : Block) (k : Word) {m : Nat} (hm : m < 32) :
    (feedback S.s0 S.s1 S.s2 S.s3 k).getLsbD m = tapsAt S.register m (k.getLsbD m) := by
  have t1 := shiftPair_bit S.s1 S.s2 (sh := 15) (by decide) hm
  have t2 := shiftPair_bit S.s2 S.s3 (sh := 6) (by decide) hm
  have t3 := shiftPair_bit S.s2 S.s3 (sh := 21) (by decide) hm
  have t4 := shiftPair_bit S.s2 S.s3 (sh := 27) (by decide) hm
  simp only [feedback, BitVec.getLsbD_xor, BitVec.getLsbD_not, BitVec.getLsbD_and, t1, t2, t3, t4, tapsAt, register_bit]
  grind

/-- The register moved down by one word. -/
def Block.shiftIn (S : Block) (v : Word) : Block := ⟨S.s1, S.s2, S.s3, v⟩

/-- 32 rounds are one step of R70, but for the target word, which comes in at the top (R72). -/
theorem nlfsrRounds_word (K : KeyWords) (q : Nat) (S : Block) :
    nlfsrRounds K (32 * q) 32 S.register =
      (S.shiftIn (feedback S.s0 S.s1 S.s2 S.s3 (K.get (Fin.ofNat 6 q)))).register := by
  refine BitVec.eq_of_getLsbD_eq fun b hb => ?_
  rw [nlfsrRounds_bit K le_rfl _ _ hb]
  split
  · next h => simp only [register_bit, Block.shiftIn]; grind
  · next h =>
    rw [keyRegister_bit K q (by omega), ← feedback_bit S _ (by omega), register_bit]
    simp only [Block.shiftIn, show b + 32 - 128 = b - 96 by omega]
    grind

/-- 128 rounds are one chunk: after four words every word is back in its place. -/
theorem nlfsrRounds_chunk (K : KeyWords) (q : Nat) (S : Block) :
    nlfsrRounds K (32 * q) 128 S.register = (chunk K (S, Fin.ofNat 6 q)).1.register := by
  obtain ⟨S0, S1, S2, S3⟩ := S
  have nextIndex (q : Nat) : Fin.ofNat 6 q + 1 = Fin.ofNat 6 (q + 1) := by ext; simp [Fin.val_add]
  have word (q n : Nat) (S : Block) : nlfsrRounds K (32 * q) (32 + n) S.register =
      nlfsrRounds K (32 * (q + 1)) n (S.shiftIn (feedback S.s0 S.s1 S.s2 S.s3 (K.get (Fin.ofNat 6 q)))).register := by
    rw [nlfsrRounds_add, nlfsrRounds_word, Nat.mul_succ]
  refine (word q 96 _).trans ((word (q + 1) 64 _).trans
    ((word (q + 1 + 1) 32 _).trans ((word (q + 1 + 1 + 1) 0 _).trans ?_)))
  simp only [chunk, wordStep_0, wordStep_1, wordStep_2, wordStep_3, nextIndex]
  rfl

/-- The chunks of a call from chunk q on, with the key-word index and the round number carried along. -/
theorem nlfsrRounds_chunks (K : KeyWords) (c q : Nat) (S : Block) :
    nlfsrRounds K (128 * q) (128 * c) S.register = (chunks K c (S, Fin.ofNat 6 (4 * q))).1.register := by
  induction c generalizing q S with
  | zero => rfl
  | succ c ih =>
    have hindex : (chunk K (S, Fin.ofNat 6 (4 * q))).2 = Fin.ofNat 6 (4 * (q + 1)) := by
      rw [chunk_index, Fin.ext_iff, Fin.val_add, Fin.val_ofNat, Fin.val_ofNat]
      omega
    calc nlfsrRounds K (128 * q) (128 * (c + 1)) S.register
        = nlfsrRounds K (128 * (q + 1)) (128 * c) (nlfsrRounds K (32 * (4 * q)) 128 S.register) := by
          rw [Nat.mul_succ, Nat.add_comm, nlfsrRounds_add, Nat.mul_succ, ← Nat.mul_assoc]
      _ = (chunks K c ((chunk K (S, Fin.ofNat 6 (4 * q))).1, Fin.ofNat 6 (4 * (q + 1)))).1.register := by
          rw [nlfsrRounds_chunk, ih]
      _ = (chunks K (c + 1) (S, Fin.ofNat 6 (4 * q))).1.register := by
          rw [chunks_succ, ← hindex]

/-- Settles O35: a call starts at chunk 0, round 0. -/
theorem chunksAreRoundsOfTheShiftRegister : Obligations.ChunksAreRoundsOfTheShiftRegister :=
  fun S K c => (nlfsrRounds_chunks K c 0 S).symm

end Sys2Proof.Machine
end

section
/-! PROOFS. How a rule says which words are a command's (30_encoding.md R60 to R62), and what a command does that is
ignored, rejected or a primitive (60_exceptions.md R115, R117; 40_permutation.md R76 to R82). -/

namespace Sys2Proof.Laws

open Sys2Proof.Spec

section
variable {w : Word}

theorem commandWord_of_no_operand (h : w.extractLsb' 8 24 = 0) : commandWord (opOf w) 0 0 = w :=
  commandWord_of_covers_none _ ((covers_none_iff w _).mpr ⟨rfl, h⟩)

theorem commandWord_of_argA (h : w.extractLsb' 12 20 = 0) : commandWord (opOf w) (argA w) 0 = w :=
  commandWord_of_covers_A _ ((covers_A_iff w _).mpr ⟨rfl, h⟩)

theorem commandWord_of_argC (h8 : w.extractLsb' 8 8 = 0) (h24 : w.extractLsb' 24 8 = 0) :
    commandWord (opOf w) 0 (argC w) = w :=
  commandWord_of_covers_C _ ((covers_C_iff w _).mpr ⟨rfl, h8, h24⟩)

/-- A word of the form has nothing above its OP, so every other word with that OP has (R60, R61). -/
theorem noOperandForm {i : Instr} (hop : opOf w ∈ noOperandOps) (hw : encode i = w) (legal : i.wellFormed = true) :
    NoOperandForm w i := by
  have decoded : decode w = .cmd i := hw ▸ decode_encode_legal legal
  have above (v : Word) (hv : opOf v = opOf w) : decode v = .illegal ↔ v.extractLsb' 8 24 ≠ 0 :=
    decode_eq_illegal_iff.trans (rowInstr_of_noOperand (hv ▸ hop))
  have wordOf (v : Word) (hv : opOf v = opOf w) (h : ¬ decode v = .illegal) : commandWord (opOf w) 0 0 = v :=
    hv ▸ commandWord_of_no_operand (not_not.mp ((above v hv).not.mp h))
  refine ⟨decoded, fun v hv hne => by_contra fun h => hne ?_⟩
  exact (wordOf v hv h).symm.trans (wordOf w rfl (by simp [decoded]))

/-- A word with nothing outside OP and A is the command's word for its own A (R60, R62). -/
theorem aForm {command : BitVec 4 → Instr} {legal : BitVec 4 → Prop} (hop : opOf w ∈ argAOps)
    (hw : ∀ A, encode (command A) = commandWord (opOf w) A 0)
    (hlegal : ∀ A, (command A).wellFormed = true ↔ legal A) : AForm w command legal := by
  intro v hv
  have hv : opOf v = opOf w := hv
  have wordOf (h : v.extractLsb' 12 20 = 0) : encode (command (argA v)) = v := by
    rw [hw, ← hv, commandWord_of_argA h]
  refine ⟨fun h => ?_, fun h hA => ?_, fun h hA => ?_⟩
  · exact decode_of_no_row ((rowInstr_of_argA (hv ▸ hop)).mpr h)
  · have := decode_encode_legal ((hlegal (argA v)).mpr hA)
    rwa [wordOf h] at this
  · have := decode_encode_illegal (Bool.eq_false_of_not_eq_true ((hlegal (argA v)).not.mpr hA))
    rwa [wordOf h] at this

end

theorem selectorLegal_iff_upTo3 (A : BitVec 4) : selectorLegal A = true ↔ upTo3 A := by
  unfold upTo3; revert A; decide

theorem lengthLegal_iff_oneTo3 (A : BitVec 4) : lengthLegal A = true ↔ oneTo3 A := by
  unfold oneTo3; revert A; decide

end Sys2Proof.Laws

namespace Sys2Proof.Machine

open Sys2Proof.Spec

theorem ignoredInError {i : Instr} (hi : runsInError i = false) : IgnoredInError i :=
  fun _ hE => exec_ignored hE hi

theorem rejected_badArg {i : Instr} {legal : Prop} (hlegal : i.wellFormed = true ↔ legal) (h : ¬ legal) (s : State) :
    Rejected i .badArg s :=
  fun hE => exec_badArg hE ((argInRange_eq_wellFormed i).trans (Bool.eq_false_of_not_eq_true (hlegal.not.mpr h)))

/-- The commands of 40_permutation.md R76 to R82. -/
def isPrimitive : Instr → Bool
  | .zero | .perm _ | .frame _ | .xlen _ | .xw | .xb _ | .rds _ => true
  | _ => false

/-- A primitive is admitted in every phase and leaves PHASE alone (R63). -/
theorem primitive_phase {i : Instr} (hi : isPrimitive i = true) (s : State) :
    admitted i s.PHASE = true ∧ nextPhase i s.PHASE = s.PHASE ∧ (effectOf i s).PHASE = s.PHASE := by
  cases i with
  | zero | perm C | frame A | xlen A | xw | xb A | rds A => exact ⟨rfl, rfl, rfl⟩
  | _ => cases hi

/-- With ERR = 0 and a legal operand a primitive has its effect and nothing else. -/
theorem exec_primitive {i : Instr} {s : State} (hE : s.ERR = false) (hi : isPrimitive i = true)
    (legal : i.wellFormed = true) : exec i s = .next (effectOf i s) := by
  obtain ⟨hadm, hnext, heffect⟩ := primitive_phase hi s
  rw [exec_of_accepts (accepts_of_admitted hE legal hadm), hnext, ← heffect]

end Sys2Proof.Machine
end

section
/-! PROOFS. The primitives (40_permutation.md R76 to R82), and the sequencer's commands from them (R83). -/

namespace Sys2Proof.Machine

open Sys2Proof.Spec

/-! ### Each primitive -/

/-- Settles O16: its effect leaves every register but S, and no command but ABORT runs in error. -/
theorem zeroClearsTheCipherState : Obligations.ZeroClearsTheCipherState :=
  ⟨Laws.noOperandForm (by decide) rfl rfl, rfl, ignoredInError rfl, fun _ hE => exec_primitive hE rfl rfl⟩

/-- Settles O17: a word of the C form is PERM's word for its own C, and no operand value is illegal. -/
theorem permRunsChunks : Obligations.PermRunsChunks := by
  have runs (C : BitVec 8) (s : State) (hE : s.ERR = false) :
      exec (.perm C) s = .next { s with S := stateUpdate s.S s.K C.toNat } := exec_primitive hE rfl rfl
  refine ⟨fun v hv => ⟨fun h => ?_, fun h24 h8 => ?_⟩, fun C => ?_, fun C => ignoredInError rfl, runs,
    fun s => runs 0 s⟩
  · exact Laws.decode_of_no_row ((Laws.rowInstr_of_argC hv).mpr (by tauto))
  · have hword : encode (.perm (argC v)) = v := by
      have hv : Laws.opOf v = 0x11 := hv
      rw [encode, ← hv, Laws.commandWord_of_argC h8 h24]
    have hdecode := Laws.decode_encode_legal (i := .perm (argC v)) rfl
    rwa [hword] at hdecode
  · rw [goesBusy, bne_iff_ne]
    bv_omega

/-- Settles O18: the effect with `frameConst` evaluated at the four selectors; xoring a constant in twice cancels. -/
theorem frameInjectsConstant : Obligations.FrameInjectsConstant := by
  have runs (A : BitVec 4) (s : State) (hE : s.ERR = false) (hA : upTo3 A) :
      exec (.frame A) s = .next { s with S := s.S.xorWord1 (frameConst A) } :=
    exec_primitive hE rfl ((Laws.selectorLegal_iff_upTo3 A).mpr hA)
  refine ⟨Laws.aForm (by decide) (fun _ => rfl) Laws.selectorLegal_iff_upTo3, fun _ => rfl, fun _ => ignoredInError rfl,
    fun A s hA => rejected_badArg (i := .frame A) (Laws.selectorLegal_iff_upTo3 A) hA s,
    fun _ hE => ⟨exec_primitive hE rfl rfl, exec_primitive hE rfl rfl, exec_primitive hE rfl rfl,
      exec_primitive hE rfl rfl⟩, fun A s hE hA => ?_⟩
  rw [execAll_cons (runs A s hE hA), execAll_cons (runs A { s with S := s.S.xorWord1 (frameConst A) } hE hA), execAll]
  simp only [Block.xorWord1, BitVec.xor_assoc, BitVec.xor_self, BitVec.xor_zero]

/-- Settles O19: the effect with `zextArg` evaluated at the three lengths. -/
theorem xlenInjectsLength : Obligations.XlenInjectsLength :=
  ⟨Laws.aForm (by decide) (fun _ => rfl) Laws.lengthLegal_iff_oneTo3, fun _ => rfl, fun _ => ignoredInError rfl,
    fun A s hA => rejected_badArg (i := .xlen A) (Laws.lengthLegal_iff_oneTo3 A) hA s,
    fun _ hE => ⟨exec_primitive hE rfl rfl, exec_primitive hE rfl rfl, exec_primitive hE rfl rfl⟩⟩

/-- Settles O20: the effects with `laneMask` evaluated at the three lengths; with nothing in flight DIN is read from its
register. -/
theorem absorbIntoWord3 : Obligations.AbsorbIntoWord3 :=
  ⟨Laws.noOperandForm (by decide) rfl rfl, Laws.aForm (by decide) (fun _ => rfl) Laws.lengthLegal_iff_oneTo3, rfl,
    fun _ => rfl, ignoredInError rfl, fun _ => ignoredInError rfl,
    fun A s hA => rejected_badArg (i := .xb A) (Laws.lengthLegal_iff_oneTo3 A) hA s,
    fun _ hE => ⟨exec_primitive hE rfl rfl, exec_primitive hE rfl rfl, exec_primitive hE rfl rfl,
      exec_primitive hE rfl rfl⟩,
    fun _ => State.dinRead_idle⟩

/-- Settles O21: the effect with `wordIndex` evaluated at the four selectors. -/
theorem rdsCopiesStateWord : Obligations.RdsCopiesStateWord :=
  ⟨Laws.aForm (by decide) (fun _ => rfl) Laws.selectorLegal_iff_upTo3, fun _ => rfl, fun _ => ignoredInError rfl,
    fun A s hA => rejected_badArg (i := .rds A) (Laws.selectorLegal_iff_upTo3 A) hA s,
    fun _ hE => ⟨exec_primitive hE rfl rfl, exec_primitive hE rfl rfl, exec_primitive hE rfl rfl,
      exec_primitive hE rfl rfl⟩⟩

/-! ### Primitives in a row (R83) -/

/-- The state with another cipher state, DIN, DOUT and answers: what primitives and host accesses between them change. -/
def State.withData (s : State) (S : Block) (din dout : Word) (answers : List Answer) : State :=
  { s with S := S, DIN := din, DOUT := dout, answers := answers }

@[simp] theorem State.withData_S (s : State) (S : Block) (din dout : Word) (answers : List Answer) :
    (s.withData S din dout answers).S = S := rfl

/-- The cipher state a primitive leaves (R76 to R82). -/
def blockAfter (K : KeyWords) (din : Word) : Instr → Block → Block
  | .zero, _ => .zero
  | .perm C, S => stateUpdate S K C.toNat
  | .frame A, S => S.xorWord1 (frameConst A)
  | .xlen A, S => S.xorWord1 (zextArg A)
  | .xw, S => S.xorWord3 din
  | .xb A, S => S.xorWord3 (din &&& laneMask A.toNat)
  | _, S => S

/-- The DOUT a primitive leaves (R82). -/
def doutAfter : Instr → Block → Word → Word
  | .rds A, S, _ => S.get (wordIndex A)
  | _, _, dout => dout

/-- ERR = 0 and nothing in flight: a command written to CMD is issued. -/
structure State.Ready (s : State) : Prop where
  err : s.ERR = false
  idle : s.inFlight = none

theorem State.Ready.withData {s : State} (h : s.Ready) (S : Block) (din dout : Word) (answers : List Answer) :
    (s.withData S din dout answers).Ready := ⟨h.err, h.idle⟩

section
variable {s : State} (h : s.Ready) {S : Block} {din dout : Word} {answers : List Answer}
include h

theorem effectOf_primitive {i : Instr} (hi : isPrimitive i = true) :
    effectOf i (s.withData S din dout answers) =
      s.withData (blockAfter s.K din i S) din (doutAfter i S dout) answers := by
  have hdin : (s.withData S din dout answers).dinRead = din := State.dinRead_idle (h.withData S din dout answers).idle
  cases i with
  | xw | xb A => simp only [effectOf, hdin]; rfl
  | zero | perm C | frame A | xlen A | rds A => rfl
  | _ => cases hi

theorem execAll_primitive (i : Instr) (hi : isPrimitive i = true) (legal : i.wellFormed = true) (rest : List Instr) :
    execAll (i :: rest) (s.withData S din dout answers) =
      execAll rest (s.withData (blockAfter s.K din i S) din (doutAfter i S dout) answers) := by
  rw [execAll_cons (exec_primitive (h.withData S din dout answers).err hi legal), effectOf_primitive h hi]

/-- A primitive at the port has its effect, and its write is answered. -/
theorem transactAll_primitive (i : Instr) (hi : isPrimitive i = true) (legal : i.wellFormed = true)
    (rest : List Access) : transactAll (cmd i :: rest) (s.withData S din dout answers) =
      transactAll rest (s.withData (blockAfter s.K din i S) din (doutAfter i S dout) (answers ++ [Answer.done])) := by
  obtain ⟨hadm, hnext, -⟩ := primitive_phase hi (s.withData S din dout answers)
  have ready := h.withData S din dout answers
  rw [transactAll_cons
    (transact_cmd (Laws.decode_encode_legal legal) ready.idle (accepts_of_admitted ready.err legal hadm)), hnext,
    effectOf_primitive h hi]
  rfl

theorem transactAll_writeDin (v : Word) (rest : List Access) :
    transactAll (wr .din v :: rest) (s.withData S din dout answers) =
      transactAll rest (s.withData S v dout (answers ++ [Answer.done])) :=
  transactAll_cons (transact_write (r := .din) (h.withData S din dout answers).idle nofun v) rest

theorem transactAll_readDout (rest : List Access) :
    transactAll (rd .dout :: rest) (s.withData S din dout answers) =
      transactAll rest (s.withData S din dout (answers ++ [Answer.data dout])) :=
  transactAll_cons (transact_read (h.withData S din dout answers).idle .dout) rest

/-! The frame bits and the permutation that begin a block or a pass (R84, R86, R92, R99). -/

section
variable {f : BitVec 4} {C : BitVec 8} {frame : Word} {c : Nat} (hf : frameConst f = frame) (hC : C.toNat = c)
  (legal : (Instr.frame f).wellFormed = true)
include hf hC legal

/-- A block begins so, and it is the whole of a pass of FIN. -/
theorem execAll_framedUpdate (rest : List Instr) :
    execAll (.frame f :: .perm C :: rest) (s.withData S din dout answers) =
      execAll rest (s.withData (framedUpdate frame c s.K S) din dout answers) := by
  subst hf hC
  rw [execAll_primitive h (.frame f) rfl legal, execAll_primitive h (.perm C) rfl rfl]
  rfl

/-- The blocks of ADW and ENCW: DIN is absorbed whole (R88, R94). -/
theorem execAll_fullBlock : execAll [.frame f, .perm C, .xw] (s.withData S din dout answers) =
    .next (s.withData ((framedUpdate frame c s.K S).xorWord3 din) din dout answers) := by
  rw [execAll_framedUpdate h hf hC legal, execAll_primitive h .xw rfl rfl]
  rfl

/-- The blocks of ADP n and ENCP n: the low n bytes of DIN and the length (R89, R95). -/
theorem execAll_partialBlock {A : BitVec 4} (legalA : lengthLegal A = true) :
    execAll [.frame f, .perm C, .xb A, .xlen A] (s.withData S din dout answers) =
      .next (s.withData ((framedUpdate frame c s.K S).xorTail (din &&& laneMask A.toNat) (zextArg A)) din dout
        answers) := by
  rw [execAll_framedUpdate h hf hC legal, execAll_primitive h (.xb A) rfl legalA,
    execAll_primitive h (.xlen A) rfl legalA]
  rfl

theorem transactAll_framedUpdate (rest : List Access) :
    transactAll (cmd (.frame f) :: cmd (.perm C) :: rest) (s.withData S din dout answers) =
      transactAll rest (s.withData (framedUpdate frame c s.K S) din dout
        (answers ++ [Answer.done] ++ [Answer.done])) := by
  subst hf hC
  rw [transactAll_primitive h (.frame f) rfl legal, transactAll_primitive h (.perm C) rfl rfl]
  rfl

end

/-! Data the host computes, written to DIN (R84, R96, R97). -/

theorem transactAll_fullBlock (v : Word) (rest : List Access) :
    transactAll (wr .din v :: cmd .xw :: rest) (s.withData S din dout answers) =
      transactAll rest (s.withData (S.xorWord3 v) v dout (answers ++ [Answer.done] ++ [Answer.done])) := by
  rw [transactAll_writeDin h v, transactAll_primitive h .xw rfl rfl]
  rfl

theorem transactAll_partialBlock (v : Word) {A : BitVec 4} (legal : lengthLegal A = true) :
    transactAll [wr .din v, cmd (.xb A), cmd (.xlen A)] (s.withData S din dout answers) =
      .next (s.withData (S.xorTail (v &&& laneMask A.toNat) (zextArg A)) v dout
        (answers ++ [Answer.done] ++ [Answer.done] ++ [Answer.done])) := by
  rw [transactAll_writeDin h v, transactAll_primitive h (.xb A) rfl legal, transactAll_primitive h (.xlen A) rfl legal]
  rfl

/-- The keystream word S[2] of a block, by RDS and a read of DOUT. -/
theorem transactAll_keystream :
    let F := framedUpdate fbPC chunksLong s.K S
    transactAll [cmd (.frame 2), cmd (.perm 9), cmd (.rds 2), rd .dout] (s.withData S din dout answers) =
      .next (s.withData F din F.s2 (answers ++ [Answer.done, Answer.done, Answer.done, Answer.data F.s2])) := by
  rw [transactAll_framedUpdate h (frame := fbPC) (c := chunksLong) rfl rfl rfl,
    transactAll_primitive h (.rds 2) rfl rfl, transactAll_readDout h]
  simp only [List.append_assoc]
  rfl

/-- One nonce word (R84 step 3). -/
theorem transactAll_nonceWord (n : Word) (rest : List Access) :
    transactAll (cmd (.frame 0) :: cmd (.perm 5) :: wr .din n :: cmd .xw :: rest) (s.withData S din dout answers) =
      transactAll rest (s.withData (introduceNonceWord s.K S n) n dout
        (answers ++ [Answer.done] ++ [Answer.done] ++ [Answer.done] ++ [Answer.done])) := by
  rw [transactAll_framedUpdate h (frame := fbIV) (c := chunksShort) rfl rfl rfl, transactAll_fullBlock h]
  rfl

theorem transactAll_init (n0 n1 n2 : Word) :
    ∃ as, transactAll [cmd .zero, cmd (.perm 9),
        cmd (.frame 0), cmd (.perm 5), wr .din n0, cmd .xw,
        cmd (.frame 0), cmd (.perm 5), wr .din n1, cmd .xw,
        cmd (.frame 0), cmd (.perm 5), wr .din n2, cmd .xw] (s.withData S din dout answers) =
      .next (s.withData (initializeState s.K ⟨n0, n1, n2⟩) n2 dout as) := by
  rw [transactAll_primitive h .zero rfl rfl, transactAll_primitive h (.perm 9) rfl rfl, transactAll_nonceWord h,
    transactAll_nonceWord h, transactAll_nonceWord h]
  exact ⟨_, rfl⟩

end

/-- Masking a word before the keystream is xored in changes nothing under the mask. -/
theorem xor_and_masked (ks v mask : Word) : (ks ^^^ (v &&& mask)) &&& mask = (ks ^^^ v) &&& mask := by
  ext i hi
  simp only [BitVec.getElem_and, BitVec.getElem_xor]
  cases mask[i] <;> simp

/-! ### The sequencer's commands in their phases (R88, R89, R94 to R97) -/

section
variable {s : State} (h : s.Ready) {p : Phase} {A : BitVec 4}
include h

theorem exec_inPhase (i : Instr) (legal : i.wellFormed = true) (hp : admitted i p = true) :
    exec i { s with PHASE := p } = .next { effectOf i { s with PHASE := p } with PHASE := nextPhase i p } :=
  exec_of_accepts (accepts_of_admitted h.err legal hp)

theorem dinRead_inPhase : State.dinRead { s with PHASE := p } = s.DIN :=
  State.dinRead_idle h.idle

theorem exec_adw : exec .adw { s with PHASE := .ad } = .next { s with
    PHASE := .ad
    S := (framedUpdate fbAD chunksShort s.K s.S).xorWord3 s.DIN } := by
  rw [exec_inPhase h .adw rfl rfl]
  simp only [effectOf, dinRead_inPhase h, nextPhase]

theorem exec_adp (legal : lengthLegal A = true) : exec (.adp A) { s with PHASE := .ad } = .next { s with
    PHASE := .msg
    S := (framedUpdate fbAD chunksShort s.K s.S).xorTail (s.DIN &&& laneMask A.toNat) (zextArg A) } := by
  rw [exec_inPhase h (.adp A) legal rfl]
  simp only [effectOf, dinRead_inPhase h, nextPhase]

theorem exec_encw (hp : admitted .encw p = true) :
    let F := framedUpdate fbPC chunksLong s.K s.S
    exec .encw { s with PHASE := p } = .next { s with
      PHASE := .msg, S := F.xorWord3 s.DIN, DOUT := F.s2 ^^^ s.DIN } := by
  rw [exec_inPhase h .encw rfl hp]
  simp only [effectOf, dinRead_inPhase h, nextPhase]

/-- DOUT is masked as a whole, so DIN need not be. -/
theorem exec_encp (legal : lengthLegal A = true) (hp : admitted .encw p = true) :
    let F := framedUpdate fbPC chunksLong s.K s.S
    exec (.encp A) { s with PHASE := p } = .next { s with
      PHASE := .msgEnd
      S := F.xorTail (s.DIN &&& laneMask A.toNat) (zextArg A)
      DOUT := (F.s2 ^^^ s.DIN) &&& laneMask A.toNat } := by
  rw [exec_inPhase h (.encp A) legal hp]
  simp only [effectOf, dinRead_inPhase h, nextPhase, xor_and_masked]

theorem exec_decw (hp : admitted .encw p = true) :
    let F := framedUpdate fbPC chunksLong s.K s.S
    exec .decw { s with PHASE := p } = .next { s with
      PHASE := .msg, S := F.xorWord3 (F.s2 ^^^ s.DIN), DOUT := F.s2 ^^^ s.DIN } := by
  rw [exec_inPhase h .decw rfl hp]
  simp only [effectOf, dinRead_inPhase h, nextPhase]

theorem exec_decp (legal : lengthLegal A = true) (hp : admitted .encw p = true) :
    let F := framedUpdate fbPC chunksLong s.K s.S
    let P := (F.s2 ^^^ s.DIN) &&& laneMask A.toNat
    exec (.decp A) { s with PHASE := p } = .next { s with
      PHASE := .msgEnd, S := F.xorTail P (zextArg A), DOUT := P } := by
  rw [exec_inPhase h (.decp A) legal hp]
  simp only [effectOf, dinRead_inPhase h, nextPhase]

end

/-- Settles O36: the primitives in a row leave the cipher state that the command's effect is defined by. -/
theorem sequencerCommandsFromPrimitives : Obligations.SequencerCommandsFromPrimitives := by
  intro s hE hf
  have h : s.Ready := ⟨hE, hf⟩
  have legal (A : BitVec 4) (hA : oneTo3 A) := (Laws.lengthLegal_iff_oneTo3 A).mpr hA
  have admittedIn {p : Phase} (hp : p = .ad ∨ p = .msg) : admitted .encw p = true := by simpa [admitted] using hp
  refine ⟨?init, ?adw, fun A hA => ?adp, fun p hp => ⟨?encw, fun A hA => ?encp, ?decw, fun A hA => ?decp⟩,
    fun p hp => ?fin, ?verify⟩
  case init =>
    obtain ⟨as, run⟩ := transactAll_init h s.N.n0 s.N.n1 s.N.n2
    exact ⟨_, _, run, rfl, exec_of_accepts (accepts_of_admitted hE rfl rfl), rfl⟩
  case adw =>
    exact ⟨_, execAll_fullBlock h (frame := fbAD) (c := chunksShort) rfl rfl rfl, rfl, exec_adw h⟩
  case adp =>
    exact ⟨_, execAll_partialBlock h (frame := fbAD) (c := chunksShort) rfl rfl rfl (legal A hA), rfl,
      exec_adp h (legal A hA)⟩
  case encw =>
    refine ⟨_, execAll_fullBlock h (frame := fbPC) (c := chunksLong) rfl rfl rfl, rfl, ?_⟩
    rw [State.withData_S, Block.xorWord3_s2]
    exact exec_encw h (admittedIn hp)
  case encp =>
    refine ⟨_, execAll_partialBlock h (frame := fbPC) (c := chunksLong) rfl rfl rfl (legal A hA), rfl, ?_⟩
    rw [State.withData_S, Block.xorTail_s2]
    exact exec_encp h (legal A hA) (admittedIn hp)
  case decw =>
    exact ⟨_, _, _, transactAll_keystream h, rfl, transactAll_fullBlock h _ [], rfl, exec_decw h (admittedIn hp)⟩
  case decp =>
    exact ⟨_, _, _, transactAll_keystream h, rfl, transactAll_partialBlock h _ (legal A hA), rfl,
      exec_decp h (legal A hA) (admittedIn hp)⟩
  case fin =>
    exact ⟨_, _, execAll_framedUpdate h (frame := fbFIN) (c := chunksLong) rfl rfl rfl [],
      execAll_framedUpdate h (frame := fbFIN) (c := chunksShort) rfl rfl rfl [], rfl,
      exec_inPhase h .fin rfl (by simpa [admitted, or_assoc] using hp)⟩
  case verify => exact ⟨_, exec_inPhase h .verify rfl rfl, rfl⟩

end Sys2Proof.Machine
end

section
/-! PROOFS. INIT: key loading and nonce introduction (41_initializer.md R84, R85). -/

namespace Sys2Proof.Machine

/-- `Initialize` in the steps of R84: the frame bits IV are 0x10, the long permutation 9 chunks and the short one 5. -/
theorem initializeState_steps (K : KeyWords) (N : NonceWords) :
    let S0 := stateUpdate ⟨0, 0, 0, 0⟩ K 9
    let S1 := stateUpdate { S0 with s1 := S0.s1 ^^^ 0x10 } K 5
    let S1' : Block := { S1 with s3 := S1.s3 ^^^ N.n0 }
    let S2 := stateUpdate { S1' with s1 := S1'.s1 ^^^ 0x10 } K 5
    let S2' : Block := { S2 with s3 := S2.s3 ^^^ N.n1 }
    let S3 := stateUpdate { S2' with s1 := S2'.s1 ^^^ 0x10 } K 5
    initializeState K N = { S3 with s3 := S3.s3 ^^^ N.n2 } := rfl

/-- INIT is admitted in every phase (R63, decision D10), and its cipher state is a function of the key and the nonce. -/
theorem exec_init {s : State} (hE : s.ERR = false) : exec .init s = .next { s with
    S := initializeState s.K s.N, TAG := ⟨0, 0⟩, DOUT := 0, AUTH_VALID := false, AUTH_OK := false, PHASE := .ad } :=
  exec_of_accepts (accepts_of_admitted hE rfl rfl)

/-- Settles O22: the steps written out are those of `initializeState`. -/
theorem initStartsAnOperation : Obligations.InitStartsAnOperation := by
  refine ⟨Laws.noOperandForm (by decide) rfl rfl, rfl, ignoredInError rfl, fun s hE => ?_⟩
  rw [exec_init hE, initializeState_steps]

/-- Settles O23: what INIT leaves depends on the key and the nonce only. -/
theorem initForgetsTheOldOperation : Obligations.InitForgetsTheOldOperation := by
  intro s s' hE hE' hK hN
  have sameS : initializeState s.K s.N = initializeState s'.K s'.N := by rw [hK, hN]
  exact ⟨_, _, exec_init hE, exec_init hE', sameS, rfl, rfl, rfl, rfl, rfl⟩

end Sys2Proof.Machine
end

section
/-! PROOFS. Absorption of associated data (42_ad_absorber.md R86 to R90). -/

namespace Sys2Proof.Machine

open Sys2Proof.Spec

/-! ### ADW and ADP (R88, R89) -/

/-- A command outside its phases (R63, R118). -/
theorem rejected_sequence {i : Instr} (legal : i.wellFormed = true) {s : State} (hp : admitted i s.PHASE = false) :
    Rejected i .sequence s :=
  fun hE => exec_sequence hE ((argInRange_eq_wellFormed i).trans legal) hp

/-- How a block of AD begins: the frame bits AD are 0x30 and the short permutation has 5 chunks (R9). -/
theorem framedUpdate_ad (K : KeyWords) (S : Block) :
    framedUpdate fbAD chunksShort K S = stateUpdate { S with s1 := S.s1 ^^^ 0x30 } K 5 := rfl

theorem exec_adw_inAd {s : State} (hE : s.ERR = false) (hp : s.PHASE = .ad) : exec .adw s = .next { s with
    S := (framedUpdate fbAD chunksShort s.K s.S).xorWord3 s.dinRead } := by
  rw [exec_of_accepts (accepts_of_admitted (i := .adw) hE rfl (beq_iff_eq.mpr hp)), nextPhase, ← hp]
  rfl

theorem exec_adp_inAd {A : BitVec 4} (legal : lengthLegal A = true) {s : State} (hE : s.ERR = false)
    (hp : s.PHASE = .ad) : exec (.adp A) s = .next { s with
      S := (framedUpdate fbAD chunksShort s.K s.S).xorTail (s.dinRead &&& laneMask A.toNat) (zextArg A)
      PHASE := .msg } :=
  exec_of_accepts (accepts_of_admitted hE legal (beq_iff_eq.mpr hp))

/-- Settles O24: ADW is `framedUpdate` and DIN into S[3], whatever is in flight. -/
theorem adwAbsorbsFullBlock : Obligations.AdwAbsorbsFullBlock := by
  refine ⟨Laws.noOperandForm (by decide) rfl rfl, rfl, ignoredInError rfl,
    fun s hp => rejected_sequence rfl (beq_false_of_ne hp), fun s hE hp => ?_⟩
  rw [exec_adw_inAd hE hp, framedUpdate_ad]
  rfl

/-- Settles O25: the operand is checked before the phase; in AD it is `framedUpdate`, the masked DIN and the length. -/
theorem adpAbsorbsPartialBlock : Obligations.AdpAbsorbsPartialBlock := by
  have legal (A : BitVec 4) : (Instr.adp A).wellFormed = true ↔ oneTo3 A := Laws.lengthLegal_iff_oneTo3 A
  refine ⟨Laws.aForm (by decide) (fun _ => rfl) legal, fun _ => rfl, fun _ => ignoredInError rfl,
    fun A s hA => rejected_badArg (legal A) hA s,
    fun A s hA hp => rejected_sequence ((legal A).mpr hA) (beq_false_of_ne hp), fun A s hE hA hp => ?_⟩
  rw [exec_adp_inAd ((legal A).mpr hA) hE hp, framedUpdate_ad]
  rfl

/-! ### The tail of 1 to 3 bytes -/

/-- A tail is one, two or three bytes. -/
theorem tail_cases : ∀ {tail : List Byte}, 1 ≤ tail.length → tail.length ≤ 3 →
    (∃ a, tail = [a]) ∨ (∃ a b, tail = [a, b]) ∨ ∃ a b c, tail = [a, b, c]
  | [a], _, _ => .inl ⟨a, rfl⟩
  | [a, b], _, _ => .inr (.inl ⟨a, b, rfl⟩)
  | [a, b, c], _, _ => .inr (.inr ⟨a, b, c, rfl⟩)

/-- `blocks_induction` with the three tails as one case. -/
theorem blocks_tail_induction {P : List Byte → Prop} (nil : P [])
    (tail : ∀ l, 1 ≤ l.length → l.length ≤ 3 → P l)
    (full : ∀ a b c d rest, P rest → P (a :: b :: c :: d :: rest)) (l : List Byte) : P l :=
  blocks_induction nil (fun a => tail [a] (by simp) (by simp))
    (fun a b => tail [a, b] (by simp) (by simp)) (fun a b c => tail [a, b, c] (by simp) (by simp)) full l

section
variable {tail : List Byte} (h1 : 1 ≤ tail.length) (h3 : tail.length ≤ 3)
include h1 h3

theorem lengthLegal_tailArg : lengthLegal (tailArg tail) = true := by
  obtain ⟨a, rfl⟩ | ⟨a, b, rfl⟩ | ⟨a, b, c, rfl⟩ := tail_cases h1 h3 <;> rfl

theorem tailWord_and_laneMask : tailWord tail &&& laneMask (tailArg tail).toNat = tailWord tail := by
  obtain ⟨a, rfl⟩ | ⟨a, b, rfl⟩ | ⟨a, b, c, rfl⟩ := tail_cases h1 h3
  · exact (tailWord_masked a 0 0).1
  · exact (tailWord_masked a b 0).2.1
  · exact (tailWord_masked a b c).2.2

theorem xorLanes_tailWord (X : Word) : xorLanes 0 tail X = X ^^^ tailWord tail := by
  obtain ⟨a, rfl⟩ | ⟨a, b, rfl⟩ | ⟨a, b, c, rfl⟩ := tail_cases h1 h3
  · exact (xorLanes_tail X a 0 0).1
  · exact (xorLanes_tail X a b 0).2.1
  · exact (xorLanes_tail X a b c).2.2

theorem zextArg_tailArg : zextArg (tailArg tail) = BitVec.ofNat 32 tail.length := by
  obtain ⟨a, rfl⟩ | ⟨a, b, rfl⟩ | ⟨a, b, c, rfl⟩ := tail_cases h1 h3 <;> rfl

theorem adAccesses_tail : adAccesses tail = [wr .din (tailWord tail), cmd (.adp (tailArg tail))] := by
  obtain ⟨a, rfl⟩ | ⟨a, b, rfl⟩ | ⟨a, b, c, rfl⟩ := tail_cases h1 h3 <;> rfl

/-- The last arm of `absorbAd`: the trailing bytes go into S[3] lane by lane (R86). -/
theorem absorbAd_lanes (K : KeyWords) (S : Block) : absorbAd K S tail =
    let F := framedUpdate fbAD chunksShort K S
    { F with s1 := F.s1 ^^^ BitVec.ofNat 32 tail.length, s3 := xorLanes 0 tail F.s3 } := by
  obtain ⟨a, rfl⟩ | ⟨a, b, rfl⟩ | ⟨a, b, c, rfl⟩ := tail_cases h1 h3 <;> rfl

/-- What AbsorbAd does with the trailing bytes is what ADP does with their word and their number (R86, R89). -/
theorem absorbAd_tail (K : KeyWords) (S : Block) : absorbAd K S tail =
    (framedUpdate fbAD chunksShort K S).xorTail (tailWord tail &&& laneMask (tailArg tail).toNat)
      (zextArg (tailArg tail)) := by
  simp only [absorbAd_lanes h1 h3, xorLanes_tailWord h1 h3, tailWord_and_laneMask h1 h3, zextArg_tailArg h1 h3,
    Block.xorTail]

end

/-! ### The AD commands of the host (R90) -/

section
variable {s : State} (h : s.Ready)
include h

/-- A word written to DIN and the command that takes it, as the host sends a block (R90, R98). -/
theorem transactAll_blockCommand (i : Instr) (legal : i.wellFormed = true) (hp : admitted i s.PHASE = true) (v : Word)
    (rest : List Access) : transactAll (wr .din v :: cmd i :: rest) s = transactAll rest
      { effectOf i { s with DIN := v } with
        PHASE := nextPhase i s.PHASE, answers := s.answers ++ [Answer.done, Answer.done] } := by
  have written : transact (wr .din v) s = .next { s with DIN := v, answers := s.answers ++ [Answer.done] } :=
    transact_write (r := .din) h.idle nofun v
  have ready : State.Ready { s with DIN := v, answers := s.answers ++ [Answer.done] } := ⟨h.err, h.idle⟩
  have issued := transact_cmd (Laws.decode_encode_legal legal) ready.idle (accepts_of_admitted ready.err legal hp)
  rw [transactAll_cons written, transactAll_cons issued, List.append_assoc]
  cases i <;> rfl

/-- A full block of AD: its word through DIN and ADW. -/
theorem transactAll_adw (hp : s.PHASE = .ad) (v : Word) (rest : List Access) :
    transactAll (wr .din v :: cmd .adw :: rest) s = transactAll rest { s with
      S := (framedUpdate fbAD chunksShort s.K s.S).xorWord3 v
      DIN := v
      PHASE := .ad
      answers := s.answers ++ [Answer.done, Answer.done] } := by
  have din : State.dinRead { s with DIN := v } = v := State.dinRead_idle h.idle
  rw [transactAll_blockCommand h .adw rfl (beq_iff_eq.mpr hp)]
  simp only [effectOf, din, nextPhase]

/-- The trailing bytes of the AD: their word through DIN and ADP. -/
theorem transactAll_adp (hp : s.PHASE = .ad) (v : Word) {A : BitVec 4} (legal : lengthLegal A = true) :
    transactAll [wr .din v, cmd (.adp A)] s = .next { s with
      S := (framedUpdate fbAD chunksShort s.K s.S).xorTail (v &&& laneMask A.toNat) (zextArg A)
      DIN := v
      PHASE := .msg
      answers := s.answers ++ [Answer.done, Answer.done] } := by
  have din : State.dinRead { s with DIN := v } = v := State.dinRead_idle h.idle
  rw [transactAll_blockCommand h (.adp A) legal (beq_iff_eq.mpr hp)]
  simp only [transactAll, effectOf, din, nextPhase]

end

/-- The AD commands leave S = AbsorbAd(S, K, ad) and the phase that the last of them leaves, and each of the accesses is
answered; but for DIN nothing else is changed. -/
theorem transactAll_adAccesses (ad : List Byte) {s : State} (h : s.Ready) (hp : s.PHASE = .ad) :
    ∃ din, transactAll (adAccesses ad) s = .next { s with
      S := absorbAd s.K s.S ad
      DIN := din
      PHASE := if ad.length % 4 = 0 then .ad else .msg
      answers := s.answers ++ List.replicate (adAccesses ad).length .done } := by
  induction ad using blocks_tail_induction generalizing s with
  | nil => exact ⟨s.DIN, by simp [adAccesses, transactAll, absorbAd, ← hp]⟩
  | tail l h1 h3 =>
    have unaligned : l.length % 4 ≠ 0 := by omega
    refine ⟨tailWord l, ?_⟩
    rw [adAccesses_tail h1 h3, transactAll_adp h hp _ (lengthLegal_tailArg h1 h3), absorbAd_tail h1 h3,
      if_neg unaligned]
    rfl
  | full a b c d rest ih =>
    obtain ⟨din, run⟩ := ih (s := { s with
      S := (framedUpdate fbAD chunksShort s.K s.S).xorWord3 (le32 a b c d)
      DIN := le32 a b c d
      PHASE := .ad
      answers := s.answers ++ [Answer.done, Answer.done] }) ⟨h.err, h.idle⟩ rfl
    have sameTail : (a :: b :: c :: d :: rest).length % 4 = rest.length % 4 := Nat.add_mod_right rest.length 4
    refine ⟨din, ?_⟩
    rw [adAccesses, transactAll_adw h hp, run, List.append_assoc, sameTail]
    rfl

/-- Settles O37, by induction on the blocks of the AD. -/
theorem adCommandsAbsorbTheAd : Obligations.AdCommandsAbsorbTheAd := by
  intro ad s hE hf hp
  obtain ⟨din, run⟩ := transactAll_adAccesses ad ⟨hE, hf⟩ hp
  exact ⟨_, run, rfl, rfl, hE, rfl⟩

end Sys2Proof.Machine
end

section
/-! PROOFS. Encryption and decryption of the message (43_message.md R91 to R98). -/

namespace Sys2Proof.Machine

open Sys2Proof.Spec

/-! ### ENCW, ENCP, DECW and DECP (R94 to R97) -/

/-- How a block of the message begins: the frame bits PC are 0x50 and the long permutation has 9 chunks (R9). -/
theorem framedUpdate_pc (K : KeyWords) (S : Block) :
    framedUpdate fbPC chunksLong K S = stateUpdate { S with s1 := S.s1 ^^^ 0x50 } K 9 := rfl

/-- The message commands are admitted in the phases of ENCW (R63). -/
def isMessageCommand : Instr → Bool
  | .encw | .encp _ | .decw | .decp _ => true
  | _ => false

theorem admitted_messageCommand {i : Instr} (hi : isMessageCommand i = true) (p : Phase) :
    admitted i p = true ↔ p = .ad ∨ p = .msg := by
  cases i with
  | encw | encp A | decw | decp A => simp [admitted]
  | _ => cases hi

/-- A message command outside AD and MSG. -/
theorem rejected_messageCommand {i : Instr} (hi : isMessageCommand i = true) (legal : i.wellFormed = true) {s : State}
    (had : s.PHASE ≠ .ad) (hmsg : s.PHASE ≠ .msg) : Rejected i .sequence s :=
  rejected_sequence legal
    (Bool.eq_false_of_not_eq_true ((admitted_messageCommand hi s.PHASE).not.mpr (not_or.mpr ⟨had, hmsg⟩)))

/-- A message command in AD or MSG. -/
theorem exec_messageCommand {i : Instr} (hi : isMessageCommand i = true) (legal : i.wellFormed = true) {s : State}
    (hE : s.ERR = false) (hp : s.PHASE = .ad ∨ s.PHASE = .msg) :
    exec i s = .next { effectOf i s with PHASE := nextPhase i s.PHASE } :=
  exec_of_accepts (accepts_of_admitted hE legal ((admitted_messageCommand hi s.PHASE).mpr hp))

/-- Settles O26: ENCW is `framedUpdate` with the frame bits PC, whose S[2] is the keystream word. -/
theorem encwEncryptsFullBlock : Obligations.EncwEncryptsFullBlock := by
  refine ⟨Laws.noOperandForm (by decide) rfl rfl, rfl, ignoredInError rfl, fun s => rejected_messageCommand rfl rfl,
    fun s hE hp => ?_⟩
  rw [exec_messageCommand rfl rfl hE hp, ← framedUpdate_pc]
  rfl

/-- Settles O27: the operand is checked before the phase; the mask and the length are `laneMask` and `zextArg`. -/
theorem encpEncryptsPartialBlock : Obligations.EncpEncryptsPartialBlock := by
  have legal (A : BitVec 4) : (Instr.encp A).wellFormed = true ↔ oneTo3 A := Laws.lengthLegal_iff_oneTo3 A
  refine ⟨Laws.aForm (by decide) (fun _ => rfl) legal, fun _ => rfl, fun _ => ignoredInError rfl,
    fun A s hA => rejected_badArg (legal A) hA s,
    fun A s hA => rejected_messageCommand rfl ((legal A).mpr hA), fun A s hE hA hp => ?_⟩
  rw [exec_messageCommand rfl ((legal A).mpr hA) hE hp, ← framedUpdate_pc]
  rfl

/-- Settles O28: what DECW folds in is the plaintext it recovers. -/
theorem decwDecryptsFullBlock : Obligations.DecwDecryptsFullBlock := by
  refine ⟨Laws.noOperandForm (by decide) rfl rfl, rfl, ignoredInError rfl, fun s => rejected_messageCommand rfl rfl,
    fun s hE hp => ?_⟩
  rw [exec_messageCommand rfl rfl hE hp, ← framedUpdate_pc]
  rfl

/-- Settles O29: as O27, with the mask on the recovered plaintext. -/
theorem decpDecryptsPartialBlock : Obligations.DecpDecryptsPartialBlock := by
  have legal (A : BitVec 4) : (Instr.decp A).wellFormed = true ↔ oneTo3 A := Laws.lengthLegal_iff_oneTo3 A
  refine ⟨Laws.aForm (by decide) (fun _ => rfl) legal, fun _ => rfl, fun _ => ignoredInError rfl,
    fun A s hA => rejected_badArg (legal A) hA s,
    fun A s hA => rejected_messageCommand rfl ((legal A).mpr hA), fun A s hE hA hp => ?_⟩
  rw [exec_messageCommand rfl ((legal A).mpr hA) hE hp, ← framedUpdate_pc]
  rfl

end Sys2Proof.Machine
end

section
/-! PROOFS. The message transduced by the reference functions and by the commands of the host (43_message.md R91 to R93,
R98). -/

namespace Sys2Proof.Machine

/-! ### The keystream on bytes and on words (R91) -/

theorem xor_xor_cancel_left {w : Nat} (x y : BitVec w) : x ^^^ (x ^^^ y) = y := by
  rw [← BitVec.xor_assoc, BitVec.xor_self, BitVec.zero_xor]

theorem xorKeystream_length (j : Nat) (ks : Word) (l : List Byte) : (xorKeystream j ks l).length = l.length := by
  induction l generalizing j with
  | nil => rfl
  | cons b l ih => exact congrArg (· + 1) (ih (j + 1))

/-- The same keystream a second time takes the first away. -/
theorem xorKeystream_xorKeystream (j : Nat) (ks : Word) (l : List Byte) :
    xorKeystream j ks (xorKeystream j ks l) = l := by
  induction l generalizing j with
  | nil => rfl
  | cons b l ih => rw [xorKeystream, xorKeystream, ih, xor_xor_cancel_left]

/-- A byte of the output depends on the byte of the input in its lane alone. -/
theorem xorKeystream_take (j : Nat) (ks : Word) (l : List Byte) (n : Nat) :
    xorKeystream j ks (l.take n) = (xorKeystream j ks l).take n := by
  induction l generalizing j n with
  | nil => simp [xorKeystream]
  | cons b l ih =>
    cases n with
    | zero => rfl
    | succ n => rw [List.take_succ_cons, xorKeystream, ih, xorKeystream, List.take_succ_cons]

/-- The four lanes of a full block. -/
theorem xorKeystream_four (ks : Word) (a b c d : Byte) :
    xorKeystream 0 ks [a, b, c, d] = unle32 (ks ^^^ le32 a b c d) := by
  simp only [xorKeystream, unle32, byteOf_xor, byteOf_le32_0, byteOf_le32_1, byteOf_le32_2, byteOf_le32_3]

/-- The word of the low n bytes is the word masked. -/
theorem tailWord_take_unle32 (w : Word) {n : Nat} (hn : n ≤ 3) :
    tailWord ((unle32 w).take n) = w &&& laneMask n := by
  have byte (j : Nat) (hj : j ≤ 3) : byteOf (w &&& laneMask n) j = ((unle32 w).take n).getD j 0 := by
    rw [byteOf_and_laneMask w hn hj]
    interval_cases n <;> interval_cases j <;> rfl
  rw [← le32_byteOf (w &&& laneMask n), byte 0 (by decide), byte 1 (by decide), byte 2 (by decide), byte 3 (by decide),
    tailWord]

theorem take_unle32_masked (w : Word) {n : Nat} (hn : n ≤ 3) :
    (unle32 (w &&& laneMask n)).take n = (unle32 w).take n := by
  simp only [unle32, byteOf_and_laneMask w hn, Nat.le_refl, Nat.reduceLeDiff]
  interval_cases n <;> rfl

section
variable {tail : List Byte} (h1 : 1 ≤ tail.length) (h3 : tail.length ≤ 3)
include h1 h3

theorem tailArg_toNat : (tailArg tail).toNat = tail.length := by
  obtain ⟨a, rfl⟩ | ⟨a, b, rfl⟩ | ⟨a, b, c, rfl⟩ := tail_cases h1 h3 <;> rfl

/-- The tail takes the keystream byte by byte as its word does. -/
theorem xorKeystream_tail (ks : Word) :
    xorKeystream 0 ks tail = (unle32 (ks ^^^ tailWord tail)).take tail.length := by
  have four : tail = [tail.getD 0 0, tail.getD 1 0, tail.getD 2 0, tail.getD 3 0].take tail.length := by
    obtain ⟨a, rfl⟩ | ⟨a, b, rfl⟩ | ⟨a, b, c, rfl⟩ := tail_cases h1 h3 <;> rfl
  rw [tailWord, ← xorKeystream_four, ← xorKeystream_take, ← four]

/-- The last arm of `encryptBlocks` (R92). -/
theorem encryptBlocks_lanes (K : KeyWords) (S : Block) : encryptBlocks K S tail =
    let F := framedUpdate fbPC chunksLong K S
    ({ F with s1 := F.s1 ^^^ BitVec.ofNat 32 tail.length, s3 := xorLanes 0 tail F.s3 }, xorKeystream 0 F.s2 tail) := by
  obtain ⟨a, rfl⟩ | ⟨a, b, rfl⟩ | ⟨a, b, c, rfl⟩ := tail_cases h1 h3 <;> rfl

/-- The last arm of `decryptBlocks` (R93). -/
theorem decryptBlocks_lanes (K : KeyWords) (S : Block) : decryptBlocks K S tail =
    let F := framedUpdate fbPC chunksLong K S
    let m := xorKeystream 0 F.s2 tail
    ({ F with s1 := F.s1 ^^^ BitVec.ofNat 32 tail.length, s3 := xorLanes 0 m F.s3 }, m) := by
  obtain ⟨a, rfl⟩ | ⟨a, b, rfl⟩ | ⟨a, b, c, rfl⟩ := tail_cases h1 h3 <;> rfl

end

/-! ### The reference functions (R92, R93) -/

/-- Settles O39, by induction on the blocks: in both directions the plaintext is folded in, so both states go the same
way. -/
theorem decryptionFollowsTheTrajectory : Obligations.DecryptionFollowsTheTrajectory := by
  intro K S m
  induction m using blocks_tail_induction generalizing S with
  | nil => exact ⟨rfl, rfl⟩
  | tail l h1 h3 =>
    have length := xorKeystream_length 0 (framedUpdate fbPC chunksLong K S).s2 l
    rw [encryptBlocks_lanes h1 h3, decryptBlocks_lanes (by rwa [length]) (by rwa [length])]
    simp only [length, xorKeystream_xorKeystream, and_self]
  | full a b c d rest ih =>
    obtain ⟨recovered, length⟩ := ih ((framedUpdate fbPC chunksLong K S).xorWord3 (le32 a b c d))
    rw [encryptBlocks_full, decryptBlocks_full, xor_xor_cancel_left, recovered, unle32_le32]
    exact ⟨rfl, by simp only [List.length_append, unle32_length, List.length_cons, length]; omega⟩

/-- Settles O40: n bytes and four bytes take the same keystream word lane by lane. -/
theorem partialBlockIsPrefixOfFullBlock : Obligations.PartialBlockIsPrefixOfFullBlock := by
  intro K S b0 b1 b2 b3 n h1 h3
  have length : ([b0, b1, b2, b3].take n).length = n := List.length_take_of_le (by simpa using Nat.le_succ_of_le h3)
  rw [encryptBlocks_lanes (by rwa [length]) (by rwa [length]), encryptBlocks_full]
  simp only [xorKeystream_take, xorKeystream_four, encryptBlocks, List.append_nil]

/-! ### The two directions -/

/-- The direction a message is taken through the engine; what R92 and R93, and R94 to R97, tell apart. -/
inductive Direction where
  | encrypt
  | decrypt

/-- The command for a full block (R98). -/
def Direction.full : Direction → Instr
  | .encrypt => .encw
  | .decrypt => .decw

/-- The command for the trailing bytes (R98). -/
def Direction.part : Direction → BitVec 4 → Instr
  | .encrypt => .encp
  | .decrypt => .decp

/-- The reference function. -/
def Direction.blocks : Direction → KeyWords → Block → List Byte → Block × List Byte
  | .encrypt => encryptBlocks
  | .decrypt => decryptBlocks

/-- The plaintext word, from the keystream word and the input word: what is folded into S[3]. -/
def Direction.plain : Direction → Word → Word → Word
  | .encrypt => fun _ v => v
  | .decrypt => fun ks v => ks ^^^ v

theorem Direction.blocks_nil (d : Direction) (K : KeyWords) (S : Block) : d.blocks K S [] = (S, []) := by
  cases d <;> rfl

theorem Direction.blocks_full (d : Direction) (K : KeyWords) (S : Block) (b0 b1 b2 b3 : Byte) (rest : List Byte) :
    d.blocks K S (b0 :: b1 :: b2 :: b3 :: rest) =
      let F := framedUpdate fbPC chunksLong K S
      let r := d.blocks K (F.xorWord3 (d.plain F.s2 (le32 b0 b1 b2 b3))) rest
      (r.1, unle32 (F.s2 ^^^ le32 b0 b1 b2 b3) ++ r.2) := by
  cases d <;> rfl

/-- What the reference function does with the trailing bytes is what the command does with their word and number. -/
theorem Direction.blocks_tail (d : Direction) {tail : List Byte} (h1 : 1 ≤ tail.length) (h3 : tail.length ≤ 3)
    (K : KeyWords) (S : Block) : d.blocks K S tail =
      let F := framedUpdate fbPC chunksLong K S
      let mask := laneMask (tailArg tail).toNat
      (F.xorTail (d.plain F.s2 (tailWord tail) &&& mask) (zextArg (tailArg tail)),
        (unle32 ((F.s2 ^^^ tailWord tail) &&& mask)).take tail.length) := by
  have bytes := xorKeystream_tail h1 h3 (framedUpdate fbPC chunksLong K S).s2
  simp only [take_unle32_masked _ h3, tailArg_toNat h1 h3, zextArg_tailArg h1 h3, ← bytes]
  cases d with
  | encrypt =>
    have masked := tailWord_and_laneMask h1 h3
    rw [tailArg_toNat h1 h3] at masked
    simp only [blocks, plain, encryptBlocks_lanes h1 h3, xorLanes_tailWord h1 h3, masked, Block.xorTail]
  | decrypt =>
    have length := xorKeystream_length 0 (framedUpdate fbPC chunksLong K S).s2 tail
    have folded := xorLanes_tailWord (by rwa [length]) (by rwa [length]) (framedUpdate fbPC chunksLong K S).s3
    rw [bytes, tailWord_take_unle32 _ h3, ← bytes] at folded
    simp only [blocks, plain, decryptBlocks_lanes h1 h3, folded, Block.xorTail]

/-! ### The message commands of the host (R98) -/

theorem takeBlocks_tail {tail : List Byte} (h1 : 1 ≤ tail.length) (h3 : tail.length ≤ 3) (w : Word) (ws : List Word) :
    takeBlocks tail (w :: ws) = ((unle32 w).take tail.length, ws) := by
  obtain ⟨a, rfl⟩ | ⟨a, b, rfl⟩ | ⟨a, b, c, rfl⟩ := tail_cases h1 h3 <;> rfl

theorem blockAccesses_tail (full : Instr) (part : BitVec 4 → Instr) {tail : List Byte} (h1 : 1 ≤ tail.length)
    (h3 : tail.length ≤ 3) :
    blockAccesses full part tail = [wr .din (tailWord tail), cmd (part (tailArg tail)), rd .dout] := by
  obtain ⟨a, rfl⟩ | ⟨a, b, rfl⟩ | ⟨a, b, c, rfl⟩ := tail_cases h1 h3 <;> rfl

/-- The state after a block: another cipher state, the word written to DIN, the word read from DOUT, the next phase, and
the answers to the three accesses. -/
def State.afterBlock (s : State) (S : Block) (v out : Word) (p : Phase) : State :=
  { s with S := S, DIN := v, DOUT := out, PHASE := p, answers := s.answers ++ [.done, .done, .data out] }

section
variable {s : State} (h : s.Ready)

include h in
theorem State.Ready.afterBlock (S : Block) (v out : Word) (p : Phase) : (s.afterBlock S v out p).Ready :=
  ⟨h.err, h.idle⟩

variable (hp : s.PHASE = .ad ∨ s.PHASE = .msg) (v : Word)
include h hp

/-- A word written to DIN, a message command, and the word it leaves in DOUT read. -/
theorem transactAll_messageCommand {i : Instr} (hi : isMessageCommand i = true) (legal : i.wellFormed = true)
    (rest : List Access) : transactAll (wr .din v :: cmd i :: rd .dout :: rest) s =
      let u := effectOf i { s with DIN := v }
      transactAll rest (s.afterBlock u.S v u.DOUT (nextPhase i s.PHASE)) := by
  have idle : (effectOf i { s with DIN := v }).inFlight = none := by
    obtain ⟨-, -, -, -, inFlight, -⟩ := effectOf_frame i { s with DIN := v }
    exact inFlight.trans h.idle
  rw [transactAll_blockCommand h i legal ((admitted_messageCommand hi s.PHASE).mpr hp),
    transactAll_cons (transact_read (by exact idle) .dout), State.answer, List.append_assoc]
  cases i with
  | encw | encp A | decw | decp A => rfl
  | _ => cases hi

/-- A full block, whose output is read back from DOUT. -/
theorem Direction.transactAll_full (d : Direction) (rest : List Access) :
    let F := framedUpdate fbPC chunksLong s.K s.S
    transactAll (wr .din v :: cmd d.full :: rd .dout :: rest) s =
      transactAll rest (s.afterBlock (F.xorWord3 (d.plain F.s2 v)) v (F.s2 ^^^ v) .msg) := by
  have din : State.dinRead { s with DIN := v } = v := State.dinRead_idle h.idle
  cases d with
  | encrypt | decrypt =>
    rw [full, transactAll_messageCommand h hp v rfl rfl]
    simp only [effectOf, din, plain, nextPhase]

/-- The trailing bytes; the unused lanes of the word read are zero. -/
theorem Direction.transactAll_part (d : Direction) {A : BitVec 4} (legal : lengthLegal A = true) :
    let F := framedUpdate fbPC chunksLong s.K s.S
    transactAll [wr .din v, cmd (d.part A), rd .dout] s =
      .next (s.afterBlock (F.xorTail (d.plain F.s2 v &&& laneMask A.toNat) (zextArg A)) v
        ((F.s2 ^^^ v) &&& laneMask A.toNat) .msgEnd) := by
  have din : State.dinRead { s with DIN := v } = v := State.dinRead_idle h.idle
  cases d with
  | encrypt | decrypt =>
    rw [part, transactAll_messageCommand h hp v rfl (by exact legal)]
    simp only [transactAll, effectOf, din, plain, nextPhase, xor_and_masked]

end

/-- The message commands leave S as the reference function does, and a phase in which FIN is admitted; the words read
from DOUT give its bytes, and words read later are left over; but for DIN and DOUT nothing else is changed. -/
theorem Direction.transactAll_blockAccesses (d : Direction) (m : List Byte) {s : State} (h : s.Ready)
    (hp : s.PHASE = .ad ∨ s.PHASE = .msg) :
    ∃ din dout phase new, transactAll (blockAccesses d.full d.part m) s = .next { s with
        S := (d.blocks s.K s.S m).1
        DIN := din
        DOUT := dout
        PHASE := phase
        answers := s.answers ++ new } ∧ admitted .fin phase = true ∧
      ∀ later, takeBlocks m (readValues new ++ later) = ((d.blocks s.K s.S m).2, later) := by
  induction m using blocks_tail_induction generalizing s with
  | nil =>
    have fin : admitted .fin s.PHASE = true := by
      obtain hp | hp := hp <;> rw [hp] <;> rfl
    rw [d.blocks_nil]
    exact ⟨s.DIN, s.DOUT, s.PHASE, [], by simp [blockAccesses, transactAll], fin, fun _ => rfl⟩
  | tail l h1 h3 =>
    rw [blockAccesses_tail _ _ h1 h3, d.transactAll_part h hp _ (lengthLegal_tailArg h1 h3), d.blocks_tail h1 h3]
    exact ⟨_, _, _, _, rfl, rfl, takeBlocks_tail h1 h3 _⟩
  | full a b c e rest ih =>
    rw [blockAccesses, d.transactAll_full h hp, d.blocks_full]
    obtain ⟨din, dout, phase, new, run, fin, taken⟩ := ih (h.afterBlock _ _ _ _) (.inr rfl)
    refine ⟨din, dout, phase, [.done, .done, .data ((framedUpdate fbPC chunksLong s.K s.S).s2 ^^^ le32 a b c e)] ++ new,
      ?_, fin, fun later => ?_⟩
    · rw [run, State.afterBlock, List.append_assoc]
    · simp only [List.cons_append, List.nil_append, readValues, takeBlocks, taken later]
      rfl

/-- Settles O38: both directions are `Direction.transactAll_blockAccesses`, with no word left over. -/
theorem messageCommandsTransduceTheMessage : Obligations.MessageCommandsTransduceTheMessage := by
  intro m s hE hf hp
  have transduced (d : Direction) : ∃ t new, transactAll (blockAccesses d.full d.part m) s = .next t ∧
      t.answers = s.answers ++ new ∧ t.S = (d.blocks s.K s.S m).1 ∧
      takeBlocks m (readValues new) = ((d.blocks s.K s.S m).2, []) ∧ t.ERR = false := by
    obtain ⟨din, dout, phase, new, run, -, taken⟩ := d.transactAll_blockAccesses m ⟨hE, hf⟩ hp
    exact ⟨_, new, run, rfl, rfl, by simpa using taken [], hE⟩
  exact ⟨transduced .encrypt, transduced .decrypt⟩

end Sys2Proof.Machine
end

section
/-! PROOFS. The tag and its verification (44_finalizer.md R99 to R101). -/

namespace Sys2Proof.Machine

open Sys2Proof.Spec

/-! ### FIN (R99, R100) -/

/-- `Finalize` in the passes of R99: the frame bits FIN are 0x70, the long permutation 9 chunks and the short one 5. -/
theorem finalize_passes (K : KeyWords) (S : Block) :
    let S1 := stateUpdate { S with s1 := S.s1 ^^^ 0x70 } K 9
    let S2 := stateUpdate { S1 with s1 := S1.s1 ^^^ 0x70 } K 5
    finalize K S = (S2, ⟨S1.s2, S2.s2⟩) := rfl

/-- FIN in a phase that admits it (R63). -/
theorem exec_fin {s : State} (hE : s.ERR = false) (hp : admitted .fin s.PHASE = true) : exec .fin s = .next { s with
    S := (finalize s.K s.S).1, TAG := (finalize s.K s.S).2, PHASE := .done } :=
  exec_of_accepts (accepts_of_admitted hE rfl hp)

/-- Settles O30: the passes written out are those of `finalize`, and the effect of FIN writes S and TAG alone. -/
theorem finComputesTheTag : Obligations.FinComputesTheTag := by
  refine ⟨Laws.noOperandForm (by decide) rfl rfl, rfl, ignoredInError rfl, fun s hp => rejected_sequence rfl ?_,
    fun s hE hp => ?_⟩
  · obtain hp | hp := hp <;> rw [hp] <;> rfl
  · rw [exec_fin hE (by simpa [admitted, or_assoc] using hp), finalize_passes]

/-! ### VERIFY (R101) -/

theorem TagWords.eq_iff (T R : TagWords) : T = R ↔ T.t0 = R.t0 ∧ T.t1 = R.t1 := by
  cases T; cases R; rw [TagWords.mk.injEq]

/-- The words of two tags differ in no bit exactly when the tags are equal. -/
theorem tagDiff_eq_zero_iff (T R : TagWords) : tagDiff T R = 0 ↔ T = R :=
  calc tagDiff T R = 0
    _ ↔ T.t0 ^^^ R.t0 = 0 ∧ T.t1 ^^^ R.t1 = 0 := BitVec.or_eq_zero_iff
    _ ↔ T.t0 = R.t0 ∧ T.t1 = R.t1 := and_congr BitVec.xor_eq_zero_iff BitVec.xor_eq_zero_iff
    _ ↔ T = R := (TagWords.eq_iff T R).symm

/-- The comparison is of the words themselves; PHASE stays DONE. -/
theorem exec_verify {s : State} (hE : s.ERR = false) (hp : s.PHASE = .done) : exec .verify s = .next { s with
    AUTH_OK := decide (s.TAG = s.RT), AUTH_VALID := true } := by
  have compared : (tagDiff s.TAG s.RT == 0) = decide (s.TAG = s.RT) :=
    decide_eq_decide.mpr (tagDiff_eq_zero_iff s.TAG s.RT)
  rw [exec_of_accepts (accepts_of_admitted (i := .verify) hE rfl (beq_iff_eq.mpr hp)), nextPhase, ← hp, ← compared]
  rfl

theorem unle32_injective : Function.Injective unle32 := by
  intro v w h
  simp only [unle32, List.cons.injEq, and_true] at h
  obtain ⟨h0, h1, h2, h3⟩ := h
  exact word_ext h0 h1 h2 h3

/-- The first four bytes are those of the first word (R99). -/
theorem tagBytes_injective : Function.Injective tagBytes := by
  intro T R h
  obtain ⟨h0, h1⟩ := List.append_inj h rfl
  exact (TagWords.eq_iff T R).mpr ⟨unle32_injective h0, unle32_injective h1⟩

/-- Equal byte by byte is equal word by word (R106). -/
theorem tagEqual_tagBytes (T R : TagWords) : tagEqual (tagBytes T) (tagBytes R) = decide (T = R) := by
  rw [tagEqual, beq_eq_decide]
  exact decide_eq_decide.mpr tagBytes_injective.eq_iff

/-- Settles O31: the words differ in no bit exactly when the tags are equal, and so do their bytes. -/
theorem verifyComparesTheTags : Obligations.VerifyComparesTheTags :=
  ⟨Laws.noOperandForm (by decide) rfl rfl, rfl, ignoredInError rfl,
    fun _ hp => rejected_sequence rfl (beq_false_of_ne hp), fun _ => exec_verify, tagEqual_tagBytes⟩

end Sys2Proof.Machine
end

section
/-! PROOFS. NOP and ABORT (45_facade.md R102, R103), and the condition for releasing decryption output (R113). -/

namespace Sys2Proof.Machine

open Sys2Proof.Spec

/-! ### NOP and ABORT -/

/-- NOP is ignored while ERR = 1 and otherwise runs, with the identity for its effect and its next PHASE (R102). -/
theorem exec_nop (s : State) : exec .nop s = .next s := by
  cases hE : s.ERR with
  | true => exact exec_ignored hE rfl
  | false => exact exec_of_accepts (accepts_of_admitted (i := .nop) hE rfl rfl)

/-- ABORT is accepted in every state (R103, R117). -/
theorem accepts_abort (s : State) : s.accepts .abort = true := by
  simp [State.accepts, runsInError, Instr.argInRange, admitted]

/-- Settles O14: NOP's word is the one of no operand with OP 0, and every case of NOP answers the same state. -/
theorem nopChangesNothing : Obligations.NopChangesNothing :=
  ⟨Laws.noOperandForm (by decide) rfl rfl, rfl, exec_nop⟩

/-- Settles O15: ABORT is accepted even while ERR = 1, and its effect clears all but the inputs and the port. -/
theorem abortAbandonsAndClearsError : Obligations.AbortAbandonsAndClearsError :=
  ⟨Laws.noOperandForm (by decide) rfl rfl, rfl, fun s => exec_of_accepts (accepts_abort s)⟩

/-! ### Release of decryption output (R113) -/

theorem releaseAllowed_eq_true {s : State} :
    s.releaseAllowed = true ↔ s.AUTH_VALID = true ∧ s.AUTH_OK = true ∧ s.ERR = false := by
  simp [State.releaseAllowed, and_assoc]

/-- No effect but VERIFY's makes release allowed: ABORT and INIT take the verdict away, the others leave it. -/
theorem effectOf_releaseAllowed {i : Instr} (hi : i ≠ .verify) {s : State} (runs : s.ERR = true → runsInError i = true)
    (h : (effectOf i s).releaseAllowed = true) : s.releaseAllowed = true := by
  cases i with
  | verify => exact absurd rfl hi
  | init | abort => cases h
  | _ => exact h

/-- A command that makes release allowed is an accepted VERIFY in DONE with equal tags. -/
theorem exec_makes_releaseAllowed {i : Instr} {s t : State} (h : exec i s = .next t) (before : s.releaseAllowed = false)
    (after : t.releaseAllowed = true) : i = .verify ∧ s.accepts i = true ∧ s.PHASE = .done ∧ s.TAG = s.RT := by
  cases exec_cases h with
  | ignored => cases before.symm.trans after
  | badArg => simp [State.releaseAllowed] at after
  | sequence => simp [State.releaseAllowed] at after
  | ran runs arg phase =>
    by_cases hi : i = .verify
    · subst hi
      obtain ⟨-, equal, noError⟩ := releaseAllowed_eq_true.mp after
      exact ⟨rfl, accepts_of_admitted noError rfl phase, beq_iff_eq.mp phase,
        (tagDiff_eq_zero_iff s.TAG s.RT).mp (beq_iff_eq.mp equal)⟩
    · cases before.symm.trans (effectOf_releaseAllowed hi runs after)

/-- Issue makes no release allowed: VERIFY goes busy, so issue only starts it. -/
theorem issue_releaseAllowed {w : Word} {s t : State} (h : issue w s = .next t) (before : s.releaseAllowed = false) :
    t.releaseAllowed = false := by
  cases issue_cases h with
  | illegalIgnored => exact before
  | illegal => simp [State.releaseAllowed]
  | started => exact before
  | executed i hw t quick run =>
    refine Bool.eq_false_of_not_eq_true fun after => ?_
    obtain ⟨rfl, acc, -⟩ := exec_makes_releaseAllowed run before after
    obtain hw | hw := hw
    · exact absurd (quick hw) (by simp [acc, goesBusy])
    · obtain ⟨-, illegal⟩ := Laws.decode_eq_badArg hw
      cases illegal

theorem writeReg_releaseAllowed (r : Reg) (v : Word) (s : State) :
    (s.writeReg r v).releaseAllowed = s.releaseAllowed := by
  cases r <;> rfl

theorem perform_releaseAllowed {a : Access} {s t : State} (h : perform a s = .next t)
    (before : s.releaseAllowed = false) : t.releaseAllowed = false := by
  cases perform_cases h with
  | read => exact before
  | issued w hr hop u hu => exact (issue_releaseAllowed hu before :)
  | written r v => exact (writeReg_releaseAllowed r v s).trans before

/-- The host's side of a busy cycle leaves the verdict, PHASE and the tags that VERIFY compares. -/
theorem hostWhileBusy_verdict {s t : State} (h : hostWhileBusy s = .next t) :
    t.releaseAllowed = s.releaseAllowed ∧ t.PHASE = s.PHASE ∧ t.TAG = s.TAG ∧ t.RT = s.RT := by
  have ht := hostWhileBusy_frame h
  exact ⟨congrArg (·.releaseAllowed) ht, congrArg (·.PHASE) ht, congrArg (·.TAG) ht, congrArg (·.RT) ht⟩

/-- Settles O60: of all that a step can do, only the completion of an accepted VERIFY with equal tags gives the
verdict. -/
theorem releaseOnlyAfterMatchingVerify : Obligations.ReleaseOnlyAfterMatchingVerify := by
  intro s t h before after
  cases step_cases h with
  | reset => cases after
  | runs f hf hr u hu =>
    obtain ⟨same, -⟩ := hostWhileBusy_verdict hu
    cases (same.trans before).symm.trans after
  | completes f hf hr u hu v hv =>
    obtain ⟨same, hP, hT, hR⟩ := hostWhileBusy_verdict hu
    obtain ⟨hcmd, -, phase, tags⟩ := exec_makes_releaseAllowed hv (same.trans before) after
    exact ⟨f, hf, hcmd, hP ▸ phase, hT ▸ hR ▸ tags⟩
  | performsHeld a hf hh t ht => cases (perform_releaseAllowed ht before).symm.trans after
  | performsNext a rest hf hh hp t ht => cases (perform_releaseAllowed ht before).symm.trans after
  | idles => cases before.symm.trans after
  | waits => cases before.symm.trans after

end Sys2Proof.Machine
end

section
/-! PROOFS. The AEAD functions on byte strings (45_facade.md R104 to R107), and the procedures of the host with each
command as one transition (R110 to R112). -/

namespace Sys2Proof.Machine

/-! ### Key, nonce and tag as words (20_memory.md R50, R51) -/

/-- Byte j of an assembled word (R50). -/
theorem byteOf_le32 (b : Fin 4 → Byte) (j : Fin 4) : byteOf (le32 (b 0) (b 1) (b 2) (b 3)) j = b j := by
  fin_cases j
  · exact byteOf_le32_0 ..
  · exact byteOf_le32_1 ..
  · exact byteOf_le32_2 ..
  · exact byteOf_le32_3 ..

theorem keyWords_byte (key : Key) (i : Fin 6) (j : Fin 4) :
    byteOf ((keyWords key).get i) j = key[4 * i.val + j.val] := by
  rw [← byteOf_le32 (fun j => key[4 * i.val + j.val]) j]
  fin_cases i <;> rfl

theorem nonceWords_byte (nonce : Nonce) (i : Fin 3) (j : Fin 4) :
    byteOf ((nonceWords nonce).get i) j = nonce[4 * i.val + j.val] := by
  rw [← byteOf_le32 (fun j => nonce[4 * i.val + j.val]) j]
  fin_cases i <;> rfl

theorem tagBytes_length (T : TagWords) : (tagBytes T).length = 8 := rfl

theorem tagBytes_tagWords : ∀ {t : List Byte}, t.length = 8 → tagBytes (tagWords t) = t
  | [b0, b1, b2, b3, b4, b5, b6, b7], _ => by simp only [tagWords, tagBytes, unle32_le32]; rfl

theorem receivedTag_length {c : List Byte} (h : 8 ≤ c.length) : (receivedTag c).length = 8 := by
  rw [receivedTag, List.length_drop]; omega

theorem bodyOf_append_tagBytes (body : List Byte) (T : TagWords) : bodyOf (body ++ tagBytes T) = body := by
  rw [bodyOf, List.length_append, tagBytes_length, Nat.add_sub_cancel, List.take_left]

theorem receivedTag_append_tagBytes (body : List Byte) (T : TagWords) :
    receivedTag (body ++ tagBytes T) = tagBytes T := by
  rw [receivedTag, List.length_append, tagBytes_length, Nat.add_sub_cancel, List.drop_left]

/-! ### The reference functions (R104, R105, R107) -/

theorem aeadDecrypt_short {c : List Byte} (h : c.length < 8) (key : Key) (nonce : Nonce) (ad : List Byte) :
    aeadDecrypt key nonce ad c = none := if_pos h

theorem aeadDecrypt_long {c : List Byte} (h : 8 ≤ c.length) (key : Key) (nonce : Nonce) (ad : List Byte) :
    aeadDecrypt key nonce ad c =
      let K := keyWords key
      let r := decryptBlocks K (absorbAd K (initializeState K (nonceWords nonce)) ad) (bodyOf c)
      if tagEqual (tagBytes (finalize K r.1).2) (receivedTag c) then some r.2 else none :=
  if_neg (Nat.not_lt.mpr h)

/-- Settles O41: decryption goes the way of encryption to the same final state, so both compute the same tag. -/
theorem aeadRoundTrip : Obligations.AeadRoundTrip := by
  intro key nonce ad m
  have lengths : (aeadEncrypt key nonce ad m).length = m.length + 8 := by
    rw [aeadEncrypt, List.length_append, tagBytes_length, (decryptionFollowsTheTrajectory _ _ m).2]
  refine ⟨?_, lengths⟩
  rw [aeadDecrypt_long (by omega)]
  simp only [aeadEncrypt, bodyOf_append_tagBytes, receivedTag_append_tagBytes,
    (decryptionFollowsTheTrajectory _ _ m).1, tagEqual_tagBytes, decide_true, if_true]

/-! ### Loading key, nonce and received tag (30_encoding.md R67) -/

/-- Writes to registers other than CMD, one after the other. -/
theorem transactAll_writes (ws : List (Reg × Word)) (notCmd : ∀ p ∈ ws, p.1 ≠ .cmd) {s : State}
    (hf : s.inFlight = none) : transactAll (ws.map fun p => wr p.1 p.2) s =
      .next (ws.foldl (fun u p => (u.writeReg p.1 p.2).answer Answer.done) s) := by
  induction ws generalizing s with
  | nil => rfl
  | cons p ws ih =>
    obtain ⟨hp, notCmd⟩ := List.forall_mem_cons.mp notCmd
    have idle : ((s.writeReg p.1 p.2).answer Answer.done).inFlight = none := by cases p.1 <;> exact hf
    exact (transactAll_cons (transact_write hf hp p.2) _).trans (ih notCmd idle)

/-- The state with key and nonce loaded. -/
def State.load (s : State) (key : Key) (nonce : Nonce) : State :=
  { s with K := keyWords key, N := nonceWords nonce, answers := s.answers ++ List.replicate 9 Answer.done }

/-- The state with the received tag loaded. -/
def State.loadTag (s : State) (t : List Byte) : State :=
  { s with RT := tagWords t, answers := s.answers ++ List.replicate 2 Answer.done }

theorem State.Ready.load {s : State} (h : s.Ready) (key : Key) (nonce : Nonce) : (s.load key nonce).Ready :=
  ⟨h.err, h.idle⟩

theorem State.Ready.loadTag {s : State} (h : s.Ready) (t : List Byte) : (s.loadTag t).Ready := ⟨h.err, h.idle⟩

theorem transactAll_ldkey_ldnonce (key : Key) (nonce : Nonce) {s : State} (hf : s.inFlight = none) :
    transactAll (ldkey key ++ ldnonce nonce) s = .next (s.load key nonce) := by
  have writes := transactAll_writes
    [(.key 0, (keyWords key).k0), (.key 1, (keyWords key).k1), (.key 2, (keyWords key).k2),
      (.key 3, (keyWords key).k3), (.key 4, (keyWords key).k4), (.key 5, (keyWords key).k5),
      (.nonce 0, (nonceWords nonce).n0), (.nonce 1, (nonceWords nonce).n1), (.nonce 2, (nonceWords nonce).n2)]
    (by simp) hf
  refine writes.trans ?_
  simp only [List.foldl, State.answer, State.writeReg, List.append_assoc]
  rfl

theorem transactAll_ldtag (t : List Byte) {s : State} (hf : s.inFlight = none) :
    transactAll (ldtag t) s = .next (s.loadTag t) := by
  have writes := transactAll_writes [(.rtag 0, (tagWords t).t0), (.rtag 1, (tagWords t).t1)] (by simp) hf
  refine writes.trans ?_
  simp only [List.foldl, State.answer, State.writeReg, List.append_assoc]
  rfl

theorem readValues_replicate_done (n : Nat) : readValues (List.replicate n Answer.done) = [] := by
  induction n with
  | zero => rfl
  | succ n ih => exact ih

/-! ### From INIT to FIN (R110, R111) -/

/-- What both procedures do between loading the inputs and reading the results. -/
def Direction.operation (d : Direction) (ad text : List Byte) : List Access :=
  cmd .init :: (adAccesses ad ++ (blockAccesses d.full d.part text ++ [cmd .fin]))

theorem encryptProcedure_eq (key : Key) (nonce : Nonce) (ad m : List Byte) : encryptProcedure key nonce ad m =
    (ldkey key ++ ldnonce nonce) ++ (Direction.operation .encrypt ad m ++ [rd (.tag 0), rd (.tag 1), rd .status]) := by
  simp only [encryptProcedure, Direction.operation, encryptAccesses, Direction.full, Direction.part, List.append_assoc,
    List.cons_append, List.nil_append]

theorem decryptProcedure_eq {c : List Byte} (h : 8 ≤ c.length) (key : Key) (nonce : Nonce) (ad : List Byte) :
    decryptProcedure key nonce ad c = (ldkey key ++ ldnonce nonce) ++ (ldtag (receivedTag c) ++
      (Direction.operation .decrypt ad (bodyOf c) ++ [cmd .verify, rd .status])) := by
  simp only [decryptProcedure_long h, Direction.operation, decryptAccesses, Direction.full, Direction.part,
    List.append_assoc, List.cons_append, List.nil_append]

/-- What the operation makes of the text, with the key and nonce that are loaded (R104, R105). -/
def Direction.transduced (d : Direction) (s : State) (ad text : List Byte) : Block × List Byte :=
  d.blocks s.K (absorbAd s.K (initializeState s.K s.N) ad) text

/-- The state `u` after FIN, reached from `s` with the answers `new`: the tag is the reference function's, no verdict is
given yet, and from the words read the host takes the text of the reference function. -/
structure Direction.Finished (d : Direction) (s : State) (ad text : List Byte) (new : List Answer) (u : State) :
    Prop where
  ready : u.Ready
  phase : u.PHASE = .done
  noVerdict : u.AUTH_VALID = false
  K : u.K = s.K
  N : u.N = s.N
  RT : u.RT = s.RT
  TAG : u.TAG = (finalize s.K (d.transduced s ad text).1).2
  answers : u.answers = s.answers ++ new
  taken : ∀ later, takeBlocks text (readValues new ++ later) = ((d.transduced s ad text).2, later)

theorem transact_init {s : State} (h : s.Ready) : transact (cmd .init) s = .next { s with
    S := initializeState s.K s.N, TAG := .zero, DOUT := 0, AUTH_VALID := false, AUTH_OK := false, PHASE := .ad
    answers := s.answers ++ [Answer.done] } :=
  transact_cmd (i := .init) (Laws.decode_encode_legal rfl) h.idle (accepts_of_admitted h.err rfl rfl)

theorem transact_fin {s : State} (h : s.Ready) (hp : admitted .fin s.PHASE = true) :
    transact (cmd .fin) s = .next { s with
      S := (finalize s.K s.S).1, TAG := (finalize s.K s.S).2, PHASE := .done, answers := s.answers ++ [Answer.done] } :=
  transact_cmd (i := .fin) (Laws.decode_encode_legal rfl) h.idle (accepts_of_admitted h.err rfl hp)

/-- The state after VERIFY in DONE (R101). -/
def State.verified (s : State) : State := { s with AUTH_OK := decide (s.TAG = s.RT), AUTH_VALID := true }

theorem transact_verify {s : State} (h : s.Ready) (hp : s.PHASE = .done) :
    transact (cmd .verify) s = .next (s.verified.answer Answer.done) := by
  have accepted : s.accepts .verify = true := accepts_of_admitted h.err rfl (beq_iff_eq.mpr hp)
  have executed := (exec_of_accepts accepted).symm.trans (exec_verify h.err hp)
  rw [transact_cmd (Laws.decode_encode_legal rfl) h.idle accepted]
  exact congrArg (fun u : State => Host.Outcome.next (u.answer Answer.done)) (Host.Outcome.next.inj executed)

theorem Direction.transactAll_operation (d : Direction) (ad text : List Byte) {s : State} (h : s.Ready) :
    ∃ u new, transactAll (d.operation ad text) s = .next u ∧ d.Finished s ad text new u := by
  obtain ⟨adDin, adRun⟩ := transactAll_adAccesses ad (s := { s with
    S := initializeState s.K s.N, TAG := .zero, DOUT := 0, AUTH_VALID := false, AUTH_OK := false, PHASE := .ad
    answers := s.answers ++ [Answer.done] }) ⟨h.err, h.idle⟩ rfl
  rw [operation, transactAll_cons (transact_init h), transactAll_append, adRun, andThen_next, transactAll_append]
  obtain ⟨din, dout, phase, new, textRun, finAdmitted, taken⟩ := d.transactAll_blockAccesses text (s := { s with
    S := absorbAd s.K (initializeState s.K s.N) ad, TAG := .zero, DIN := adDin, DOUT := 0
    PHASE := if ad.length % 4 = 0 then .ad else .msg, AUTH_VALID := false, AUTH_OK := false
    answers := s.answers ++ [Answer.done] ++ List.replicate (adAccesses ad).length Answer.done }) ⟨h.err, h.idle⟩
    (by dsimp only; split <;> simp)
  rw [textRun, andThen_next, transactAll_cons (transact_fin (by exact ⟨h.err, h.idle⟩) finAdmitted)]
  refine ⟨_, [Answer.done] ++ List.replicate (adAccesses ad).length Answer.done ++ new ++ [Answer.done], rfl,
    ⟨h.err, h.idle⟩, rfl, rfl, rfl, rfl, rfl, rfl, ?_, fun later => ?_⟩
  · simp only [List.append_assoc]
  · simp only [readValues_append, readValues_replicate_done, readValues, List.nil_append, List.append_nil]
    exact taken later

/-! ### The results (R110, R111) -/

theorem status_errSeen (s : State) : errSeen s.status = s.ERR := status_bit s 1
theorem status_authValid (s : State) : s.status.getLsbD 2 = s.AUTH_VALID := status_bit s 2
theorem status_authOk (s : State) : s.status.getLsbD 3 = s.AUTH_OK := status_bit s 3

/-- Reads of TAG0, TAG1 and STATUS. -/
theorem transactAll_readTag {s : State} (hf : s.inFlight = none) :
    transactAll [rd (.tag 0), rd (.tag 1), rd .status] s = .next { s with
      answers := s.answers ++ [Answer.data s.TAG.t0, Answer.data s.TAG.t1, Answer.data s.status] } := by
  rw [transactAll_cons (transact_read hf _), transactAll_cons (transact_read (by exact hf) _),
    transactAll_cons (transact_read (by exact hf) _)]
  simp only [transactAll, State.answer, List.append_assoc]
  rfl

/-- The last reads of R110, after those of the ciphertext. -/
theorem encryptResult_append {m out : List Byte} {new : List Answer} {t0 t1 st : Word}
    (taken : ∀ later, takeBlocks m (readValues new ++ later) = (out, later)) (noError : errSeen st = false) :
    encryptResult m (new ++ [Answer.data t0, Answer.data t1, Answer.data st]) =
      some (out ++ unle32 t0 ++ unle32 t1) := by
  simp only [encryptResult, readValues_append, readValues, taken, noError, Bool.false_eq_true, if_false]

/-- The last answers of R111, after the reads of the plaintext. -/
theorem decryptResult_append {c out : List Byte} (h : 8 ≤ c.length) {new : List Answer} {st : Word}
    (taken : ∀ later, takeBlocks (bodyOf c) (readValues new ++ later) = (out, later)) (noError : errSeen st = false) :
    decryptResult c (new ++ [Answer.done, Answer.data st]) =
      if st.getLsbD 2 && st.getLsbD 3 then some out else none := by
  rw [decryptResult, if_neg (Nat.not_lt.mpr h)]
  simp only [readValues_append, readValues, taken, noError]
  cases st.getLsbD 2 <;> cases st.getLsbD 3 <;> rfl

/-- The procedure of R111 up to its VERIFY. -/
def decryptFront (key : Key) (nonce : Nonce) (ad c : List Byte) : List Access :=
  (ldkey key ++ ldnonce nonce) ++ (ldtag (receivedTag c) ++ Direction.operation .decrypt ad (bodyOf c))

theorem decryptProcedure_front {c : List Byte} (h : 8 ≤ c.length) (key : Key) (nonce : Nonce) (ad : List Byte) :
    decryptProcedure key nonce ad c = decryptFront key nonce ad c ++ [cmd .verify, rd .status] := by
  simp only [decryptProcedure_eq h, decryptFront, List.append_assoc]

/-- The state `u` in which the procedure of R111 issues VERIFY, reached from `s` with the answers `new`: the words read
give what AeadDecrypt returns if the tags are equal. -/
structure BeforeVerify (key : Key) (nonce : Nonce) (ad c : List Byte) (s : State) (new : List Answer) (u : State) :
    Prop where
  ready : u.Ready
  phase : u.PHASE = .done
  noVerdict : u.AUTH_VALID = false
  K : u.K = keyWords key
  N : u.N = nonceWords nonce
  RT : tagBytes u.RT = receivedTag c
  answers : u.answers = s.answers ++ new
  outcome : ∃ out, (∀ later, takeBlocks (bodyOf c) (readValues new ++ later) = (out, later)) ∧
    aeadDecrypt key nonce ad c = if u.TAG = u.RT then some out else none

section
variable {s : State} (h : s.Ready) (key : Key) (nonce : Nonce) (ad : List Byte)
include h

/-- The procedure of R110 ends without an error and reads the output of AeadEncrypt. -/
theorem transactAll_encryptProcedure (m : List Byte) :
    ∃ t new, transactAll (encryptProcedure key nonce ad m) s = .next t ∧ t.answers = s.answers ++ new ∧
      t.ERR = false ∧ t.K = keyWords key ∧ t.N = nonceWords nonce ∧
      encryptResult m new = some (aeadEncrypt key nonce ad m) := by
  obtain ⟨u, new, run, hu⟩ := Direction.encrypt.transactAll_operation ad m (h.load key nonce)
  have taken (later : List Word) : takeBlocks m (readValues (List.replicate 9 Answer.done ++ new) ++ later) =
      ((Direction.encrypt.transduced (s.load key nonce) ad m).2, later) := by
    rw [readValues_append, readValues_replicate_done]
    exact hu.taken later
  rw [encryptProcedure_eq, transactAll_append, transactAll_ldkey_ldnonce key nonce h.idle, andThen_next,
    transactAll_append, run, andThen_next, transactAll_readTag hu.ready.idle]
  refine ⟨_, List.replicate 9 Answer.done ++ new ++
      [Answer.data u.TAG.t0, Answer.data u.TAG.t1, Answer.data u.status], rfl, ?_, hu.ready.err, hu.K, hu.N,
    (encryptResult_append taken ((status_errSeen u).trans hu.ready.err)).trans ?_⟩
  · simp only [hu.answers, State.load, List.append_assoc]
  · rw [List.append_assoc, hu.TAG]
    rfl

theorem transactAll_decryptFront {c : List Byte} (hc : 8 ≤ c.length) :
    ∃ u new, transactAll (decryptFront key nonce ad c) s = .next u ∧ BeforeVerify key nonce ad c s new u := by
  obtain ⟨u, new, run, hu⟩ := Direction.decrypt.transactAll_operation ad (bodyOf c)
    ((h.load key nonce).loadTag (receivedTag c))
  have taken (later : List Word) :
      takeBlocks (bodyOf c)
          (readValues (List.replicate 9 Answer.done ++ List.replicate 2 Answer.done ++ new) ++ later) =
        ((Direction.decrypt.transduced ((s.load key nonce).loadTag (receivedTag c)) ad (bodyOf c)).2, later) := by
    rw [readValues_append, readValues_append, readValues_replicate_done, readValues_replicate_done]
    exact hu.taken later
  have received : tagBytes u.RT = receivedTag c := by
    rw [hu.RT]
    exact tagBytes_tagWords (receivedTag_length hc)
  rw [decryptFront, transactAll_append, transactAll_ldkey_ldnonce key nonce h.idle, andThen_next,
    transactAll_append, transactAll_ldtag _ (h.load key nonce).idle, andThen_next, run]
  refine ⟨u, List.replicate 9 Answer.done ++ List.replicate 2 Answer.done ++ new, rfl, hu.ready, hu.phase,
    hu.noVerdict, hu.K, hu.N, received, ?_, _, taken, ?_⟩
  · simp only [hu.answers, State.load, State.loadTag, List.append_assoc]
  · simp only [aeadDecrypt_long hc, ← received, tagEqual_tagBytes, hu.TAG, decide_eq_true_eq]
    rfl

end

/-- With equal tags the host takes the plaintext, else it fails (R111). -/
theorem BeforeVerify.decryptResult_eq {key : Key} {nonce : Nonce} {ad c : List Byte} {s u : State}
    {new : List Answer} (hu : BeforeVerify key nonce ad c s new u) (hc : 8 ≤ c.length) :
    decryptResult c (new ++ [Answer.done, Answer.data u.verified.status]) = aeadDecrypt key nonce ad c := by
  obtain ⟨out, taken, outcome⟩ := hu.outcome
  rw [decryptResult_append hc taken ((status_errSeen u.verified).trans hu.ready.err), status_authValid, status_authOk,
    outcome]
  simp only [State.verified, Bool.true_and, decide_eq_true_eq]

/-- VERIFY and the read of STATUS end the procedure of R111. -/
theorem transactAll_verify {u : State} (h : u.Ready) (hp : u.PHASE = .done) : transactAll [cmd .verify, rd .status] u =
    .next ((u.verified.answer Answer.done).answer (Answer.data u.verified.status)) :=
  (transactAll_cons (transact_verify h hp) _).trans (transactAll_cons (transact_read (by exact h.idle) .status) [])

/-- Settles O42: key, nonce and tag are loaded byte by byte, the operation of either direction leaves the reference
function's tag, and VERIFY compares it with the received one. -/
theorem hostProceduresAgreeWithReference : Obligations.HostProceduresAgreeWithReference := by
  refine ⟨keyWords_byte, nonceWords_byte, fun key nonce ad s hE hf => ⟨fun m => ?_, fun c => ?_⟩⟩
  · exact transactAll_encryptProcedure ⟨hE, hf⟩ key nonce ad m
  · obtain hshort | hlong := Nat.lt_or_ge c.length 8
    · rw [decryptProcedure_short hshort]
      exact ⟨s, [], rfl, (List.append_nil _).symm, hE,
        (decryptResult_short hshort []).trans (aeadDecrypt_short hshort ..).symm, fun h => absurd hshort (by omega),
        fun _ => ⟨rfl, decryptResult_short hshort []⟩⟩
    · obtain ⟨u, new, run, hu⟩ := transactAll_decryptFront ⟨hE, hf⟩ key nonce ad hlong
      rw [decryptProcedure_front hlong, transactAll_append, run, andThen_next,
        transactAll_verify hu.ready hu.phase]
      refine ⟨_, new ++ [Answer.done, Answer.data u.verified.status], rfl, ?_, hu.ready.err,
        hu.decryptResult_eq hlong, fun _ => ⟨hu.K, hu.N, hu.RT⟩, fun h => absurd hlong (by omega)⟩
      simp only [State.answer_answers, State.verified, hu.answers, List.append_assoc, List.cons_append, List.nil_append]

end Sys2Proof.Machine
end

section
/-! PROOFS. The cycle-by-cycle machine against its accesses performed in their order (20_memory.md R47, R54;
70_reset_and_hazards.md R135 to R138): a run comes to rest, and all that time changes of what the host sees are the STATUS
words read while a command is in flight. -/

namespace Sys2Proof.Machine

/-! ### The engine without what stands at its port -/

/-- The engine with nothing held and nothing to come. -/
def State.engine (s : State) : State := { s with held := none, port := [] }

/-- The accesses not yet answered, next first. -/
def State.pending (s : State) : List Access := s.held.toList ++ s.port.filterMap PortEvent.access?

theorem exec_engine {i : Instr} {s t : State} (h : exec i s = .next t) : exec i s.engine = .next t.engine := by
  obtain ⟨-, -, -, -, -, -, -, answers, freeReads⟩ := exec_frame h
  refine (exec_port_irrelevant h none [] s.answers s.freeReads).trans ?_
  rw [← answers, ← freeReads]
  rfl

theorem complete_engine {f : InFlight} {s t : State} (h : complete f s = .next t) :
    complete f s.engine = .next t.engine := by
  obtain ⟨v, hv, hvt⟩ := andThen_eq_next h
  cases hvt
  rw [complete, exec_engine hv]
  rfl

theorem issue_engine {w : Word} {s t : State} (h : issue w s = .next t) : issue w s.engine = .next t.engine := by
  unfold issue at h ⊢
  cases hw : decode w with
  | illegal =>
    have err : s.engine.ERR = s.ERR := rfl
    simp only [hw, err] at h ⊢
    split at h
    case isTrue hE => cases h; rw [if_pos hE]
    case isFalse hE => cases h; rw [if_neg hE]; rfl
  | badArg i => exact exec_engine (by simpa only [hw] using h)
  | cmd i =>
    have acc : s.engine.accepts i = s.accepts i := rfl
    simp only [hw, acc] at h ⊢
    split at h
    case isTrue starts => cases h; rw [if_pos starts]; rfl
    case isFalse starts => rw [if_neg starts]; exact exec_engine h

theorem perform_engine {a : Access} {s t : State} (h : perform a s = .next t) :
    perform a s.engine = .next t.engine := by
  cases perform_cases h with
  | read r hr hop => rw [perform_of_reg hr, hop]; cases r <;> rfl
  | issued w hr hop u hu => rw [perform_of_reg hr, hop, performOn_write_cmd, issue_engine hu]; rfl
  | written r v hr hne hop => rw [perform_of_reg hr, hop, performOn_write hne]; cases r <;> rfl

/-- Performing an access leaves what stands at the port. -/
theorem perform_port {a : Access} {s t : State} (h : perform a s = .next t) : t.held = s.held ∧ t.port = s.port := by
  cases perform_cases h with
  | read => exact ⟨rfl, rfl⟩
  | issued w hr hop u hu =>
    obtain ⟨-, -, -, -, held, port, -⟩ := issue_frame hu
    exact ⟨held, port⟩
  | written r => cases r <;> exact ⟨rfl, rfl⟩

theorem settle_idle {s : State} (hf : s.inFlight = none) : settle s = .next s := by
  simp only [settle, hf]

theorem settle_inFlight {s : State} {f : InFlight} (hf : s.inFlight = some f) : settle s = complete f s := by
  simp only [settle, hf]

theorem settle_next (s : State) : ∃ t, settle s = .next t ∧ t.inFlight = none := by
  cases hf : s.inFlight with
  | none => exact ⟨s, settle_idle hf, hf⟩
  | some f => rw [settle_inFlight hf]; exact complete_next f s

theorem idle_of_settle {s t : State} (h : settle s = .next t) : t.inFlight = none := by
  obtain ⟨u, hu, idle⟩ := settle_next s
  cases hu.symm.trans h
  exact idle

/-! ### What the host can see -/

/-- `Serves v as t`: from the state `v`, which may have a command in flight, the accesses `as` are answered in their order
and the engine comes to rest in `t`. A STATUS read may be answered while the command is in flight (R137); any other access
is performed after the command has completed (R136). -/
inductive Serves : State → List Access → State → Prop where
  | ends {v t : State} (hs : settle v = .next t) : Serves v [] t
  | early {v t : State} {a : Access} {as : List Access} (f : InFlight) (hf : v.inFlight = some f)
    (ha : a.readsStatus = true) (h : Serves (v.answer (.data v.status)) as t) : Serves v (a :: as) t
  | inTurn {v s u t : State} {a : Access} {as : List Access} (hs : settle v = .next s) (hu : perform a s = .next u)
    (h : Serves u as t) : Serves v (a :: as) t

section
variable {v s t : State} {a : Access} {as : List Access}

/-- The command in flight may complete before the next access is answered. -/
theorem Serves.of_settle (hs : settle v = .next s) (h : Serves s as t) : Serves v as t := by
  have settled := settle_idle (idle_of_settle hs)
  cases h with
  | ends hs' => cases settled.symm.trans hs'; exact .ends hs
  | early f hf => cases (idle_of_settle hs).symm.trans hf
  | inTurn hs' hu h => cases settled.symm.trans hs'; exact .inTurn hs hu h

/-- The command in flight with `n` cycles left. -/
def State.withCyclesLeft (v : State) (f : InFlight) (n : Nat) : State :=
  { v with inFlight := some { f with remaining := n } }

/-- How many cycles the command in flight has left shows in no answer. -/
theorem Serves.of_withCyclesLeft {f : InFlight} {n : Nat} (hf : v.inFlight = some f)
    (h : Serves (v.withCyclesLeft f n) as t) : Serves v as t := by
  generalize hw : v.withCyclesLeft f n = w at h
  induction h generalizing v with
  | ends hs =>
    subst hw
    exact .ends ((settle_inFlight hf).trans ((complete_remaining hf n).symm.trans hs))
  | early g hg ha h ih =>
    subst hw
    have status : (v.withCyclesLeft f n).status = v.status := by
      simp only [State.status, State.BUSY, hf]
      rfl
    refine .early f hf ha (ih (by exact hf) ?_)
    rw [status]
    rfl
  | inTurn hs hu h =>
    subst hw
    exact .inTurn ((settle_inFlight hf).trans ((complete_remaining hf n).symm.trans hs)) hu h

/-- An access other than a STATUS read waits until the command has completed. -/
theorem Serves.head_awaited (hs : settle v = .next s) (ha : a.readsStatus = false) (h : Serves v (a :: as) t) :
    ∃ u, perform a s = .next u ∧ Serves u as t := by
  cases h with
  | early f hf ha' => cases ha.symm.trans ha'
  | inTurn hs' hu h => cases hs.symm.trans hs'; exact ⟨_, hu, h⟩

/-- Without STATUS reads the engine is at each access where the atomic commands lead. -/
theorem Serves.awaited {b : Access} {bs : List Access} (awaited : ∀ a ∈ as, a.readsStatus = false)
    (hb : b.readsStatus = false) (hs : settle v = .next s) (h : Serves v (as ++ b :: bs) t) :
    ∃ u, transactAll as s = .next u ∧ u.inFlight = none ∧ Serves u (b :: bs) t := by
  induction as generalizing v s with
  | nil =>
    obtain ⟨u, hu, h⟩ := h.head_awaited hs hb
    exact ⟨s, rfl, idle_of_settle hs, .inTurn (settle_idle (idle_of_settle hs)) hu h⟩
  | cons a as ih =>
    obtain ⟨ha, awaited⟩ := List.forall_mem_cons.mp awaited
    obtain ⟨w, hw, h⟩ := h.head_awaited hs ha
    obtain ⟨s', hs', -⟩ := settle_next w
    have transacted : transact a s = .next s' := by rw [transact, hw, andThen_next, hs']
    rw [transactAll_cons transacted]
    exact ih awaited hs' h

/-- A read with nothing in flight. -/
theorem Serves.head_read {r : Reg} (idle : s.inFlight = none) (h : Serves s (rd r :: as) t) :
    Serves (s.answer (.data (s.readReg r))) as t := by
  cases h with
  | early f hf => cases idle.symm.trans hf
  | inTurn hs hu h =>
    cases (settle_idle idle).symm.trans hs
    cases (perform_rd r s).symm.trans hu
    exact h

theorem Serves.ended (idle : s.inFlight = none) (h : Serves s [] t) : t = s := by
  cases h with
  | ends hs => cases (settle_idle idle).symm.trans hs; rfl

/-- With nothing in flight reads are answered as they are by the atomic machine. -/
theorem Serves.reads (rs : List Reg) (idle : s.inFlight = none) (h : Serves s (rs.map rd) t) :
    transactAll (rs.map rd) s = .next t := by
  induction rs generalizing s with
  | nil => rw [h.ended idle]; rfl
  | cons r rs ih => exact (transactAll_cons (transact_read idle r) _).trans (ih (by exact idle) (h.head_read idle))

end

/-! ### A run comes to rest, and the host sees what it can -/

/-- No reset is to come, and every access not yet answered is to a register. -/
structure State.Undisturbed (s : State) : Prop where
  noReset : PortEvent.reset ∉ s.port
  mapped : ∀ a ∈ s.pending, a.reg.isSome = true

/-- What is left to take from the port. -/
def State.backlog (s : State) : Nat := s.held.toList.length + s.port.length

/-- The cycles until nothing is in flight, one more than the command has left. -/
def State.cyclesLeft (s : State) : Nat :=
  match s.inFlight with
  | some f => f.remaining + 1
  | none => 0

theorem State.Undisturbed.port_ne {s : State} (h : s.Undisturbed) : ∀ rest, s.port ≠ .reset :: rest :=
  fun _ hp => h.noReset (hp ▸ List.mem_cons_self)

/-- The machine goes on from `c` to `c'` with no more to take from the port, and what the host can see from `c'` on it
can see from `c` on. -/
structure GoesOn (c c' : State) : Prop where
  undisturbed : c'.Undisturbed
  backlog : c'.backlog ≤ c.backlog
  serves : ∀ t, Serves c'.engine c'.pending t → Serves c.engine c.pending t

theorem GoesOn.trans {c u w : State} (hu : GoesOn c u) (hw : GoesOn u w) : GoesOn c w :=
  ⟨hw.undisturbed, hw.backlog.trans hu.backlog, fun t ht => hu.serves t (hw.serves t ht)⟩

theorem readsStatus_of_reg {a : Access} {r : Reg} (hr : a.reg = some r) : a.readsStatus = isStatusRead r a.op := by
  simp only [Access.readsStatus, isStatusRead, hr, Option.some_beq_some]

theorem pending_of_access {c : State} {a : Access} {rest : List PortEvent} (hh : c.held = none)
    (hp : c.port = .access a :: rest) : c.pending = a :: State.pending { c with port := rest } := by
  simp only [State.pending, hh, hp, Option.toList_none, List.nil_append, List.filterMap_cons, PortEvent.access?]

section
variable {c : State} (h : c.Undisturbed)
include h

theorem GoesOn.refl : GoesOn c c := ⟨h, le_rfl, fun _ => id⟩

/-- The engine's part of a cycle leaves what stands at the port. -/
theorem GoesOn.of_port {u : State} (port : u.held = c.held ∧ u.port = c.port)
    (serves : ∀ as t, Serves u.engine as t → Serves c.engine as t) : GoesOn c u := by
  obtain ⟨held, port⟩ := port
  have pending : u.pending = c.pending := by rw [State.pending, held, port]; rfl
  refine ⟨⟨port ▸ h.noReset, pending ▸ h.mapped⟩, ?_, fun t ht => serves _ t (pending ▸ ht)⟩
  rw [State.backlog, held, port]
  exact le_rfl

theorem goesOn_cycle {rest : List PortEvent} (hp : c.port = .cycle :: rest) : GoesOn c { c with port := rest } := by
  have pending : State.pending { c with port := rest } = c.pending := by
    simp only [State.pending, hp, List.filterMap_cons, PortEvent.access?]
  refine ⟨⟨fun hr => h.noReset (hp ▸ List.mem_cons_of_mem _ hr), pending ▸ h.mapped⟩, ?_, fun t ht => pending ▸ ht⟩
  simp only [State.backlog, hp, List.length_cons]
  omega

/-- While a command is in flight an access presented is held, but a STATUS read is answered at once (R136, R137). -/
theorem presentBusy_goesOn {f : InFlight} {a : Access} {rest : List PortEvent} (hf : c.inFlight = some f)
    (hh : c.held = none) (hp : c.port = .access a :: rest) :
    ∃ u, presentBusy a { c with port := rest } = .next u ∧ u.inFlight = some f ∧ GoesOn c u := by
  have pending := pending_of_access hh hp
  have noReset : PortEvent.reset ∉ rest := fun hr => h.noReset (hp ▸ List.mem_cons_of_mem _ hr)
  obtain ⟨r, hr⟩ := Option.isSome_iff_exists.mp (h.mapped a (pending ▸ List.mem_cons_self))
  have reads := readsStatus_of_reg hr
  simp only [presentBusy, hr, ← reads]
  cases hs : a.readsStatus with
  | true =>
    obtain ⟨rfl, hop⟩ : r = .status ∧ a.op = .read := by simpa [isStatusRead, hs] using reads
    rw [if_pos rfl, hop, performOn_read]
    refine ⟨_, rfl, hf, ⟨noReset, fun b hb => h.mapped b (pending ▸ List.mem_cons_of_mem _ hb)⟩, ?_, fun t ht => ?_⟩
    · simp [State.backlog, hp]
    · rw [pending]
      exact .early f hf hs ht
  | false =>
    have same : State.pending { c with port := rest, held := some a } = c.pending := by
      rw [pending, State.pending, State.pending, hh]
      rfl
    refine ⟨{ c with port := rest, held := some a }, rfl, hf, ⟨noReset, same ▸ h.mapped⟩, ?_, fun t ht => same ▸ ht⟩
    simp only [State.backlog, hp, hh, List.length_cons, Option.toList_some, Option.toList_none, List.length_nil]
    omega

/-- The host's side of a busy cycle. -/
theorem hostWhileBusy_goesOn {f : InFlight} (hf : c.inFlight = some f) :
    ∃ u, hostWhileBusy c = .next u ∧ u.inFlight = some f ∧ GoesOn c u := by
  cases hp : c.port with
  | nil => exact ⟨c, by rw [hostWhileBusy, hp], hf, .refl h⟩
  | cons e rest =>
    cases e with
    | reset => exact absurd hp (h.port_ne rest)
    | cycle => exact ⟨{ c with port := rest }, by rw [hostWhileBusy, hp], hf, goesOn_cycle h hp⟩
    | access a =>
      cases hh : c.held with
      | some b => exact ⟨c, by simp [hostWhileBusy, hp, hh], hf, .refl h⟩
      | none => rw [hostWhileBusy_access hh hp]; exact presentBusy_goesOn h hf hh hp

/-- The engine's side of a busy cycle: the countdown, or the completion. -/
theorem runInFlight_goesOn {f : InFlight} (hf : c.inFlight = some f) :
    ∃ u, runInFlight f c = .next u ∧ GoesOn c u ∧ u.cyclesLeft < c.cyclesLeft := by
  unfold runInFlight
  split
  · obtain ⟨u, hu, idle⟩ := complete_next f c
    obtain ⟨v, hv, hvu⟩ := andThen_eq_next hu
    obtain ⟨-, -, -, -, -, held, port, -⟩ := exec_frame hv
    have settled : settle c.engine = .next u.engine := (settle_inFlight (by exact hf)).trans (complete_engine hu)
    refine ⟨u, hu, .of_port h ?_ fun _ _ => .of_settle settled, ?_⟩
    · cases hvu
      exact ⟨held, port⟩
    · simp [State.cyclesLeft, idle, hf]
  · refine ⟨c.withCyclesLeft f (f.remaining - 1), rfl, .of_port h ⟨rfl, rfl⟩ fun _ _ =>
      .of_withCyclesLeft (v := c.engine) (n := f.remaining - 1) hf, ?_⟩
    simp only [State.cyclesLeft, State.withCyclesLeft, hf]
    omega

/-- The access next in turn, which is taken off in `c'`, is performed. -/
theorem perform_goesOn {c' : State} {a : Access} (idle : c.inFlight = none) (engine : c'.engine = c.engine)
    (pending : c.pending = a :: c'.pending) (backlog : c'.backlog < c.backlog) (noReset : PortEvent.reset ∉ c'.port) :
    ∃ u, perform a c' = .next u ∧ GoesOn c u ∧ u.backlog < c.backlog := by
  obtain ⟨r, hr⟩ := Option.isSome_iff_exists.mp (h.mapped a (pending ▸ List.mem_cons_self))
  obtain ⟨u, hu⟩ := performOn_next r a.op c'
  rw [← perform_of_reg hr] at hu
  obtain ⟨held, port⟩ := perform_port hu
  have samePending : u.pending = c'.pending := by rw [State.pending, held, port]; rfl
  have sameBacklog : u.backlog = c'.backlog := by rw [State.backlog, held, port]; rfl
  refine ⟨u, hu, ⟨⟨port ▸ noReset, fun b hb => h.mapped b ?_⟩, by omega, fun t ht => ?_⟩, by omega⟩
  · rw [pending, ← samePending]
    exact List.mem_cons_of_mem _ hb
  · rw [pending, ← samePending]
    exact .inTurn (settle_idle idle) (engine ▸ perform_engine hu) ht

/-- A step of a machine that is not at rest takes something from the port, or brings the command in flight nearer to its
completion. -/
theorem step_goesOn (busy : c.atRest = false) :
    ∃ u, step c = .next u ∧ GoesOn c u ∧ (u.backlog < c.backlog ∨ u.cyclesLeft < c.cyclesLeft) := by
  cases hf : c.inFlight with
  | some f =>
    obtain ⟨u, hu, hfu, goesOn⟩ := hostWhileBusy_goesOn h hf
    obtain ⟨w, hw, goesOn', nearer⟩ := runInFlight_goesOn goesOn.undisturbed hfu
    have same : u.cyclesLeft = c.cyclesLeft := by rw [State.cyclesLeft, hfu, State.cyclesLeft, hf]
    rw [step_busy hf h.port_ne, hu, andThen_next]
    exact ⟨w, hw, goesOn.trans goesOn', .inr (same ▸ nearer)⟩
  | none =>
    cases hh : c.held with
    | some a =>
      rw [step_held hf hh h.port_ne]
      obtain ⟨u, hu, goesOn, nearer⟩ := perform_goesOn h (c' := { c with held := none }) (a := a) hf rfl
        (by rw [State.pending, hh]; rfl) (by simp [State.backlog, hh]) h.noReset
      exact ⟨u, hu, goesOn, .inl nearer⟩
    | none =>
      cases hp : c.port with
      | nil => simp [State.atRest, State.BUSY, hf, hh, hp] at busy
      | cons e rest =>
        have noReset : PortEvent.reset ∉ rest := fun hr => h.noReset (hp ▸ List.mem_cons_of_mem _ hr)
        have fewer : State.backlog { c with port := rest } < c.backlog := by simp [State.backlog, hp]
        cases e with
        | reset => exact absurd hp (h.port_ne rest)
        | cycle => exact ⟨_, step_cycle hf hh hp, goesOn_cycle h hp, .inl fewer⟩
        | access a =>
          rw [step_access hf hh hp]
          obtain ⟨u, hu, goesOn, nearer⟩ := perform_goesOn h (c' := { c with port := rest }) hf rfl
            (pending_of_access hh hp) fewer noReset
          exact ⟨u, hu, goesOn, .inl nearer⟩

end

/-- At rest the engine has answered everything. -/
theorem serves_of_atRest {c : State} (h : c.atRest = true) : Serves c.engine c.pending c := by
  obtain ⟨⟨port, held⟩, idle⟩ : (c.port = [] ∧ c.held = none) ∧ c.BUSY = false := by
    simpa [State.atRest] using h
  have engine : c.engine = c := by rw [State.engine, ← held, ← port]
  have pending : c.pending = [] := by rw [State.pending, held, port]; rfl
  rw [engine, pending]
  exact .ends (settle_idle (c.BUSY_eq_false.mp idle))

/-- A run comes to rest, whatever the latencies and the cycles between the accesses, and the host sees what it can. -/
theorem run_serves (c : State) (h : c.Undisturbed) :
    ∃ (n : Nat) (t : State), core.run n c = .next t ∧ t.atRest = true ∧ Serves c.engine c.pending t := by
  cases hrest : c.atRest with
  | true => exact ⟨0, c, rfl, hrest, serves_of_atRest hrest⟩
  | false =>
    obtain ⟨u, hu, goesOn, nearer⟩ := step_goesOn h hrest
    obtain ⟨n, t, run, atRest, serves⟩ := run_serves u goesOn.undisturbed
    exact ⟨n + 1, t, (run_succ n hu).trans run, atRest, goesOn.serves t serves⟩
termination_by (c.backlog, c.cyclesLeft)
decreasing_by
  have := goesOn.backlog
  omega

/-- A run on events that present these accesses comes to rest when it has served them. -/
theorem presents_serves {es : List PortEvent} {as : List Access} (presented : Presents es as)
    (mapped : ∀ a ∈ as, a.reg.isSome = true) {s : State} (held : s.held = none) :
    ∃ (n : Nat) (t : State), core.run n { s with port := es, answers := [] } = .next t ∧ t.atRest = true ∧
      Serves { s with port := [], answers := [] } as t := by
  obtain ⟨noReset, accesses⟩ := presented
  have pending : State.pending { s with port := es, answers := [] } = as := by
    rw [State.pending, held]
    exact accesses
  have engine : State.engine { s with port := es, answers := [] } = { s with port := [], answers := [] } := by
    rw [State.engine, ← held]
  obtain ⟨n, t, run, atRest, serves⟩ := run_serves { s with port := es, answers := [] } ⟨noReset, pending ▸ mapped⟩
  exact ⟨n, t, run, atRest, engine ▸ pending ▸ serves⟩

end Sys2Proof.Machine
end

section
/-! PROOFS. The procedures of the host on the cycle-by-cycle machine (45_facade.md R110 to R114). -/

namespace Sys2Proof.Machine

/-! ### The accesses of the procedures -/

/-- An access to a register that is answered only when no command is in flight (R136). -/
def Access.Awaited (a : Access) : Prop := a.reg.isSome = true ∧ a.readsStatus = false

theorem wr_awaited (r : Reg) (v : Word) : (wr r v).Awaited :=
  ⟨by rw [wr_reg]; rfl, (readsStatus_of_reg (wr_reg r v)).trans (Bool.and_false _)⟩

theorem cmd_awaited (i : Instr) : (cmd i).Awaited := wr_awaited _ _

theorem rd_awaited {r : Reg} (hr : r ≠ .status) : (rd r).Awaited :=
  ⟨by rw [rd_reg]; rfl, (readsStatus_of_reg (rd_reg r)).trans (by simp [isStatusRead, hr])⟩

theorem adAccesses_awaited (ad : List Byte) : ∀ a ∈ adAccesses ad, a.Awaited := by
  induction ad using blocks_tail_induction with
  | nil => simp [adAccesses]
  | tail l h1 h3 => simp [adAccesses_tail h1 h3, wr_awaited, cmd_awaited]
  | full a b c d rest ih => simpa [adAccesses, wr_awaited, cmd_awaited] using ih

theorem blockAccesses_awaited (full : Instr) (part : BitVec 4 → Instr) (m : List Byte) :
    ∀ a ∈ blockAccesses full part m, a.Awaited := by
  have dout : (rd .dout).Awaited := rd_awaited nofun
  induction m using blocks_tail_induction with
  | nil => simp [blockAccesses]
  | tail l h1 h3 => simp [blockAccesses_tail full part h1 h3, wr_awaited, cmd_awaited, dout]
  | full a b c d rest ih => simpa [blockAccesses, wr_awaited, cmd_awaited, dout] using ih

theorem load_awaited (key : Key) (nonce : Nonce) : ∀ a ∈ ldkey key ++ ldnonce nonce, a.Awaited := by
  simp [ldkey, ldnonce, wr_awaited]

theorem operation_awaited (d : Direction) (ad text : List Byte) : ∀ a ∈ d.operation ad text, a.Awaited := by
  rw [Direction.operation, List.forall_mem_cons, List.forall_mem_append, List.forall_mem_append]
  exact ⟨cmd_awaited _, adAccesses_awaited ad, blockAccesses_awaited _ _ text, by simp [cmd_awaited]⟩

/-- The procedure of R110 up to its first read of the tag. -/
def encryptFront (key : Key) (nonce : Nonce) (ad m : List Byte) : List Access :=
  (ldkey key ++ ldnonce nonce) ++ Direction.operation .encrypt ad m ++ [rd (.tag 0)]

theorem encryptProcedure_front (key : Key) (nonce : Nonce) (ad m : List Byte) : encryptProcedure key nonce ad m =
    encryptFront key nonce ad m ++ [rd (.tag 1), rd .status] := by
  simp only [encryptProcedure_eq, encryptFront, List.append_assoc, List.cons_append, List.nil_append]

theorem encryptFront_awaited (key : Key) (nonce : Nonce) (ad m : List Byte) :
    ∀ a ∈ encryptFront key nonce ad m, a.Awaited :=
  List.forall_mem_append.mpr ⟨List.forall_mem_append.mpr ⟨load_awaited key nonce, operation_awaited _ ad m⟩,
    by simp [rd_awaited]⟩

theorem decryptFront_awaited (key : Key) (nonce : Nonce) (ad c : List Byte) :
    ∀ a ∈ decryptFront key nonce ad c, a.Awaited :=
  List.forall_mem_append.mpr ⟨load_awaited key nonce,
    List.forall_mem_append.mpr ⟨by simp [ldtag, wr_awaited], operation_awaited _ ad _⟩⟩

/-- The procedures read STATUS last; what comes before it is awaited. -/
theorem mapped_of_awaited {as : List Access} (awaited : ∀ a ∈ as, a.Awaited) {b : Access} (hb : b.Awaited) :
    ∀ a ∈ as ++ [b, rd .status], a.reg.isSome = true := by
  rw [List.forall_mem_append]
  exact ⟨fun a ha => (awaited a ha).1, by simp [hb.1, rd_reg]⟩

/-! ### Encryption (R110) -/

/-- The tag is read when FIN has completed, so nothing is in flight at the read of STATUS. -/
theorem transactAll_encryptProcedure_of_serves {key : Key} {nonce : Nonce} {ad m : List Byte} {s t : State}
    (idle : s.inFlight = none) (h : Serves s (encryptProcedure key nonce ad m) t) :
    transactAll (encryptProcedure key nonce ad m) s = .next t := by
  have awaited (a : Access) (ha : a ∈ encryptFront key nonce ad m) := (encryptFront_awaited key nonce ad m a ha).2
  rw [encryptProcedure_front] at h ⊢
  obtain ⟨u, run, idle, h⟩ := h.awaited awaited (rd_awaited (r := .tag 1) nofun).2 (settle_idle idle)
  rw [transactAll_append, run, andThen_next]
  exact h.reads [.tag 1, .status] idle

/-- Settles O43: the run comes to rest with the state and the answers of the atomic commands. -/
theorem encryptionRunAgreesWithReference : Obligations.EncryptionRunAgreesWithReference := by
  intro key nonce ad m es s hE hf hh presented
  have mapped : ∀ a ∈ encryptProcedure key nonce ad m, a.reg.isSome = true :=
    encryptProcedure_front key nonce ad m ▸ mapped_of_awaited (encryptFront_awaited key nonce ad m) (rd_awaited nofun)
  obtain ⟨n, t, run, atRest, serves⟩ := presents_serves presented mapped hh
  obtain ⟨u, new, atomic, answers, noError, -, -, result⟩ :=
    transactAll_encryptProcedure (s := { s with port := [], answers := [] }) ⟨hE, hf⟩ key nonce ad m
  obtain rfl : t = u :=
    Host.Outcome.next.inj ((transactAll_encryptProcedure_of_serves (by exact hf) serves).symm.trans atomic)
  have returned : encryptResult m t.answers = some (aeadEncrypt key nonce ad m) := answers ▸ result
  have ended : runResult (encryptResult m) (.next t) = some (some (aeadEncrypt key nonce ad m), t) := by
    rw [runResult_next atRest, returned]
  refine ⟨n, t, run, ?_, ended⟩
  rw [soundRun, ended, faultyRun_next noError, returned]
  rfl

/-! ### Decryption (R111) -/

theorem exec_answer {i : Instr} {s t : State} (x : Answer) (h : exec i s = .next t) :
    exec i (s.answer x) = .next (t.answer x) := by
  obtain ⟨-, -, -, -, -, held, port, answers, freeReads⟩ := exec_frame h
  refine (exec_port_irrelevant h s.held s.port (s.answers ++ [x]) s.freeReads).trans ?_
  rw [← held, ← port, ← answers, ← freeReads]
  rfl

/-- An answer given while a command is in flight does not change what its completion does. -/
theorem settle_answer {s t : State} (x : Answer) (h : settle s = .next t) :
    settle (s.answer x) = .next (t.answer x) := by
  cases hf : s.inFlight with
  | none =>
    cases (settle_idle hf).symm.trans h
    exact settle_idle hf
  | some f =>
    obtain ⟨v, hv, hvt⟩ := andThen_eq_next ((settle_inFlight hf).symm.trans h)
    cases hvt
    rw [settle_inFlight (by exact hf), complete, exec_answer x hv]
    rfl

/-- A command that goes busy is only started by its write to CMD. -/
theorem perform_cmd_starts {i : Instr} {s : State} (legal : i.wellFormed = true) (acc : s.accepts i = true)
    (busy : goesBusy i = true) : perform (cmd i) s = .next ((s.start i).answer Answer.done) := by
  refine (perform_of_reg (wr_reg .cmd (encode i)) s).trans ((performOn_write_cmd (encode i) s).trans ?_)
  rw [issue_starts (Laws.decode_encode_legal legal) acc busy, andThen_next]

/-- With VERIFY issued, the read of STATUS returns its verdict, or the word from before with BUSY = 1 (R137, log 12). -/
theorem serves_verify {u t : State} (h : u.Ready) (hp : u.PHASE = .done)
    (serves : Serves u [cmd .verify, rd .status] t) :
    ∃ st, t = (u.verified.answer Answer.done).answer (Answer.data st) ∧
      (st = u.verified.status ∨ st = (u.start .verify).status) := by
  have accepted : u.accepts .verify = true := accepts_of_admitted h.err rfl (beq_iff_eq.mpr hp)
  have started := perform_cmd_starts rfl accepted rfl
  have settled : settle ((u.start .verify).answer Answer.done) = .next (u.verified.answer Answer.done) := by
    rw [← transact_verify h hp, transact, started, andThen_next]
  obtain ⟨v, hv, serves⟩ := serves.head_awaited (settle_idle h.idle) (cmd_awaited .verify).2
  cases started.symm.trans hv
  cases serves with
  | early f hf ha serves =>
    cases serves with
    | ends ended => cases (settle_answer _ settled).symm.trans ended; exact ⟨_, rfl, .inr rfl⟩
  | inTurn hs hu serves =>
    cases settled.symm.trans hs
    cases (perform_rd .status _).symm.trans hu
    exact ⟨_, serves.ended h.idle, .inl rfl⟩

/-- The answers of a run of R111 that reads `st` last give what AeadDecrypt returns or, with BUSY = 1, nothing. -/
theorem BeforeVerify.decryptResult_of_status {key : Key} {nonce : Nonce} {ad c : List Byte} {s u : State}
    {new : List Answer} (hu : BeforeVerify key nonce ad c s new u) (hc : 8 ≤ c.length) {st : Word}
    (hst : st = u.verified.status ∨ st = (u.start .verify).status) :
    (st.getLsbD 0 = false → decryptResult c (new ++ [Answer.done, Answer.data st]) = aeadDecrypt key nonce ad c) ∧
      (st.getLsbD 0 = true → decryptResult c (new ++ [Answer.done, Answer.data st]) = none) := by
  obtain rfl | rfl := hst
  · have idle : u.verified.status.getLsbD 0 = false := (status_bit _ 0).trans (u.BUSY_eq_false.mpr hu.ready.idle)
    exact ⟨fun _ => hu.decryptResult_eq hc, fun busy => Bool.noConfusion (idle.symm.trans busy)⟩
  · obtain ⟨out, taken, -⟩ := hu.outcome
    have busy : (u.start .verify).status.getLsbD 0 = true := status_bit _ 0
    refine ⟨fun idle => Bool.noConfusion (busy.symm.trans idle), fun _ => ?_⟩
    rw [decryptResult_append hc taken ((status_errSeen (u.start .verify)).trans hu.ready.err), status_authValid,
      State.start_AUTH_VALID, hu.noVerdict]
    rfl

/-- A run of R111 on an input of 8 bytes or more, as the host sees it. -/
theorem serves_decryptProcedure {key : Key} {nonce : Nonce} {ad c : List Byte} {s t : State} (h : s.Ready)
    (hc : 8 ≤ c.length) (serves : Serves s (decryptProcedure key nonce ad c) t) :
    ∃ u new st, BeforeVerify key nonce ad c s new u ∧
      t = (u.verified.answer Answer.done).answer (Answer.data st) ∧
      (st = u.verified.status ∨ st = (u.start .verify).status) := by
  have awaited (a : Access) (ha : a ∈ decryptFront key nonce ad c) := (decryptFront_awaited key nonce ad c a ha).2
  rw [decryptProcedure_front hc] at serves
  obtain ⟨u, new, run, hu⟩ := transactAll_decryptFront h key nonce ad hc
  obtain ⟨u', run', -, serves⟩ := serves.awaited awaited (cmd_awaited .verify).2 (settle_idle h.idle)
  cases run.symm.trans run'
  obtain ⟨st, ht, hst⟩ := serves_verify hu.ready hu.phase serves
  exact ⟨u, new, st, hu, ht, hst⟩

/-- Settles O44: up to VERIFY the run goes the way of the atomic commands; the last read of STATUS shows the verdict or,
with BUSY = 1, that there is none. -/
theorem decryptionRunAgreesWithReference : Obligations.DecryptionRunAgreesWithReference := by
  intro key nonce ad c es s hE hf hh presented
  have ready : State.Ready { s with port := [], answers := [] } := ⟨hE, hf⟩
  have faulty {t : State} (noError : t.ERR = false) :
      faultyRun (decryptResult c) (.next t) = true ↔ decryptResult c t.answers = none := by
    rw [faultyRun_next noError, Option.isNone_iff_eq_none]
  obtain hshort | hlong := Nat.lt_or_ge c.length 8
  · rw [decryptProcedure_short hshort] at presented
    obtain ⟨n, t, run, atRest, serves⟩ := presents_serves presented (by simp) hh
    have ended := serves.ended ready.idle
    have noError : t.ERR = false := ended ▸ hE
    exact ⟨n, t, run, noError, runResult_next atRest _, faulty noError,
      fun _ => ⟨ended, decryptResult_short hshort _, aeadDecrypt_short hshort ..⟩, fun h => absurd hshort (by omega)⟩
  · have mapped : ∀ a ∈ decryptProcedure key nonce ad c, a.reg.isSome = true :=
      decryptProcedure_front hlong key nonce ad ▸
        mapped_of_awaited (decryptFront_awaited key nonce ad c) (cmd_awaited _)
    obtain ⟨n, t, run, atRest, serves⟩ := presents_serves presented mapped hh
    obtain ⟨u, new, st, hu, rfl, hst⟩ := serves_decryptProcedure ready hlong serves
    have answers : ((u.verified.answer Answer.done).answer (Answer.data st)).answers =
        new ++ [Answer.done, Answer.data st] := by
      simp [State.verified, hu.answers]
    refine ⟨n, _, run, hu.ready.err, runResult_next atRest _, faulty hu.ready.err, fun h => absurd hlong (by omega),
      fun _ => ⟨st, ?_, ?_⟩⟩
    · simp
    · rw [answers]
      exact hu.decryptResult_of_status hlong hst

end Sys2Proof.Machine
end

section
/-! PROOFS. Command errors (60_exceptions.md R115 to R118): what an issued word does, when ERR is raised and cleared, and
the invariant that every step keeps. -/

namespace Sys2Proof.Machine

/-! ### The issue procedure (R118) -/

theorem runsInError_of_ne {i : Instr} (hi : i ≠ .abort) : runsInError i = false := by
  simp [runsInError, hi]

/-- With ERR = 1 every word but ABORT's is ignored, illegal words and bad operands among them (R117). -/
theorem issue_ignored {w : Word} {s : State} (hE : s.ERR = true) (hw : decode w ≠ .cmd .abort) :
    issue w s = .next s := by
  cases hd : decode w with
  | illegal => simp [issue, hd, hE]
  | badArg i =>
    obtain ⟨-, illegal⟩ := Laws.decode_eq_badArg hd
    rw [issue_badArg hd]
    exact exec_ignored hE (runsInError_of_ne fun hi => by simp [hi, Instr.wellFormed] at illegal)
  | cmd i =>
    rw [issue_executes hd (not_started (.inl hE))]
    exact exec_ignored hE (runsInError_of_ne fun hi => hw (hi ▸ hd))

/-- Settles O9: one law of issue and of `exec` per outcome; an operand that decodes is in range, so only the check of
the phase is left to a decoded command. -/
theorem issueProcedure : Obligations.IssueProcedure := by
  intro w s
  refine ⟨?abort, issue_ignored, ?illegal, ?badArg, ?sequence, ?starts, ?executes⟩
  case abort => exact fun hE hw => issue_executes hw (not_started (.inl hE))
  case illegal => exact fun hE hw => issue_illegal hw hE
  case badArg =>
    intro i hE hw
    obtain ⟨-, illegal⟩ := Laws.decode_eq_badArg hw
    exact (issue_badArg hw s).trans (exec_badArg hE ((argInRange_eq_wellFormed i).trans illegal))
  case sequence =>
    intro i hE hw hp
    obtain ⟨-, legal⟩ := Laws.decode_eq_cmd hw
    exact (issue_executes hw (not_started (.inr (.inl hp)))).trans
      (exec_sequence hE ((argInRange_eq_wellFormed i).trans legal) hp)
  case starts =>
    intro i hE hw hp busy
    obtain ⟨-, legal⟩ := Laws.decode_eq_cmd hw
    exact issue_starts hw (accepts_of_admitted hE legal hp) busy
  case executes =>
    intro i hE hw hp quick
    obtain ⟨-, legal⟩ := Laws.decode_eq_cmd hw
    exact ⟨issue_executes hw (not_started (.inr (.inr quick))), _,
      exec_of_accepts (accepts_of_admitted hE legal hp), effectOf_ERR i hE, rfl⟩

/-! ### Raising an error (R115, R116) -/

/-- A command that raises an error does so by `raiseCmdError` and has no effect. -/
theorem exec_raises {i : Instr} {s t : State} (h : exec i s = .next t) (before : s.ERR = false) (after : t.ERR = true) :
    ∃ c, c ≠ .none ∧ t = s.raiseCmdError c := by
  cases exec_cases h with
  | ignored err => cases before.symm.trans err
  | badArg => exact ⟨.badArg, nofun, rfl⟩
  | sequence => exact ⟨.sequence, nofun, rfl⟩
  | ran => cases (effectOf_ERR i before).symm.trans after

theorem issue_raises {w : Word} {s t : State} (h : issue w s = .next t) (before : s.ERR = false)
    (after : t.ERR = true) : ∃ c, c ≠ .none ∧ t = s.raiseCmdError c := by
  cases issue_cases h with
  | illegalIgnored hw err => cases before.symm.trans err
  | illegal => exact ⟨.illegalCommand, nofun, rfl⟩
  | started => cases before.symm.trans after
  | executed i hw t quick run => exact exec_raises run before after

theorem Cause.code_of_ne_none {c : Cause} (h : c ≠ .none) : c.code = 1 ∨ c.code = 2 ∨ c.code = 3 := by
  cases c with
  | none => exact absurd rfl h
  | illegalCommand => exact .inl rfl
  | badArg => exact .inr (.inl rfl)
  | sequence => exact .inr (.inr rfl)

/-- Settles O10: an error is raised by `raiseCmdError` alone, with a cause. -/
theorem commandErrorChangesOnlyErrAndCause : Obligations.CommandErrorChangesOnlyErrAndCause := by
  intro w s t before h after
  obtain ⟨c, raised, rfl⟩ := issue_raises h before after
  exact ⟨Cause.code_of_ne_none raised, rfl⟩

/-! ### Clearing an error (R117) -/

/-- 0x00000001 is ABORT's only word. -/
theorem decode_eq_abort_iff (w : Word) : decode w = .cmd .abort ↔ w = 0x00000001 := by
  refine ⟨fun h => ?_, fun h => h ▸ Laws.decode_encode_legal (i := .abort) rfl⟩
  obtain ⟨word, -⟩ := Laws.decode_eq_cmd h
  exact word.symm

/-- An access that clears ERR is the write of ABORT's word to CMD. -/
theorem perform_clears_ERR {a : Access} {s t : State} (h : perform a s = .next t) (before : s.ERR = true)
    (after : t.ERR = false) : a.reg = some .cmd ∧ a.op = .write 0x00000001 := by
  cases perform_cases h with
  | read => cases before.symm.trans after
  | issued w hr hop u hu =>
    by_cases hw : w = 0x00000001
    · exact ⟨hr, hw ▸ hop⟩
    · cases (issue_ignored before ((decode_eq_abort_iff w).not.mpr hw)).symm.trans hu
      cases before.symm.trans after
  | written r v =>
    have same : (s.writeReg r v).ERR = s.ERR := by cases r <;> rfl
    cases before.symm.trans (same.symm.trans after)

/-- While ERR = 1 no command is in flight, so a step that clears ERR is a reset or performs the access that does. -/
theorem step_clears_ERR {s t : State} (inv : s.Invariant) (before : s.ERR = true) (h : step s = .next t)
    (after : t.ERR = false) : (∃ rest, s.port = .reset :: rest) ∨
      ∃ a, s.performs a ∧ a.reg = some .cmd ∧ a.op = .write 0x00000001 := by
  have idle : ∀ f, s.inFlight ≠ some f := fun f hf => by
    obtain ⟨noError, -⟩ := inv.flight f hf
    cases before.symm.trans noError
  cases step_cases h with
  | reset rest hp => exact .inl ⟨rest, hp⟩
  | runs f hf => exact absurd hf (idle f)
  | completes f hf => exact absurd hf (idle f)
  | performsHeld a hf hh t ht => exact .inr ⟨a, ⟨hf, .inl hh⟩, perform_clears_ERR ht before after⟩
  | performsNext a rest hf hh hp t ht => exact .inr ⟨a, ⟨hf, .inr ⟨hh, rest, hp⟩⟩, perform_clears_ERR ht before after⟩
  | idles => cases before.symm.trans after
  | waits => cases before.symm.trans after

/-- Settles O11: of the words ABORT's alone is not ignored, and the port's other accesses do not look at ERR. -/
theorem errorIsSticky : Obligations.ErrorIsSticky := by
  refine ⟨fun w s hE hw => issue_ignored hE ((decode_eq_abort_iff w).not.mpr hw), fun s hE => ?clears,
    fun r v s _ hr => performOn_write hr v s, fun r s _ => performOn_read r s, fun s t inv before h after => ?step⟩
  case clears =>
    have hw := (decode_eq_abort_iff 0x00000001).mpr rfl
    exact ⟨_, (issue_executes hw (not_started (.inl hE))).trans (exec_of_accepts (accepts_abort s)), rfl, rfl⟩
  case step =>
    obtain hreset | ⟨a, ⟨-, performed⟩, hr, hop⟩ := step_clears_ERR inv before h after
    · exact .inl hreset
    · exact .inr ⟨a, performed, hr, hop⟩

/-! ### The invariant: PHASE, the tag and the verdict (R63, R25, R32) -/

/-- INIT and ABORT alone leave DONE: the other commands are not admitted there or stay in it. -/
theorem leaves_done {i : Instr} {p : Phase} (done : p = .done) (hp : admitted i p = true)
    (hn : nextPhase i p ≠ .done) : i = .init ∨ i = .abort := by
  subst done
  cases i with
  | init => exact .inl rfl
  | abort => exact .inr rfl
  | adw | adp | encw | encp | decw | decp => cases hp
  | _ => exact absurd rfl hn

/-- ERR and CAUSE after an effect: ABORT clears both, the others leave both. -/
theorem effectOf_errCause (i : Instr) {s : State} (h : s.ERR = (s.CAUSE != .none)) :
    (effectOf i s).ERR = ((effectOf i s).CAUSE != .none) := by
  cases i with
  | abort => rfl
  | _ => exact h

/-- A verdict that says equal is valid after an effect too: VERIFY makes it valid, INIT and ABORT take it away. -/
theorem effectOf_authOk (i : Instr) {s : State} (h : s.AUTH_OK = true → s.AUTH_VALID = true) :
    (effectOf i s).AUTH_OK = true → (effectOf i s).AUTH_VALID = true := by
  cases i with
  | verify => exact fun _ => rfl
  | init | abort => exact nofun
  | _ => exact h

/-- A command that ends outside DONE leaves no tag and no verdict: INIT and ABORT clear them, and any other found none
and writes none. -/
theorem effectOf_beforeDone {i : Instr} {s : State} (h : s.PHASE ≠ .done → s.TAG = .zero ∧ s.AUTH_VALID = false)
    (hp : admitted i s.PHASE = true) (hn : nextPhase i s.PHASE ≠ .done) :
    (effectOf i s).TAG = .zero ∧ (effectOf i s).AUTH_VALID = false := by
  have found (hi : ¬ (i = .init ∨ i = .abort)) : s.TAG = .zero ∧ s.AUTH_VALID = false :=
    h fun done => hi (leaves_done done hp hn)
  cases i with
  | init | abort => exact ⟨rfl, rfl⟩
  | fin | verify => exact absurd rfl hn
  | _ => exact found (by simp)

/-! ### The invariant, operation by operation -/

/-- The access held, if any, is one that is not answered at once: the invariant's clause `heldAccess` (R136). -/
def HeldWaits (held : Option Access) : Prop :=
  ∀ a, held = some a → ∃ r, a.reg = some r ∧ isStatusRead r a.op = false

theorem heldWaits_none : HeldWaits none := nofun

section
variable {s t : State}

/-- Nothing but the held access matters of the port. -/
theorem State.Invariant.withPort (inv : s.Invariant) {held : Option Access} (waits : HeldWaits held)
    (es : List PortEvent) (as : List Answer) (n : Nat) :
    State.Invariant { s with held := held, port := es, answers := as, freeReads := n } :=
  ⟨inv.errCause, inv.authOk, inv.beforeDone, inv.flight, waits⟩

theorem State.Invariant.answer (inv : s.Invariant) (x : Answer) : (s.answer x).Invariant :=
  inv.withPort inv.heldAccess s.port _ s.freeReads

/-- A whole command keeps the invariant, once nothing is in flight (R65, R115). -/
theorem exec_invariant {i : Instr} (inv : s.Invariant) (h : exec i s = .next t) :
    State.Invariant { t with inFlight := none } := by
  obtain ⟨-, -, -, -, -, held, -⟩ := exec_frame h
  have waits : HeldWaits t.held := held ▸ inv.heldAccess
  cases exec_cases h with
  | ignored => exact ⟨inv.errCause, inv.authOk, inv.beforeDone, nofun, waits⟩
  | badArg => exact ⟨rfl, inv.authOk, inv.beforeDone, nofun, waits⟩
  | sequence => exact ⟨rfl, inv.authOk, inv.beforeDone, nofun, waits⟩
  | ran runs arg phase =>
    exact ⟨effectOf_errCause i inv.errCause, effectOf_authOk i inv.authOk, effectOf_beforeDone inv.beforeDone phase,
      nofun, waits⟩

theorem exec_idle_invariant {i : Instr} (inv : s.Invariant) (idle : s.inFlight = none) (h : exec i s = .next t) :
    t.Invariant := by
  obtain ⟨-, -, -, -, flight, -⟩ := exec_frame h
  have same : { t with inFlight := none } = t := by rw [← flight.trans idle]
  exact same ▸ exec_invariant inv h

theorem one_le_latency (i : Instr) : 1 ≤ Config.latency i := by
  cases i <;> exact Nat.succ_le_succ (Nat.zero_le _)

/-- What an accepted command that goes busy finds: ERR is 0, since ABORT, which runs in error, does not go busy. -/
theorem ERR_of_busy {i : Instr} (acc : s.accepts i = true) (busy : goesBusy i = true) : s.ERR = false := by
  refine Bool.eq_false_of_not_eq_true fun hE => ?_
  have notStarted : (s.accepts i && goesBusy i) = false := not_started (.inl hE)
  simp [acc, busy] at notStarted

/-- A command put in flight was accepted, and has its latency to go (R135). -/
theorem start_invariant {i : Instr} (inv : s.Invariant) (acc : s.accepts i = true) (busy : goesBusy i = true) :
    (s.start i).Invariant := by
  have noError := ERR_of_busy acc busy
  simp only [State.accepts, Bool.and_eq_true] at acc
  obtain ⟨⟨-, arg⟩, phase⟩ := acc
  refine ⟨inv.errCause, inv.authOk, inv.beforeDone, fun f hf => ?_, inv.heldAccess⟩
  cases hf
  exact ⟨noError, busy, argInRange_eq_wellFormed i ▸ arg, phase, rfl, one_le_latency i, le_rfl⟩

theorem issue_invariant {w : Word} (inv : s.Invariant) (idle : s.inFlight = none) (h : issue w s = .next t) :
    t.Invariant := by
  cases issue_cases h with
  | illegalIgnored => exact inv
  | illegal => exact ⟨rfl, inv.authOk, inv.beforeDone, by simp [idle], inv.heldAccess⟩
  | started i hw acc busy => exact start_invariant inv acc busy
  | executed i hw t quick run => exact exec_idle_invariant inv idle run

/-- With nothing in flight a register write concerns no clause: it writes K, N, RT or DIN. -/
theorem writeReg_invariant (inv : s.Invariant) (idle : s.inFlight = none) (r : Reg) (v : Word) :
    (s.writeReg r v).Invariant := by
  have noFlight : ∀ f, s.inFlight ≠ some f := by simp [idle]
  cases r with
  | cmd | status | dout | tag => exact inv
  | din | key | nonce | rtag =>
    exact ⟨inv.errCause, inv.authOk, inv.beforeDone, fun f hf => absurd hf (noFlight f), inv.heldAccess⟩

theorem perform_invariant {a : Access} (inv : s.Invariant) (idle : s.inFlight = none) (h : perform a s = .next t) :
    t.Invariant := by
  cases perform_cases h with
  | read r => exact inv.answer _
  | issued w hr hop u hu => exact (issue_invariant inv idle hu).answer _
  | written r v => exact (writeReg_invariant inv idle r v).answer _

/-- An access presented while BUSY = 1 is held because it is not answered at once (R136). -/
theorem presentBusy_heldWaits {a : Access} (waits : HeldWaits s.held) (h : presentBusy a s = .next t) :
    HeldWaits t.held := by
  cases hr : a.reg with
  | none => rw [presentBusy_of_none hr] at h; cases h
  | some r =>
    simp only [presentBusy, hr] at h
    split at h
    case isTrue =>
      obtain ⟨held, -⟩ := perform_port ((perform_of_reg hr s).trans h)
      exact held ▸ waits
    case isFalse now =>
      cases h
      rintro _ ⟨⟩
      exact ⟨r, hr, Bool.eq_false_of_not_eq_true now⟩

theorem hostWhileBusy_heldWaits (waits : HeldWaits s.held) (h : hostWhileBusy s = .next t) : HeldWaits t.held := by
  unfold hostWhileBusy at h
  split at h
  case h_1 => cases h; exact waits
  case h_2 =>
    split at h
    case isTrue => cases h; exact waits
    case isFalse => exact presentBusy_heldWaits (by exact waits) h
  case h_3 => cases h; exact waits

theorem hostWhileBusy_invariant (inv : s.Invariant) (h : hostWhileBusy s = .next t) : t.Invariant :=
  hostWhileBusy_frame h ▸ inv.withPort (hostWhileBusy_heldWaits inv.heldAccess h) t.port t.answers s.freeReads

/-- The countdown stays within the latency while it runs (R135). -/
theorem countdown_invariant {f : InFlight} (inv : s.Invariant) (hf : s.inFlight = some f) (hr : 1 < f.remaining) :
    State.Invariant { s with inFlight := some { f with remaining := f.remaining - 1 } } := by
  obtain ⟨noError, busy, legal, phase, din, -, hlat⟩ := inv.flight f hf
  refine ⟨inv.errCause, inv.authOk, inv.beforeDone, fun g hg => ?_, inv.heldAccess⟩
  cases hg
  exact ⟨noError, busy, legal, phase, din, Nat.le_sub_one_of_lt hr, (Nat.sub_le ..).trans hlat⟩

end

theorem reset_invariant : State.reset.Invariant :=
  ⟨rfl, nofun, fun _ => ⟨rfl, rfl⟩, nofun, nofun⟩

/-- Settles O3: what a step does is one of the operations above, on the state with its event or its held access taken
off. -/
theorem everyStepKeepsInvariant : Obligations.EveryStepKeepsInvariant := by
  intro s t inv h
  cases step_cases h with
  | reset rest hp => exact reset_invariant.withPort heldWaits_none rest _ _
  | runs f hf hr u hu =>
    have flight : u.inFlight = s.inFlight := congrArg (·.inFlight) (hostWhileBusy_frame hu)
    exact countdown_invariant (hostWhileBusy_invariant inv hu) (flight.trans hf) hr
  | completes f hf hr u hu v hv => exact exec_invariant (hostWhileBusy_invariant inv hu) hv
  | performsHeld a hf hh t ht => exact perform_invariant (inv.withPort heldWaits_none s.port s.answers s.freeReads) hf ht
  | performsNext a rest hf hh hp t ht =>
    exact perform_invariant (inv.withPort inv.heldAccess rest s.answers s.freeReads) hf ht
  | idles rest => exact inv.withPort inv.heldAccess rest s.answers s.freeReads
  | waits => exact inv

end Sys2Proof.Machine
end

section
/-! PROOFS. Time and atomic commands (70_reset_and_hazards.md R135 to R138): the cycle-by-cycle machine serves its
accesses as the machine with atomic commands does, but for the STATUS words read while BUSY = 1. -/

namespace Sys2Proof.Machine

/-! ### The answers already given do not matter -/

/-- The state with these answers given so far. -/
def State.withAnswers (s : State) (ys : List Answer) : State := { s with answers := ys }

section
variable {s t u : State} (ys : List Answer)

theorem exec_withAnswers {i : Instr} (h : exec i s = .next t) :
    exec i (s.withAnswers ys) = .next (t.withAnswers ys) := by
  obtain ⟨-, -, -, -, -, held, port, -, freeReads⟩ := exec_frame h
  refine (exec_port_irrelevant h s.held s.port ys s.freeReads).trans ?_
  rw [← held, ← port, ← freeReads]
  rfl

theorem issue_withAnswers {w : Word} (h : issue w s = .next t) :
    issue w (s.withAnswers ys) = .next (t.withAnswers ys) := by
  cases issue_cases h with
  | illegalIgnored hw err => simp [issue, hw, State.withAnswers, err]
  | illegal hw err => exact issue_illegal hw err
  | started i hw acc busy => exact issue_starts hw (by exact acc) busy
  | executed i hw t quick run =>
    have executes : issue w (s.withAnswers ys) = exec i (s.withAnswers ys) := by
      obtain hw | hw := hw
      · exact issue_executes hw (by exact quick hw)
      · exact issue_badArg hw _
    exact executes.trans (exec_withAnswers ys run)

/-- What settling can do: nothing with nothing in flight, else the command in flight completes. -/
theorem settle_cases (h : settle s = .next t) : (s.inFlight = none ∧ t = s) ∨
    ∃ f v, s.inFlight = some f ∧ exec f.cmd s = .next v ∧ t = { v with inFlight := none } := by
  cases hf : s.inFlight with
  | none => exact .inl ⟨rfl, (Host.Outcome.next.inj ((settle_idle hf).symm.trans h)).symm⟩
  | some f =>
    obtain ⟨v, hv, hvt⟩ := andThen_eq_next ((settle_inFlight hf).symm.trans h)
    exact .inr ⟨f, v, rfl, hv, (Host.Outcome.next.inj hvt).symm⟩

theorem settle_withAnswers (h : settle s = .next t) : settle (s.withAnswers ys) = .next (t.withAnswers ys) := by
  obtain ⟨hf, rfl⟩ | ⟨f, v, hf, hv, rfl⟩ := settle_cases h
  · exact settle_idle hf
  · have settles : settle (s.withAnswers ys) = complete f (s.withAnswers ys) := settle_inFlight hf
    rw [settles, complete, exec_withAnswers ys hv]
    rfl

/-- A completion gives no answer. -/
theorem settle_answers (h : settle s = .next t) : t.answers = s.answers := by
  obtain ⟨-, rfl⟩ | ⟨f, v, -, hv, rfl⟩ := settle_cases h
  · rfl
  · obtain ⟨-, -, -, -, -, -, -, answers, -⟩ := exec_frame hv
    exact answers

/-- Performing an access gives one answer, whatever was answered before. -/
theorem perform_withAnswers {a : Access} (h : perform a s = .next u) :
    ∃ y, u.answers = s.answers ++ [y] ∧
      ∀ ys, perform a (s.withAnswers ys) = .next (u.withAnswers (ys ++ [y])) := by
  cases perform_cases h with
  | read r hr hop =>
    refine ⟨.data (s.readReg r), rfl, fun ys => ?_⟩
    have same : (s.withAnswers ys).readReg r = s.readReg r := by cases r <;> rfl
    rw [perform_of_reg hr, hop, performOn_read, same]
    rfl
  | issued w hr hop u hu =>
    obtain ⟨-, -, -, -, -, -, answers, -⟩ := issue_frame hu
    refine ⟨.done, congrArg (· ++ [Answer.done]) answers, fun ys => ?_⟩
    rw [perform_of_reg hr, hop, performOn_write_cmd, issue_withAnswers ys hu]
    rfl
  | written r v hr hne hop =>
    refine ⟨.done, by cases r <;> rfl, fun ys => ?_⟩
    rw [perform_of_reg hr, hop, performOn_write hne]
    cases r <;> rfl

/-- An access with its command gives one answer, whatever was answered before. -/
theorem transact_withAnswers {a : Access} (hu : perform a s = .next u) (ht : settle u = .next t) :
    ∃ y, t.answers = s.answers ++ [y] ∧
      ∀ ys, transact a (s.withAnswers ys) = .next (t.withAnswers (ys ++ [y])) := by
  obtain ⟨y, answers, performed⟩ := perform_withAnswers hu
  refine ⟨y, (settle_answers ht).trans answers, fun ys => ?_⟩
  rw [transact, performed, andThen_next, settle_withAnswers _ ht]

end

/-! ### What the host sees against the atomic commands (R138, log 12) -/

theorem reg_of_readsStatus {a : Access} (h : a.readsStatus = true) : a.reg = some .status ∧ a.op = .read := by
  simpa [Access.readsStatus] using h

/-- A STATUS word read while a command is in flight stands for any answer to that read: it shows BUSY = 1 (R137). -/
theorem answerMatches_status_busy {a : Access} {v : State} {f : InFlight} (ha : a.readsStatus = true)
    (hf : v.inFlight = some f) (y : Answer) : AnswerMatches a (.data v.status) y :=
  .inr ⟨ha, v.status, rfl, (status_bit v 0).trans (v.BUSY_eq_true.mpr ⟨f, hf⟩)⟩

/-- From the state in which the command in flight has completed, the atomic commands lead where the accesses served lead,
with answers that match. -/
theorem Serves.agrees {v s t : State} {as : List Access} (h : Serves v as t) (hs : settle v = .next s)
    (ys : List Answer) : ∃ xs zs, t.answers = s.answers ++ xs ∧
      transactAll as (s.withAnswers ys) = .next (t.withAnswers (ys ++ zs)) ∧ AnswersMatch as xs zs := by
  induction h generalizing s ys with
  | ends ht =>
    cases hs.symm.trans ht
    refine ⟨[], [], (List.append_nil _).symm, ?_, trivial⟩
    rw [List.append_nil]
    rfl
  | @early v t a as f hf ha h ih =>
    obtain ⟨hr, hop⟩ := reg_of_readsStatus ha
    have idle : s.inFlight = none := idle_of_settle hs
    have read := transact_of_read (s := s.withAnswers ys) hr hop idle
    obtain ⟨xs, zs, answers, atomic, matched⟩ := ih (settle_answer _ hs) (ys ++ [.data s.status])
    refine ⟨.data v.status :: xs, .data s.status :: zs, ?_, ?_, answerMatches_status_busy ha hf _, matched⟩
    · simpa using answers
    · rw [List.append_cons]
      exact (transactAll_cons read as).trans atomic
  | @inTurn v s' u t a as hs' hu h ih =>
    cases hs.symm.trans hs'
    obtain ⟨w, hw, -⟩ := settle_next u
    obtain ⟨y, answered, transacted⟩ := transact_withAnswers hu hw
    obtain ⟨xs, zs, answers, atomic, matched⟩ := ih hw (ys ++ [y])
    refine ⟨y :: xs, y :: zs, ?_, ?_, .inl rfl, matched⟩
    · rw [answers, answered, ← List.append_cons]
    · rw [List.append_cons]
      exact (transactAll_cons (transacted ys) as).trans atomic

/-- Settles O59: the run comes to rest when it has served the accesses, and what is served agrees with the atomic
commands. -/
theorem cyclesAgreeWithAtomicCommands : Obligations.CyclesAgreeWithAtomicCommands := by
  intro s es as hf hh presented mapped
  obtain ⟨n, t, run, atRest, serves⟩ := presents_serves presented mapped hh
  obtain ⟨xs, zs, answers, atomic, matched⟩ := serves.agrees (settle_idle (by exact hf)) []
  have given : t.answers = xs := answers
  exact ⟨n, t, _, run, atomic, atRest, rfl, given ▸ matched⟩

end Sys2Proof.Machine
end

section
/-! PROOFS. Reset (70_reset_and_hazards.md R131, R132), and the engine while a command is in flight (R135 to R137). -/

namespace Sys2Proof.Machine

/-! ### Reset -/

theorem releaseHeld_none {s : State} (hh : s.held = none) : s.releaseHeld.answers = s.answers := by
  rw [State.releaseHeld, hh]

theorem releaseHeld_read {s : State} {a : Access} (hh : s.held = some a) (hop : a.op = .read) :
    s.releaseHeld.answers = s.answers ++ [.data (Config.freeRead s.freeReads)] := by
  simp only [State.releaseHeld, hh, hop]

theorem releaseHeld_write {s : State} {a : Access} {v : Word} (hh : s.held = some a) (hop : a.op = .write v) :
    s.releaseHeld.answers = s.answers ++ [.released] := by
  simp only [State.releaseHeld, hh, hop, State.answer_answers]

theorem status_reset : State.reset.status = 0 := rfl

theorem status_applyReset (s : State) (rest : List PortEvent) : (s.applyReset rest).status = State.reset.status := rfl

/-- Settles O1: the step is `applyReset`, whose fields are those of `State.reset` but for the port's. -/
theorem resetInputResetsEveryState : Obligations.ResetInputResetsEveryState := by
  refine ⟨fun s rest hp => ⟨s.applyReset rest, step_reset hp, ?values⟩, ?reset⟩
  case values =>
    exact ⟨rfl, rfl, rfl, rfl, rfl, rfl, rfl, rfl, rfl, rfl, rfl, rfl, rfl, rfl, rfl, rfl,
      (status_applyReset s rest).trans status_reset, releaseHeld_none,
      fun _ hh hop => ⟨_, releaseHeld_read hh hop⟩, fun _ _ => releaseHeld_write⟩
  case reset => exact ⟨rfl, rfl, rfl, rfl, rfl, rfl, rfl, rfl, rfl, rfl, rfl, rfl, rfl, rfl, status_reset⟩

/-- Settles O2: the invariant's lemma about the reset state. -/
theorem resetMeetsInvariant : Obligations.ResetMeetsInvariant := reset_invariant

/-! ### Held accesses (R136) -/

/-- The engine's side of a busy cycle leaves the inputs and all that stands at the port. -/
theorem runInFlight_frame (f : InFlight) (s : State) : ∃ t, runInFlight f s = .next t ∧ SameInputs t s ∧
    t.held = s.held ∧ t.port = s.port ∧ t.answers = s.answers := by
  unfold runInFlight
  split
  · obtain ⟨v, hv⟩ := exec_next f.cmd s
    obtain ⟨hK, hN, hRT, hDIN, -, held, port, answers, -⟩ := exec_frame hv
    refine ⟨{ v with inFlight := none }, ?_, ⟨hK, hN, hRT, hDIN⟩, held, port, answers⟩
    rw [complete, hv, andThen_next]
  · exact ⟨_, rfl, ⟨rfl, rfl, rfl, rfl⟩, rfl, rfl, rfl⟩

theorem presentBusy_holds {a : Access} {r : Reg} (hr : a.reg = some r)
    (notStatus : ¬ (r = .status ∧ a.op = .read)) (s : State) : presentBusy a s = .next { s with held := some a } := by
  have waits : ¬ isStatusRead r a.op = true := by simpa [isStatusRead] using notStatus
  simp only [presentBusy, hr, if_neg waits]

/-- While an access is held the host's side of a busy cycle at most lets a cycle event pass (20_memory.md R54). -/
theorem hostWhileBusy_held {s : State} {a : Access} (hh : s.held = some a) :
    ∃ es, hostWhileBusy s = .next { s with port := es } := by
  unfold hostWhileBusy
  split
  case h_1 rest hp => exact ⟨rest, rfl⟩
  case h_2 b rest hp => exact ⟨s.port, if_pos (by rw [hh]; rfl)⟩
  case h_3 => exact ⟨s.port, rfl⟩

/-- Settles O56: the host's side of a busy cycle holds the access or leaves the one that is held, and the engine's side
touches neither it nor the inputs. -/
theorem accessesAreHeldWhileBusy : Obligations.AccessesAreHeldWhileBusy := by
  refine ⟨fun s f a r rest hf hh hp hr notStatus => ?holds, fun s f a hf hh noReset => ?staysHeld,
    fun s a hf hh noReset => step_held hf hh noReset⟩
  case holds =>
    rw [step_busy_access hf hh hp, presentBusy_holds hr notStatus, andThen_next]
    obtain ⟨t, ht, ⟨hK, hN, hRT, hDIN⟩, held, port, answers⟩ :=
      runInFlight_frame f { s with port := rest, held := some a }
    exact ⟨t, ht, held, port, answers, hK, hN, hRT, hDIN⟩
  case staysHeld =>
    obtain ⟨es, host⟩ := hostWhileBusy_held hh
    rw [step_busy hf noReset, host, andThen_next]
    obtain ⟨t, ht, ⟨hK, hN, hRT, hDIN⟩, held, -, answers⟩ := runInFlight_frame f { s with port := es }
    exact ⟨t, ht, held.trans hh, answers, hK, hN, hRT, hDIN⟩

/-! ### STATUS while a command is in flight (R137) -/

/-- A STATUS read presented while a command is in flight is answered before the engine's side of the cycle. -/
theorem step_busy_statusRead {s : State} {f : InFlight} {rest : List PortEvent} (hf : s.inFlight = some f)
    (hh : s.held = none) (hp : s.port = .access (rd .status) :: rest) :
    step s = runInFlight f (State.answer { s with port := rest } (.data s.status)) :=
  step_busy_access hf hh hp

/-- A step that leaves a command in flight was a cycle of it, and counted down. -/
theorem step_counts_down {s t : State} {f g : InFlight} (hf : s.inFlight = some f) (h : step s = .next t)
    (hg : t.inFlight = some g) : 1 < f.remaining ∧ g = { f with remaining := f.remaining - 1 } ∧
      t = { s with inFlight := some g, held := t.held, port := t.port, answers := t.answers } := by
  cases step_cases h with
  | reset => cases hg
  | runs f' hf' hr u hu =>
    cases hf.symm.trans hf'
    cases hg
    exact ⟨hr, rfl, congrArg
      (fun x : State => { x with inFlight := some { f with remaining := f.remaining - 1 } }) (hostWhileBusy_frame hu)⟩
  | completes => cases hg
  | performsHeld a idle => cases hf.symm.trans idle
  | performsNext a rest idle => cases hf.symm.trans idle
  | idles rest idle => cases hf.symm.trans idle
  | waits idle => cases hf.symm.trans idle

/-- Settles O57: STATUS is read before the engine's side of the cycle, from the registers as they were at issue. -/
theorem statusWhileBusy : Obligations.StatusWhileBusy := by
  refine ⟨fun s f rest hf hh hp => ?answered, fun s t f g hf h hg => ?unchanged⟩
  case answered =>
    obtain ⟨t, ht, -, -, -, answers⟩ :=
      runInFlight_frame f (State.answer { s with port := rest } (.data s.status))
    exact ⟨t, s.status, (step_busy_statusRead hf hh hp).trans ht, answers,
      (status_bit s 0).trans (s.BUSY_eq_true.mpr ⟨f, hf⟩), status_bit s 1, status_bit s 2, status_bit s 3,
      status_phase s, status_cause s⟩
  case unchanged =>
    obtain ⟨hr, rfl, same⟩ := step_counts_down hf h hg
    exact ⟨rfl, rfl, Nat.sub_add_cancel hr.le, same⟩

/-! ### The countdown (R135) -/

/-- Only the events at the port need to be mapped: a held access is, by the invariant. -/
theorem State.Invariant.undisturbed {s : State} (inv : s.Invariant) (noReset : PortEvent.reset ∉ s.port)
    (mapped : ∀ a, PortEvent.access a ∈ s.port → a.reg.isSome = true) : s.Undisturbed := by
  refine ⟨noReset, fun a ha => ?_⟩
  obtain ha | ha := List.mem_append.mp ha
  · obtain ⟨r, hr, -⟩ := inv.heldAccess a (Option.mem_toList.mp ha)
    rw [hr]
    rfl
  · obtain ⟨e, he, hea⟩ := List.mem_filterMap.mp ha
    cases e with
    | access b => cases hea; exact mapped a he
    | cycle | reset => cases hea

/-- The command in flight completes accepted: the invariant keeps what its issue checked. -/
theorem complete_of_invariant {s : State} {f : InFlight} (inv : s.Invariant) (hf : s.inFlight = some f) :
    ∃ t, complete f s = .next t ∧ t.BUSY = false ∧ t.PHASE = nextPhase f.cmd s.PHASE ∧ t.ERR = false := by
  obtain ⟨noError, -, legal, phase, -⟩ := inv.flight f hf
  refine ⟨{ effectOf f.cmd s with PHASE := nextPhase f.cmd s.PHASE, inFlight := none }, ?_, rfl, rfl,
    effectOf_ERR f.cmd noError⟩
  rw [complete, exec_of_accepts (accepts_of_admitted noError legal phase), andThen_next]

/-- The host's side of a busy cycle, with all that a run of the command in flight rests on. -/
theorem step_runs {s : State} {f : InFlight} (inv : s.Invariant) (hf : s.inFlight = some f) (h : s.Undisturbed) :
    ∃ u, step s = runInFlight f u ∧ u.Invariant ∧ u.inFlight = some f ∧ u.Undisturbed ∧ u.PHASE = s.PHASE := by
  obtain ⟨u, hu, hfu, goesOn⟩ := hostWhileBusy_goesOn h hf
  refine ⟨u, ?_, hostWhileBusy_invariant inv hu, hfu, goesOn.undisturbed,
    congrArg (·.PHASE) (hostWhileBusy_frame hu)⟩
  rw [step_busy hf h.port_ne, hu, andThen_next]

/-- The run of a command in flight with `n + 1` cycles left. -/
theorem run_completes {n : Nat} {s : State} {f : InFlight} (inv : s.Invariant) (hf : s.inFlight = some f)
    (h : s.Undisturbed) (hn : f.remaining = n + 1) :
    ∃ t, core.run (n + 1) s = .next t ∧ t.BUSY = false ∧ t.PHASE = nextPhase f.cmd s.PHASE ∧ t.ERR = false := by
  induction n generalizing s f with
  | zero =>
    obtain ⟨u, hu, invu, hfu, -, phase⟩ := step_runs inv hf h
    obtain ⟨t, ht, result⟩ := complete_of_invariant invu hfu
    rw [runInFlight, if_pos hn.le, ht] at hu
    exact ⟨t, run_succ 0 hu, phase ▸ result⟩
  | succ n ih =>
    have more : 1 < f.remaining := by omega
    obtain ⟨u, hu, invu, hfu, undisturbed, phase⟩ := step_runs inv hf h
    rw [runInFlight, if_neg more.not_ge] at hu
    obtain ⟨t, run, result⟩ := ih (countdown_invariant invu hfu more) rfl
      ⟨undisturbed.noReset, undisturbed.mapped⟩ (Nat.sub_eq_of_eq_add hn)
    exact ⟨t, (run_succ (n + 1) hu).trans run, phase ▸ result⟩

/-- Settles O58: by induction on the cycles the command has left. -/
theorem busyFallsWithinTheLatency : Obligations.BusyFallsWithinTheLatency := by
  intro s f inv hf noReset mapped
  obtain ⟨-, -, -, -, -, positive, -⟩ := inv.flight f hf
  have left : f.remaining = (f.remaining - 1) + 1 := (Nat.sub_add_cancel positive).symm
  rw [left]
  exact run_completes inv hf (inv.undisturbed noReset mapped) left

end Sys2Proof.Machine
end
